-- ==== Sys2Proof/Word.lean ====
section
/-! DEFINITION. The byte of the block and its byte sequences (00_scope.md R15, R17, R18). -/

namespace Sys2Proof

/-- A byte: an unsigned integer 0..255, bit 0 least significant (R17). -/
abbrev Byte := BitVec 8

/-- A byte sequence, index 0 the lowest offset (R18). -/
abbrev Bytes := List Byte

/-- A message payload; the block's bound of 9 bytes (R10) is a check of the operations and of the ports, not of the type. -/
abbrev Payload := List Byte

end Sys2Proof
end

