-- ==== Sys2Proof/Config.lean ====
section
/-! DEFINITION. The configuration record (00_scope.md R12, 10_state.md R36) and the names it speaks of: outcome
classes, variants, fields, rows of the variant table, entries of the registry. The values stand in
Machine/Tables.lean. No value of this hardware is open, so there is no opaque constant (RX_MAX, the one OPEN
parameter, is read by no rule: 20_memory.md R78, 92_eei_decisions.md D8). -/

namespace Sys2Proof

/-- The outcome classes of 60_exceptions.md R261: the four of R260, success, and the model fault FIELD_ABSENT. -/
inductive Status where
  | ok
  | incomplete
  | corrupted
  | malformed
  | unknownType
  | fieldAbsent
  deriving DecidableEq, Repr

/-- The 22 variants of 30_encoding.md R106, in the table's order, and the variants a configuration may add: `added k` has
the id 22 + k, and the 5-bit VARIANT port leaves room for ten of them (41_dispatch.md R163; log entry 10). -/
inductive Variant where
  | channelUnassign
  | channelAssign
  | channelID
  | channelPeriod
  | channelSearchTimeout
  | channelFrequency
  | channelTXPower
  | networkKey
  | txPower
  | systemReset
  | channelOpen
  | channelClose
  | channelRequest
  | broadcastData
  | acknowledgedData
  | burstData
  | channelEvent
  | channelStatus
  | version
  | startup
  | capabilities
  | serialNumber
  | added (k : Fin 10)
  deriving DecidableEq, Repr

/-- The field names of R106, of R208 (`b0`), R220 (`reserved`), R245 (`adv2-present`), `extra` of the channel layer
(R182), and names a configuration numbers for the fields of the variants it adds (R163). -/
inductive FieldName where
  | channel
  | channelType
  | networkNumber
  | deviceNumber
  | deviceType
  | transmissionType
  | period
  | timeout
  | frequency
  | power
  | key
  | b0
  | reserved
  | requestedMessageId
  | data
  | messageId
  | messageCode
  | status
  | version
  | startupReason
  | maxChannels
  | maxNetworks
  | stdOptions
  | advOptions
  | advOptions2
  | adv2Present
  | serial
  | extra
  | added (n : Nat)
  deriving DecidableEq, Repr

/-- Whose field it is: a variant's, or the channel layer's own (R180: the layer does not know the variant). -/
inductive Owner where
  | channelLayer
  | variant (v : Variant)
  deriving DecidableEq, Repr

/-- A field's name as INFO carries it: "qualified by its variant" (60_exceptions.md R262). -/
structure Field where
  owner : Owner
  name : FieldName
  deriving DecidableEq, Repr

/-- How the bytes of a field are read: one byte (R96), two bytes little-endian (R97), a string of `k` bytes (R98). -/
inductive FieldKind where
  | byte
  | half
  | str (k : Nat)
  deriving DecidableEq, Repr

/-- A value of a field, as operand or as result: a number, a byte string, or the flag `adv2-present` of R245.
Operand numbers are unbounded integers, so that the range checks of R198 can fail (log entry 4). -/
inductive FieldVal where
  | num (v : Int)
  | str (s : Bytes)
  | flag (b : Bool)
  deriving DecidableEq, Repr

/-- One field of a row of the variant table: payload offset and kind (R106); `optional` marks the one optional
byte of the catalogue (R113). -/
structure FieldSpec where
  name : FieldName
  offset : Nat
  kind : FieldKind
  optional : Bool := false
  deriving DecidableEq, Repr

/-- Column `scope` of R106: channel-scoped, non-channel, or neither (R208, R220). -/
inductive Scope where
  | channelScoped
  | nonChannel
  | unclassed
  deriving DecidableEq, Repr

/-- A row of the variant table: id (5 bits, R32), scope, payload length and fields in offset order (R106). For
Capabilities the length is that of the shape without the optional byte (R113). -/
structure VariantRow where
  id : BitVec 5
  scope : Scope
  length : Nat
  fields : List FieldSpec
  deriving DecidableEq, Repr

/-- A valid entry of the registry ROM: its index (a type code) and its 5-bit variant id (10_state.md R37). -/
structure RegEntry where
  code : Byte
  variant : BitVec 5
  deriving DecidableEq, Repr

/-- The configuration constants of 10_state.md R36, each with the width of that table. `registry` lists the valid
entries of the 256-entry ROM, codes rising; a code that is not listed has "no entry". -/
structure Config where
  sync : Byte
  maxPayload : BitVec 4
  overhead : BitVec 3
  minDecode : BitVec 3
  errTypeRange : Status
  sysresetFill : Byte
  registry : List RegEntry
  vtab : List VariantRow
  deriving DecidableEq, Repr

end Sys2Proof
end

