-- ==== Sys2Proof/Machine/Operands.lean ====
section
/-! DEFINITION. Byte arithmetic and operand forms: the exclusive-or checksum, little-endian halves, MemRead and
MemWrite on byte sequences, and how a field of each kind is checked, laid out and read. -/

namespace Sys2Proof.Machine

/-- xor8(s), the loop of CKSUM from the first byte on (00_scope.md R18, 40_codec_ops.md R130). -/
def xor8 (s : Bytes) : Byte := s.foldl (· ^^^ ·) 0x00#8

/-- le16(lo, hi) = lo + 256 * hi (R19). -/
def le16 (lo hi : Byte) : Int := (lo.toNat + 256 * hi.toNat : Nat)

/-- lo8(v) = v mod 256 (R19). -/
def lo8 (v : Int) : Byte := BitVec.ofInt 8 (v % 256)

/-- hi8(v) = v div 256 (R19). -/
def hi8 (v : Int) : Byte := BitVec.ofInt 8 (v / 256)

/-- A byte as the number it is. -/
def numOf (b : Byte) : Int := (b.toNat : Nat)

/-- slice(buf, off, n), when it lies within the buffer (R18, R20). -/
def slice? (buf : Bytes) (off n : Nat) : Option Bytes :=
  if off + n ≤ buf.length then some ((buf.drop off).take n) else none

/-- MemWrite(buf, off, n, v) with n = len(v), when it lies within the buffer: a new sequence (R20). -/
def memWrite? (buf : Bytes) (off : Nat) (v : Bytes) : Option Bytes :=
  if off + v.length ≤ buf.length then some (buf.take off ++ v ++ buf.drop (off + v.length)) else none

/-- Width of a field in bytes (30_encoding.md R96 to R98). -/
def kindWidth : FieldKind → Nat
  | .byte => 1
  | .half => 2
  | .str k => k

/-- A value within the field's range: 0..255, 0..65535, or exactly k bytes (43_variants_config.md R198). -/
def inRange : FieldKind → FieldVal → Bool
  | .byte, .num v => decide (0 ≤ v) && decide (v ≤ 255)
  | .half, .num v => decide (0 ≤ v) && decide (v ≤ 65535)
  | .str k, .str s => decide (s.length = k)
  | _, _ => false

/-- The bytes of a field value, low byte first for a two-byte field (30_encoding.md R96 to R98). -/
def fieldBytes : FieldKind → FieldVal → Bytes
  | .byte, .num v => [lo8 v]
  | .half, .num v => [lo8 v, hi8 v]
  | _, .str s => s
  | _, _ => []

/-- The value read from a field's bytes (R96 to R98). -/
def fieldOf : FieldKind → Bytes → FieldVal
  | .byte, [b] => .num (numOf b)
  | .half, [lo, hi] => .num (le16 lo hi)
  | _, s => .str s

end Sys2Proof.Machine
end

