-- ==== Sys2Proof/Machine/Tables.lean ====
section
/-! DEFINITION. The values of the configuration at reset (10_state.md R36): the default registry
(41_dispatch.md R162), the variant table (30_encoding.md R106), the constants; and the lookups in them. -/

namespace Sys2Proof.Machine

/-- The variant id of R106, the value of the VARIANT port. -/
def variantId : Variant → BitVec 5
  | .channelUnassign => 0#5
  | .channelAssign => 1#5
  | .channelID => 2#5
  | .channelPeriod => 3#5
  | .channelSearchTimeout => 4#5
  | .channelFrequency => 5#5
  | .channelTXPower => 6#5
  | .networkKey => 7#5
  | .txPower => 8#5
  | .systemReset => 9#5
  | .channelOpen => 10#5
  | .channelClose => 11#5
  | .channelRequest => 12#5
  | .broadcastData => 13#5
  | .acknowledgedData => 14#5
  | .burstData => 15#5
  | .channelEvent => 16#5
  | .channelStatus => 17#5
  | .version => 18#5
  | .startup => 19#5
  | .capabilities => 20#5
  | .serialNumber => 21#5
  | .added k => BitVec.ofNat 5 (22 + k.val)

/-- The catalogue of R106, in id order. -/
def variants : List Variant :=
  [.channelUnassign, .channelAssign, .channelID, .channelPeriod, .channelSearchTimeout,
   .channelFrequency, .channelTXPower, .networkKey, .txPower, .systemReset,
   .channelOpen, .channelClose, .channelRequest, .broadcastData, .acknowledgedData,
   .burstData, .channelEvent, .channelStatus, .version, .startup,
   .capabilities, .serialNumber]

/-- The variant an id names: one of the catalogue for 0 to 21, one that only a configuration can add for 22 to 31
(41_dispatch.md R163). -/
def variantOfId (id : BitVec 5) : Variant :=
  match variants.find? (fun v => variantId v == id) with
  | some v => v
  | none => .added (Fin.ofNat 10 (id.toNat - 22))

/-- The default registry of 41_dispatch.md R162, codes rising. Only 0x4B is from the source; the other 21 codes are
PRESUMED (general knowledge by the spec's own mark, log entry 1). -/
def defaultRegistry : List RegEntry :=
  [⟨0x3E#8, 18#5⟩, ⟨0x40#8, 16#5⟩, ⟨0x41#8, 0#5⟩, ⟨0x42#8, 1#5⟩, ⟨0x43#8, 3#5⟩, ⟨0x44#8, 4#5⟩,
   ⟨0x45#8, 5#5⟩, ⟨0x46#8, 7#5⟩, ⟨0x47#8, 8#5⟩, ⟨0x4A#8, 9#5⟩, ⟨0x4B#8, 10#5⟩, ⟨0x4C#8, 11#5⟩,
   ⟨0x4D#8, 12#5⟩, ⟨0x4E#8, 13#5⟩, ⟨0x4F#8, 14#5⟩, ⟨0x50#8, 15#5⟩, ⟨0x51#8, 2#5⟩, ⟨0x52#8, 17#5⟩,
   ⟨0x54#8, 20#5⟩, ⟨0x60#8, 6#5⟩, ⟨0x61#8, 21#5⟩, ⟨0x6F#8, 19#5⟩]

/-- The variant table of 30_encoding.md R106 with the formats of R95. -/
def defaultVtab : List VariantRow :=
  [⟨0#5, .channelScoped, 1,
      [⟨.channel, 0, .byte, false⟩]⟩,
   ⟨1#5, .channelScoped, 3,
      [⟨.channel, 0, .byte, false⟩, ⟨.channelType, 1, .byte, false⟩, ⟨.networkNumber, 2, .byte, false⟩]⟩,
   ⟨2#5, .channelScoped, 5,
      [⟨.channel, 0, .byte, false⟩, ⟨.deviceNumber, 1, .half, false⟩, ⟨.deviceType, 3, .byte, false⟩, ⟨.transmissionType, 4, .byte, false⟩]⟩,
   ⟨3#5, .channelScoped, 3,
      [⟨.channel, 0, .byte, false⟩, ⟨.period, 1, .half, false⟩]⟩,
   ⟨4#5, .channelScoped, 2,
      [⟨.channel, 0, .byte, false⟩, ⟨.timeout, 1, .byte, false⟩]⟩,
   ⟨5#5, .channelScoped, 2,
      [⟨.channel, 0, .byte, false⟩, ⟨.frequency, 1, .byte, false⟩]⟩,
   ⟨6#5, .channelScoped, 2,
      [⟨.channel, 0, .byte, false⟩, ⟨.power, 1, .byte, false⟩]⟩,
   ⟨7#5, .nonChannel, 9,
      [⟨.networkNumber, 0, .byte, false⟩, ⟨.key, 1, .str 8, false⟩]⟩,
   ⟨8#5, .unclassed, 2,
      [⟨.b0, 0, .byte, false⟩, ⟨.power, 1, .byte, false⟩]⟩,
   ⟨9#5, .unclassed, 1,
      [⟨.reserved, 0, .byte, false⟩]⟩,
   ⟨10#5, .channelScoped, 1,
      [⟨.channel, 0, .byte, false⟩]⟩,
   ⟨11#5, .channelScoped, 1,
      [⟨.channel, 0, .byte, false⟩]⟩,
   ⟨12#5, .channelScoped, 2,
      [⟨.channel, 0, .byte, false⟩, ⟨.requestedMessageId, 1, .byte, false⟩]⟩,
   ⟨13#5, .channelScoped, 8,
      [⟨.channel, 0, .byte, false⟩, ⟨.data, 1, .str 7, false⟩]⟩,
   ⟨14#5, .channelScoped, 8,
      [⟨.channel, 0, .byte, false⟩, ⟨.data, 1, .str 7, false⟩]⟩,
   ⟨15#5, .channelScoped, 8,
      [⟨.channel, 0, .byte, false⟩, ⟨.data, 1, .str 7, false⟩]⟩,
   ⟨16#5, .channelScoped, 3,
      [⟨.channel, 0, .byte, false⟩, ⟨.messageId, 1, .byte, false⟩, ⟨.messageCode, 2, .byte, false⟩]⟩,
   ⟨17#5, .channelScoped, 2,
      [⟨.channel, 0, .byte, false⟩, ⟨.status, 1, .byte, false⟩]⟩,
   ⟨18#5, .nonChannel, 9,
      [⟨.version, 0, .str 9, false⟩]⟩,
   ⟨19#5, .nonChannel, 1,
      [⟨.startupReason, 0, .byte, false⟩]⟩,
   ⟨20#5, .nonChannel, 4,
      [⟨.maxChannels, 0, .byte, false⟩, ⟨.maxNetworks, 1, .byte, false⟩, ⟨.stdOptions, 2, .byte, false⟩, ⟨.advOptions, 3, .byte, false⟩, ⟨.advOptions2, 4, .byte, true⟩]⟩,
   ⟨21#5, .nonChannel, 4,
      [⟨.serial, 0, .str 4, false⟩]⟩]

/-- The configuration at reset: the values of 10_state.md R36. SYSRESET_FILL = 0x00 is PRESUMED (general knowledge by
the spec's own mark, log entry 2). -/
def defaultConfig : Config where
  sync := 0xA4#8
  maxPayload := 9#4
  overhead := 4#3
  minDecode := 5#3
  errTypeRange := .malformed
  sysresetFill := 0x00#8
  registry := defaultRegistry
  vtab := defaultVtab

/-- TX_MAX, the longest payload the port TXPAY can offer (00_scope.md R16). -/
def txMax : Nat := 15

/-- Entry `t` of the registry ROM: `none` is "no entry" (10_state.md R37, 20_memory.md R68). -/
def registryEntry (c : Config) (t : Byte) : Option (BitVec 5) :=
  (c.registry.find? (fun e => e.code == t)).map (·.variant)

/-- code(v), the registry inverted (30_encoding.md R117, 41_dispatch.md R161 item 2). -/
def codeOf (c : Config) (v : Variant) : Option Byte :=
  (c.registry.find? (fun e => e.variant == variantId v)).map (·.code)

/-- The row of the variant table for a variant. -/
def rowOf (c : Config) (v : Variant) : Option VariantRow :=
  c.vtab.find? (fun r => r.id == variantId v)

/-- The layout of one field of a variant. -/
def specOf (c : Config) (v : Variant) (n : FieldName) : Option FieldSpec :=
  match rowOf c v with
  | none => none
  | some r => r.fields.find? (fun d => d.name == n)

/-- The channel byte of the channel layer: payload offset 0 (42_channel_layer.md R180). -/
def channelSpec : FieldSpec := ⟨.channel, 0, .byte, false⟩

end Sys2Proof.Machine
end

