-- ==== Sys2Proof/Syntax/Access.lean ====
section
/-! DEFINITION. For each variant, which of its operations a transaction invokes and with which operands
(43_variants_config.md R196): BUILD with one operand per field, VIEW of a payload, GET of one field, SET of one
field. Numbers are unbounded integers and strings are of any length, so that the range checks of R198 and R199
can be shown (log entry 4). -/

namespace Sys2Proof

/-- The operations R196 gives every variant, with no variant named: how an operation of a variant that a configuration
adds is presented (41_dispatch.md R163), and the common form of the 22 rows below. -/
inductive FieldOp where
  | build (xs : List FieldVal)
  | view (p : Payload)
  | get (n : FieldName) (p : Payload)
  | set (n : FieldName) (p : Payload) (x : FieldVal)
  deriving DecidableEq, Repr

/-- Operations of ChannelUnassign (43_variants_config.md R200). -/
inductive ChannelUnassignOp where
  | build (channel : Int)
  | view (p : Payload)
  | getChannel (p : Payload)
  | setChannel (p : Payload) (val : Int)
  deriving DecidableEq, Repr

/-- Operations of ChannelAssign (43_variants_config.md R201). -/
inductive ChannelAssignOp where
  | build (channel : Int) (channelType : Int) (networkNumber : Int)
  | view (p : Payload)
  | getChannel (p : Payload)
  | getChannelType (p : Payload)
  | getNetworkNumber (p : Payload)
  | setChannel (p : Payload) (val : Int)
  | setChannelType (p : Payload) (val : Int)
  | setNetworkNumber (p : Payload) (val : Int)
  deriving DecidableEq, Repr

/-- Operations of ChannelID (43_variants_config.md R202). -/
inductive ChannelIDOp where
  | build (channel : Int) (deviceNumber : Int) (deviceType : Int) (transmissionType : Int)
  | view (p : Payload)
  | getChannel (p : Payload)
  | getDeviceNumber (p : Payload)
  | getDeviceType (p : Payload)
  | getTransmissionType (p : Payload)
  | setChannel (p : Payload) (val : Int)
  | setDeviceNumber (p : Payload) (val : Int)
  | setDeviceType (p : Payload) (val : Int)
  | setTransmissionType (p : Payload) (val : Int)
  deriving DecidableEq, Repr

/-- Operations of ChannelPeriod (43_variants_config.md R203). -/
inductive ChannelPeriodOp where
  | build (channel : Int) (period : Int)
  | view (p : Payload)
  | getChannel (p : Payload)
  | getPeriod (p : Payload)
  | setChannel (p : Payload) (val : Int)
  | setPeriod (p : Payload) (val : Int)
  deriving DecidableEq, Repr

/-- Operations of ChannelSearchTimeout (43_variants_config.md R204). -/
inductive ChannelSearchTimeoutOp where
  | build (channel : Int) (timeout : Int)
  | view (p : Payload)
  | getChannel (p : Payload)
  | getTimeout (p : Payload)
  | setChannel (p : Payload) (val : Int)
  | setTimeout (p : Payload) (val : Int)
  deriving DecidableEq, Repr

/-- Operations of ChannelFrequency (43_variants_config.md R205). -/
inductive ChannelFrequencyOp where
  | build (channel : Int) (frequency : Int)
  | view (p : Payload)
  | getChannel (p : Payload)
  | getFrequency (p : Payload)
  | setChannel (p : Payload) (val : Int)
  | setFrequency (p : Payload) (val : Int)
  deriving DecidableEq, Repr

/-- Operations of ChannelTXPower (43_variants_config.md R206). -/
inductive ChannelTXPowerOp where
  | build (channel : Int) (power : Int)
  | view (p : Payload)
  | getChannel (p : Payload)
  | getPower (p : Payload)
  | setChannel (p : Payload) (val : Int)
  | setPower (p : Payload) (val : Int)
  deriving DecidableEq, Repr

/-- Operations of NetworkKey (43_variants_config.md R207). -/
inductive NetworkKeyOp where
  | build (networkNumber : Int) (key : Bytes)
  | view (p : Payload)
  | getNetworkNumber (p : Payload)
  | getKey (p : Payload)
  | setNetworkNumber (p : Payload) (val : Int)
  | setKey (p : Payload) (val : Bytes)
  deriving DecidableEq, Repr

/-- Operations of TXPower (43_variants_config.md R208). -/
inductive TXPowerOp where
  | build (b0 : Int) (power : Int)
  | view (p : Payload)
  | getB0 (p : Payload)
  | getPower (p : Payload)
  | setB0 (p : Payload) (val : Int)
  | setPower (p : Payload) (val : Int)
  deriving DecidableEq, Repr

/-- Operations of SystemReset (44_variants_control_data.md R220). -/
inductive SystemResetOp where
  /-- BUILD; `none` takes the configured default SYSRESET_FILL. -/
  | build (fill : Option Int)
  | view (p : Payload)
  | getReserved (p : Payload)
  deriving DecidableEq, Repr

/-- Operations of ChannelOpen (44_variants_control_data.md R221). -/
inductive ChannelOpenOp where
  | build (channel : Int)
  | view (p : Payload)
  | getChannel (p : Payload)
  | setChannel (p : Payload) (val : Int)
  deriving DecidableEq, Repr

/-- Operations of ChannelClose (44_variants_control_data.md R222). -/
inductive ChannelCloseOp where
  | build (channel : Int)
  | view (p : Payload)
  | getChannel (p : Payload)
  | setChannel (p : Payload) (val : Int)
  deriving DecidableEq, Repr

/-- Operations of ChannelRequest (44_variants_control_data.md R223). -/
inductive ChannelRequestOp where
  | build (channel : Int) (requestedMessageId : Int)
  | view (p : Payload)
  | getChannel (p : Payload)
  | getRequestedMessageId (p : Payload)
  | setChannel (p : Payload) (val : Int)
  | setRequestedMessageId (p : Payload) (val : Int)
  deriving DecidableEq, Repr

/-- Operations of BroadcastData (44_variants_control_data.md R224). -/
inductive BroadcastDataOp where
  | build (channel : Int) (data : Bytes)
  | view (p : Payload)
  | getChannel (p : Payload)
  | getData (p : Payload)
  | setChannel (p : Payload) (val : Int)
  | setData (p : Payload) (val : Bytes)
  deriving DecidableEq, Repr

/-- Operations of AcknowledgedData (44_variants_control_data.md R225). -/
inductive AcknowledgedDataOp where
  | build (channel : Int) (data : Bytes)
  | view (p : Payload)
  | getChannel (p : Payload)
  | getData (p : Payload)
  | setChannel (p : Payload) (val : Int)
  | setData (p : Payload) (val : Bytes)
  deriving DecidableEq, Repr

/-- Operations of BurstData (44_variants_control_data.md R226). -/
inductive BurstDataOp where
  | build (channel : Int) (data : Bytes)
  | view (p : Payload)
  | getChannel (p : Payload)
  | getData (p : Payload)
  | setChannel (p : Payload) (val : Int)
  | setData (p : Payload) (val : Bytes)
  deriving DecidableEq, Repr

/-- Operations of ChannelEvent (45_variants_event_response.md R240). -/
inductive ChannelEventOp where
  | build (channel : Int) (messageId : Int) (messageCode : Int)
  | view (p : Payload)
  | getChannel (p : Payload)
  | getMessageId (p : Payload)
  | getMessageCode (p : Payload)
  | setChannel (p : Payload) (val : Int)
  | setMessageId (p : Payload) (val : Int)
  | setMessageCode (p : Payload) (val : Int)
  deriving DecidableEq, Repr

/-- Operations of ChannelStatus (45_variants_event_response.md R241). -/
inductive ChannelStatusOp where
  | build (channel : Int) (status : Int)
  | view (p : Payload)
  | getChannel (p : Payload)
  | getStatus (p : Payload)
  | setChannel (p : Payload) (val : Int)
  | setStatus (p : Payload) (val : Int)
  deriving DecidableEq, Repr

/-- Operations of Version (45_variants_event_response.md R242). -/
inductive VersionOp where
  | build (version : Bytes)
  | view (p : Payload)
  | getVersion (p : Payload)
  | setVersion (p : Payload) (val : Bytes)
  deriving DecidableEq, Repr

/-- Operations of Startup (45_variants_event_response.md R243). -/
inductive StartupOp where
  | build (startupReason : Int)
  | view (p : Payload)
  | getStartupReason (p : Payload)
  | setStartupReason (p : Payload) (val : Int)
  deriving DecidableEq, Repr

/-- Operations of Capabilities (45_variants_event_response.md R245). -/
inductive CapabilitiesOp where
  /-- BUILD; the optional byte is appended only when given. -/
  | build (maxChannels : Int) (maxNetworks : Int) (stdOptions : Int) (advOptions : Int) (advOptions2 : Option Int)
  | view (p : Payload)
  | getMaxChannels (p : Payload)
  | getMaxNetworks (p : Payload)
  | getStdOptions (p : Payload)
  | getAdvOptions (p : Payload)
  | getAdvOptions2 (p : Payload)
  | setMaxChannels (p : Payload) (val : Int)
  | setMaxNetworks (p : Payload) (val : Int)
  | setStdOptions (p : Payload) (val : Int)
  | setAdvOptions (p : Payload) (val : Int)
  | setAdvOptions2 (p : Payload) (val : Int)
  deriving DecidableEq, Repr

/-- Operations of SerialNumber (45_variants_event_response.md R246). -/
inductive SerialNumberOp where
  | build (serial : Bytes)
  | view (p : Payload)
  | getSerial (p : Payload)
  | setSerial (p : Payload) (val : Bytes)
  deriving DecidableEq, Repr

end Sys2Proof
end

