-- ==== Sys2Proof/Syntax.lean ====
section
/-! DEFINITION. The instructions: one constructor per row of opcode_table.json. The arguments are the operand ports
of 10_state.md R31 that the operation uses. -/

namespace Sys2Proof

/-- An operation with its operands: one transaction (10_state.md R30, 00_scope.md R22). -/
inductive Instr where
  /-- ENCODE: ports TYPE and TXPAY (40_codec_ops.md R131). -/
  | encode (t : Int) (p : Payload)
  /-- DECODE: port RXBUF, with RXAVAIL its length (R136). -/
  | decode (buf : Bytes)
  /-- RESOLVE: port RXBUF (41_dispatch.md R164). -/
  | resolve (buf : Bytes)
  /-- CKSUM of a byte sequence (40_codec_ops.md R130). -/
  | cksum (b : Bytes)
  /-- LOOKUP: port TYPE, a type code 0..255 (41_dispatch.md R160). -/
  | lookup (t : Byte)
  /-- CHBUILD: ports TYPE, CHAN and EXTRA (42_channel_layer.md R181). -/
  | chbuild (t chan : Int) (extra : Bytes)
  /-- CHVIEW: port PAY (R182). -/
  | chview (p : Payload)
  /-- CHSET: ports PAY and CHAN (R183). -/
  | chset (p : Payload) (chan : Int)
  /-- The row ChannelUnassign (43_variants_config.md R200). -/
  | channelUnassign (op : ChannelUnassignOp)
  /-- The row ChannelAssign (43_variants_config.md R201). -/
  | channelAssign (op : ChannelAssignOp)
  /-- The row ChannelID (43_variants_config.md R202). -/
  | channelID (op : ChannelIDOp)
  /-- The row ChannelPeriod (43_variants_config.md R203). -/
  | channelPeriod (op : ChannelPeriodOp)
  /-- The row ChannelSearchTimeout (43_variants_config.md R204). -/
  | channelSearchTimeout (op : ChannelSearchTimeoutOp)
  /-- The row ChannelFrequency (43_variants_config.md R205). -/
  | channelFrequency (op : ChannelFrequencyOp)
  /-- The row ChannelTXPower (43_variants_config.md R206). -/
  | channelTXPower (op : ChannelTXPowerOp)
  /-- The row NetworkKey (43_variants_config.md R207). -/
  | networkKey (op : NetworkKeyOp)
  /-- The row TXPower (43_variants_config.md R208). -/
  | txPower (op : TXPowerOp)
  /-- The row SystemReset (44_variants_control_data.md R220). -/
  | systemReset (op : SystemResetOp)
  /-- The row ChannelOpen (44_variants_control_data.md R221). -/
  | channelOpen (op : ChannelOpenOp)
  /-- The row ChannelClose (44_variants_control_data.md R222). -/
  | channelClose (op : ChannelCloseOp)
  /-- The row ChannelRequest (44_variants_control_data.md R223). -/
  | channelRequest (op : ChannelRequestOp)
  /-- The row BroadcastData (44_variants_control_data.md R224). -/
  | broadcastData (op : BroadcastDataOp)
  /-- The row AcknowledgedData (44_variants_control_data.md R225). -/
  | acknowledgedData (op : AcknowledgedDataOp)
  /-- The row BurstData (44_variants_control_data.md R226). -/
  | burstData (op : BurstDataOp)
  /-- The row ChannelEvent (45_variants_event_response.md R240). -/
  | channelEvent (op : ChannelEventOp)
  /-- The row ChannelStatus (45_variants_event_response.md R241). -/
  | channelStatus (op : ChannelStatusOp)
  /-- The row Version (45_variants_event_response.md R242). -/
  | version (op : VersionOp)
  /-- The row Startup (45_variants_event_response.md R243). -/
  | startup (op : StartupOp)
  /-- The row Capabilities (45_variants_event_response.md R245). -/
  | capabilities (op : CapabilitiesOp)
  /-- The row SerialNumber (45_variants_event_response.md R246). -/
  | serialNumber (op : SerialNumberOp)
  deriving DecidableEq, Repr

end Sys2Proof
end

