-- ==== Sys2Proof/Syntax/Request.lean ====
section
/-! DEFINITION. The operations of the block, and how the host presents a transaction to it (log entries 3 and 8). -/

namespace Sys2Proof

/-- An operation with its operands: an instruction of the opcode table, or an operation of a variant that only a
configuration can add, which has no row there (41_dispatch.md R163; log entry 10). -/
inductive Operation where
  | instr (i : Instr)
  | added (k : Fin 10) (op : FieldOp)
  deriving DecidableEq, Repr

/-- The operand ports that stand beside the OP port (10_state.md R31): TYPE, TXPAY and RXBUF. An operation reads
those that are its own. -/
structure PublicPorts where
  type : Int := 0
  txpay : Payload := []
  rxbuf : Bytes := []
  deriving DecidableEq, Repr

/-- A presented transaction. -/
inductive Request where
  /-- One of the public operations, named by the 2-bit OP port (30_encoding.md R116). -/
  | select (op : BitVec 2) (ports : PublicPorts)
  /-- The bytes of a frame: a variant named by its encoding (R119), or bytes that are no encoding (R109). -/
  | word (bytes : Bytes)
  /-- An operation that has no selector and no bit pattern of its own (R116, R119), named directly. -/
  | call (o : Operation)
  deriving DecidableEq, Repr

end Sys2Proof
end

