-- ==== Sys2Proof/WellFormed.lean ====
section
/-! DEFINITION. An instruction is well formed when every operand fits the port that carries it
(10_state.md R31). An ill-formed one cannot be presented to the hardware; the model still gives it the outcome the
rules state for an operand out of range (log entry 4). -/

namespace Sys2Proof
open Machine

/-- Fits an 8-bit port: 0..255. -/
def byteFits (v : Int) : Bool := decide (0 ≤ v) && decide (v ≤ 255)

/-- Fits a 16-bit port: 0..65535. -/
def halfFits (v : Int) : Bool := decide (0 ≤ v) && decide (v ≤ 65535)

/-- An optional byte operand: absent, or fitting. -/
def optByteFits : Option Int → Bool
  | none => true
  | some v => byteFits v

/-- Fits the port PAY: PLEN is 0..9. -/
def payFits (p : Payload) : Bool := decide (p.length ≤ 9)

/-- Fits TXPAY or EXTRA: a length 0..TX_MAX, TX_MAX being 15 (00_scope.md R16). -/
def txFits (p : Bytes) : Bool := decide (p.length ≤ 15)

/-- A byte-string operand of exactly `k` bytes (30_encoding.md R98). -/
def strFits (k : Nat) (s : Bytes) : Bool := decide (s.length = k)

/-- Operands of ChannelUnassign fit their ports. -/
def ChannelUnassignOp.wf : ChannelUnassignOp → Bool
  | .build a => byteFits a
  | .view p => payFits p
  | .getChannel p => payFits p
  | .setChannel p v => payFits p && byteFits v

/-- Operands of ChannelAssign fit their ports. -/
def ChannelAssignOp.wf : ChannelAssignOp → Bool
  | .build a b c => byteFits a && byteFits b && byteFits c
  | .view p => payFits p
  | .getChannel p => payFits p
  | .getChannelType p => payFits p
  | .getNetworkNumber p => payFits p
  | .setChannel p v => payFits p && byteFits v
  | .setChannelType p v => payFits p && byteFits v
  | .setNetworkNumber p v => payFits p && byteFits v

/-- Operands of ChannelID fit their ports. -/
def ChannelIDOp.wf : ChannelIDOp → Bool
  | .build a b c d => byteFits a && halfFits b && byteFits c && byteFits d
  | .view p => payFits p
  | .getChannel p => payFits p
  | .getDeviceNumber p => payFits p
  | .getDeviceType p => payFits p
  | .getTransmissionType p => payFits p
  | .setChannel p v => payFits p && byteFits v
  | .setDeviceNumber p v => payFits p && halfFits v
  | .setDeviceType p v => payFits p && byteFits v
  | .setTransmissionType p v => payFits p && byteFits v

/-- Operands of ChannelPeriod fit their ports. -/
def ChannelPeriodOp.wf : ChannelPeriodOp → Bool
  | .build a b => byteFits a && halfFits b
  | .view p => payFits p
  | .getChannel p => payFits p
  | .getPeriod p => payFits p
  | .setChannel p v => payFits p && byteFits v
  | .setPeriod p v => payFits p && halfFits v

/-- Operands of ChannelSearchTimeout fit their ports. -/
def ChannelSearchTimeoutOp.wf : ChannelSearchTimeoutOp → Bool
  | .build a b => byteFits a && byteFits b
  | .view p => payFits p
  | .getChannel p => payFits p
  | .getTimeout p => payFits p
  | .setChannel p v => payFits p && byteFits v
  | .setTimeout p v => payFits p && byteFits v

/-- Operands of ChannelFrequency fit their ports. -/
def ChannelFrequencyOp.wf : ChannelFrequencyOp → Bool
  | .build a b => byteFits a && byteFits b
  | .view p => payFits p
  | .getChannel p => payFits p
  | .getFrequency p => payFits p
  | .setChannel p v => payFits p && byteFits v
  | .setFrequency p v => payFits p && byteFits v

/-- Operands of ChannelTXPower fit their ports. -/
def ChannelTXPowerOp.wf : ChannelTXPowerOp → Bool
  | .build a b => byteFits a && byteFits b
  | .view p => payFits p
  | .getChannel p => payFits p
  | .getPower p => payFits p
  | .setChannel p v => payFits p && byteFits v
  | .setPower p v => payFits p && byteFits v

/-- Operands of NetworkKey fit their ports. -/
def NetworkKeyOp.wf : NetworkKeyOp → Bool
  | .build a b => byteFits a && strFits 8 b
  | .view p => payFits p
  | .getNetworkNumber p => payFits p
  | .getKey p => payFits p
  | .setNetworkNumber p v => payFits p && byteFits v
  | .setKey p v => payFits p && strFits 8 v

/-- Operands of TXPower fit their ports. -/
def TXPowerOp.wf : TXPowerOp → Bool
  | .build a b => byteFits a && byteFits b
  | .view p => payFits p
  | .getB0 p => payFits p
  | .getPower p => payFits p
  | .setB0 p v => payFits p && byteFits v
  | .setPower p v => payFits p && byteFits v

/-- Operands of SystemReset fit their ports. -/
def SystemResetOp.wf : SystemResetOp → Bool
  | .build fill => optByteFits fill
  | .view p => payFits p
  | .getReserved p => payFits p

/-- Operands of ChannelOpen fit their ports. -/
def ChannelOpenOp.wf : ChannelOpenOp → Bool
  | .build a => byteFits a
  | .view p => payFits p
  | .getChannel p => payFits p
  | .setChannel p v => payFits p && byteFits v

/-- Operands of ChannelClose fit their ports. -/
def ChannelCloseOp.wf : ChannelCloseOp → Bool
  | .build a => byteFits a
  | .view p => payFits p
  | .getChannel p => payFits p
  | .setChannel p v => payFits p && byteFits v

/-- Operands of ChannelRequest fit their ports. -/
def ChannelRequestOp.wf : ChannelRequestOp → Bool
  | .build a b => byteFits a && byteFits b
  | .view p => payFits p
  | .getChannel p => payFits p
  | .getRequestedMessageId p => payFits p
  | .setChannel p v => payFits p && byteFits v
  | .setRequestedMessageId p v => payFits p && byteFits v

/-- Operands of BroadcastData fit their ports. -/
def BroadcastDataOp.wf : BroadcastDataOp → Bool
  | .build a b => byteFits a && strFits 7 b
  | .view p => payFits p
  | .getChannel p => payFits p
  | .getData p => payFits p
  | .setChannel p v => payFits p && byteFits v
  | .setData p v => payFits p && strFits 7 v

/-- Operands of AcknowledgedData fit their ports. -/
def AcknowledgedDataOp.wf : AcknowledgedDataOp → Bool
  | .build a b => byteFits a && strFits 7 b
  | .view p => payFits p
  | .getChannel p => payFits p
  | .getData p => payFits p
  | .setChannel p v => payFits p && byteFits v
  | .setData p v => payFits p && strFits 7 v

/-- Operands of BurstData fit their ports. -/
def BurstDataOp.wf : BurstDataOp → Bool
  | .build a b => byteFits a && strFits 7 b
  | .view p => payFits p
  | .getChannel p => payFits p
  | .getData p => payFits p
  | .setChannel p v => payFits p && byteFits v
  | .setData p v => payFits p && strFits 7 v

/-- Operands of ChannelEvent fit their ports. -/
def ChannelEventOp.wf : ChannelEventOp → Bool
  | .build a b c => byteFits a && byteFits b && byteFits c
  | .view p => payFits p
  | .getChannel p => payFits p
  | .getMessageId p => payFits p
  | .getMessageCode p => payFits p
  | .setChannel p v => payFits p && byteFits v
  | .setMessageId p v => payFits p && byteFits v
  | .setMessageCode p v => payFits p && byteFits v

/-- Operands of ChannelStatus fit their ports. -/
def ChannelStatusOp.wf : ChannelStatusOp → Bool
  | .build a b => byteFits a && byteFits b
  | .view p => payFits p
  | .getChannel p => payFits p
  | .getStatus p => payFits p
  | .setChannel p v => payFits p && byteFits v
  | .setStatus p v => payFits p && byteFits v

/-- Operands of Version fit their ports. -/
def VersionOp.wf : VersionOp → Bool
  | .build a => strFits 9 a
  | .view p => payFits p
  | .getVersion p => payFits p
  | .setVersion p v => payFits p && strFits 9 v

/-- Operands of Startup fit their ports. -/
def StartupOp.wf : StartupOp → Bool
  | .build a => byteFits a
  | .view p => payFits p
  | .getStartupReason p => payFits p
  | .setStartupReason p v => payFits p && byteFits v

/-- Operands of Capabilities fit their ports. -/
def CapabilitiesOp.wf : CapabilitiesOp → Bool
  | .build a b c d e => byteFits a && byteFits b && byteFits c && byteFits d && optByteFits e
  | .view p => payFits p
  | .getMaxChannels p => payFits p
  | .getMaxNetworks p => payFits p
  | .getStdOptions p => payFits p
  | .getAdvOptions p => payFits p
  | .getAdvOptions2 p => payFits p
  | .setMaxChannels p v => payFits p && byteFits v
  | .setMaxNetworks p v => payFits p && byteFits v
  | .setStdOptions p v => payFits p && byteFits v
  | .setAdvOptions p v => payFits p && byteFits v
  | .setAdvOptions2 p v => payFits p && byteFits v

/-- Operands of SerialNumber fit their ports. -/
def SerialNumberOp.wf : SerialNumberOp → Bool
  | .build a => strFits 4 a
  | .view p => payFits p
  | .getSerial p => payFits p
  | .setSerial p v => payFits p && strFits 4 v

/-- Every operand fits its port. RXBUF is of any length (RX_MAX is open, 92_eei_decisions.md D8). -/
def Instr.wf : Instr → Bool
  | .encode t p => byteFits t && txFits p
  | .decode _ => true
  | .resolve _ => true
  | .cksum _ => true
  | .lookup _ => true
  | .chbuild t chan extra => byteFits t && byteFits chan && txFits extra
  | .chview p => payFits p
  | .chset p chan => payFits p && byteFits chan
  | .channelUnassign op => op.wf
  | .channelAssign op => op.wf
  | .channelID op => op.wf
  | .channelPeriod op => op.wf
  | .channelSearchTimeout op => op.wf
  | .channelFrequency op => op.wf
  | .channelTXPower op => op.wf
  | .networkKey op => op.wf
  | .txPower op => op.wf
  | .systemReset op => op.wf
  | .channelOpen op => op.wf
  | .channelClose op => op.wf
  | .channelRequest op => op.wf
  | .broadcastData op => op.wf
  | .acknowledgedData op => op.wf
  | .burstData op => op.wf
  | .channelEvent op => op.wf
  | .channelStatus op => op.wf
  | .version op => op.wf
  | .startup op => op.wf
  | .capabilities op => op.wf
  | .serialNumber op => op.wf

/-- An operation over the fields of a row has all it needs: BUILD one value per field, GET and SET a field of the row. -/
def FieldOp.complete (fields : List FieldSpec) : FieldOp → Bool
  | .build xs => decide (xs.length = fields.length)
  | .view _ => true
  | .get n _ => fields.any (fun d => d.name == n)
  | .set n _ _ => fields.any (fun d => d.name == n)

/-- The operands of an operation over the fields of a row fit: a payload its port, a value its field. -/
def FieldOp.fits (fields : List FieldSpec) : FieldOp → Bool
  | .build xs => (fields.zip xs).all fun z => inRange z.1.kind z.2
  | .view p => payFits p
  | .get _ p => payFits p
  | .set n p x => payFits p && fields.all fun d => d.name != n || inRange d.kind x

/-- An operation of an added variant is complete by the layout the configuration supplies; an instruction always is. -/
def Operation.complete (c : Config) : Operation → Bool
  | .instr _ => true
  | .added k op =>
    match rowOf c (.added k) with
    | none => false
    | some r => op.complete r.fields

/-- An operation is well formed: an instruction by its own ports, an operation of an added variant by the layout the
configuration supplies. -/
def Operation.wf (c : Config) : Operation → Bool
  | .instr i => i.wf
  | .added k op =>
    match rowOf c (.added k) with
    | none => false
    | some r => op.complete r.fields && op.fits r.fields

end Sys2Proof
end

