-- ==== Sys2Proof/Decode.lean ====
section
/-! DEFINITION. From a presented transaction to the operation, and back. The selector is 30_encoding.md R116. A variant's
word is a frame, read as R91 and R119 number it: SYNC and TYPE select the variant through the registry, LENGTH must be
legal (R109) and is not compared with the row's own (R112), and the fields stand at their payload offsets; the frame's
fields are the operands of that variant's BUILD. Bytes that are no variant's word are performed as RESOLVE of them, the
operation by which R109 gives illegal encodings their outcomes (log entry 8). -/

namespace Sys2Proof
open Machine

/-- Why bytes are no variant's word. -/
inductive WordError where
  /-- Too few bytes for the header or for the fields. -/
  | truncated
  /-- Byte 0 is not SYNC (R109). -/
  | syncMismatch
  /-- LENGTH in 10..255 (R109). -/
  | illegalLength (n : Byte)
  /-- The type code has no registry entry (R109). -/
  | unknownCode (t : Byte)
  /-- The registry names a variant for which the configuration supplies no layout, against 41_dispatch.md R163. -/
  | noLayout (v : Variant)
  deriving DecidableEq, Repr

/-- Why a presented transaction is no operation. -/
inductive DecodeError where
  /-- OP = 3, "no operation defined" (R116). -/
  | undefinedSelector
  deriving DecidableEq, Repr

/-- `[SYNC][LENGTH][TYPE][PAYLOAD][CHECKSUM]` (R90, R94). -/
def frameOf (sync t : Byte) (p : Payload) : Bytes :=
  let body := sync :: BitVec.ofNat 8 p.length :: t :: p
  body ++ [xor8 body]

/-- The public operation an OP value names (R116). -/
def decodeSelector (op : BitVec 2) (ports : PublicPorts) : Except DecodeError Instr :=
  match op.toNat with
  | 0 => .ok (.encode ports.type ports.txpay)
  | 1 => .ok (.decode ports.rxbuf)
  | 2 => .ok (.resolve ports.rxbuf)
  | _ => .error .undefinedSelector

/-- The operand fields of a row, read from the bytes after the header (R119: payload byte i at frame offset 3 + i).
LENGTH decides only whether the optional byte of Capabilities is there (R113). -/
def decodeFields (v : Variant) (len : Byte) (q : Bytes) : Option Instr :=
  match v, q with
  | .channelUnassign, a :: _ => some (.channelUnassign (.build (numOf a)))
  | .channelAssign, a :: b :: c :: _ => some (.channelAssign (.build (numOf a) (numOf b) (numOf c)))
  | .channelID, a :: lo :: hi :: b :: c :: _ => some (.channelID (.build (numOf a) (le16 lo hi) (numOf b) (numOf c)))
  | .channelPeriod, a :: lo :: hi :: _ => some (.channelPeriod (.build (numOf a) (le16 lo hi)))
  | .channelSearchTimeout, a :: b :: _ => some (.channelSearchTimeout (.build (numOf a) (numOf b)))
  | .channelFrequency, a :: b :: _ => some (.channelFrequency (.build (numOf a) (numOf b)))
  | .channelTXPower, a :: b :: _ => some (.channelTXPower (.build (numOf a) (numOf b)))
  | .networkKey, a :: q' => if 8 ≤ q'.length then some (.networkKey (.build (numOf a) (q'.take 8))) else none
  | .txPower, a :: b :: _ => some (.txPower (.build (numOf a) (numOf b)))
  | .systemReset, a :: _ => some (.systemReset (.build (some (numOf a))))
  | .channelOpen, a :: _ => some (.channelOpen (.build (numOf a)))
  | .channelClose, a :: _ => some (.channelClose (.build (numOf a)))
  | .channelRequest, a :: b :: _ => some (.channelRequest (.build (numOf a) (numOf b)))
  | .broadcastData, a :: q' => if 7 ≤ q'.length then some (.broadcastData (.build (numOf a) (q'.take 7))) else none
  | .acknowledgedData, a :: q' => if 7 ≤ q'.length then some (.acknowledgedData (.build (numOf a) (q'.take 7))) else none
  | .burstData, a :: q' => if 7 ≤ q'.length then some (.burstData (.build (numOf a) (q'.take 7))) else none
  | .channelEvent, a :: b :: c :: _ => some (.channelEvent (.build (numOf a) (numOf b) (numOf c)))
  | .channelStatus, a :: b :: _ => some (.channelStatus (.build (numOf a) (numOf b)))
  | .version, q' => if 9 ≤ q'.length then some (.version (.build (q'.take 9))) else none
  | .startup, a :: _ => some (.startup (.build (numOf a)))
  | .capabilities, a :: b :: c :: d :: q' =>
    if len = 5#8 then
      match q' with
      | e :: _ => some (.capabilities (.build (numOf a) (numOf b) (numOf c) (numOf d) (some (numOf e))))
      | [] => none
    else some (.capabilities (.build (numOf a) (numOf b) (numOf c) (numOf d) none))
  | .serialNumber, q' => if 4 ≤ q'.length then some (.serialNumber (.build (q'.take 4))) else none
  | _, _ => none

/-- The values of a configured layout, read from the bytes after the header, one field after the other. -/
def takeFields : List FieldSpec → Bytes → Option (List FieldVal)
  | [], _ => some []
  | d :: ds, q =>
    if q.length < kindWidth d.kind then none
    else (takeFields ds (q.drop (kindWidth d.kind))).map (fieldOf d.kind (q.take (kindWidth d.kind)) :: ·)

/-- BUILD of a variant, with its operands read from the bytes after the header: for a variant of the catalogue by its
row of the opcode table, for an added one by the layout the configuration supplies (41_dispatch.md R163). -/
def decodeBuild (c : Config) (v : Variant) (len : Byte) (q : Bytes) : Except WordError Operation :=
  match v with
  | .added k =>
    match rowOf c (.added k) with
    | none => .error (.noLayout (.added k))
    | some r =>
      match takeFields r.fields q with
      | none => .error .truncated
      | some xs => .ok (.added k (.build xs))
  | v =>
    match decodeFields v len q with
    | none => .error .truncated
    | some i => .ok (.instr i)

/-- A frame read as a variant's word: `match` and `mask` cover SYNC and TYPE (R119). -/
def decodeWord (c : Config) (bytes : Bytes) : Except WordError Operation :=
  match bytes with
  | sync :: len :: t :: q =>
    if sync ≠ c.sync then .error .syncMismatch
    else if len.toNat > c.maxPayload.toNat then .error (.illegalLength len)
    else
      match registryEntry c t with
      | none => .error (.unknownCode t)
      | some id => decodeBuild c (variantOfId id) len q
  | _ => .error .truncated

/-- The operation that presented bytes stand for: the BUILD whose word they are, and RESOLVE of them where they are no
word, so that an illegal encoding gets the outcome of R109, in the order of 60_exceptions.md R267. -/
def decodeBytes (c : Config) (bytes : Bytes) : Operation :=
  match decodeWord c bytes with
  | .ok o => o
  | .error _ => .instr (.resolve bytes)

/-- The operation a presented transaction stands for. -/
def decode (c : Config) : Request → Except DecodeError Operation
  | .select op ports => (decodeSelector op ports).map .instr
  | .word bytes => .ok (decodeBytes c bytes)
  | .call o => .ok o

/-! The encoder. -/

/-- The variant and payload of the frame that encodes an instruction, where a frame does: the BUILD of a variant,
its fields at their offsets (R95, R106). -/
def wordPayload : Instr → Option (Variant × Payload)
  | .encode _ _ => none
  | .decode _ => none
  | .resolve _ => none
  | .cksum _ => none
  | .lookup _ => none
  | .chbuild _ _ _ => none
  | .chview _ => none
  | .chset _ _ => none
  | .channelUnassign (.build a) => some (.channelUnassign, [lo8 a])
  | .channelUnassign _ => none
  | .channelAssign (.build a b c) => some (.channelAssign, [lo8 a, lo8 b, lo8 c])
  | .channelAssign _ => none
  | .channelID (.build a b c d) => some (.channelID, [lo8 a, lo8 b, hi8 b, lo8 c, lo8 d])
  | .channelID _ => none
  | .channelPeriod (.build a b) => some (.channelPeriod, [lo8 a, lo8 b, hi8 b])
  | .channelPeriod _ => none
  | .channelSearchTimeout (.build a b) => some (.channelSearchTimeout, [lo8 a, lo8 b])
  | .channelSearchTimeout _ => none
  | .channelFrequency (.build a b) => some (.channelFrequency, [lo8 a, lo8 b])
  | .channelFrequency _ => none
  | .channelTXPower (.build a b) => some (.channelTXPower, [lo8 a, lo8 b])
  | .channelTXPower _ => none
  | .networkKey (.build a b) => some (.networkKey, lo8 a :: b)
  | .networkKey _ => none
  | .txPower (.build a b) => some (.txPower, [lo8 a, lo8 b])
  | .txPower _ => none
  | .systemReset (.build (some a)) => some (.systemReset, [lo8 a])
  | .systemReset _ => none
  | .channelOpen (.build a) => some (.channelOpen, [lo8 a])
  | .channelOpen _ => none
  | .channelClose (.build a) => some (.channelClose, [lo8 a])
  | .channelClose _ => none
  | .channelRequest (.build a b) => some (.channelRequest, [lo8 a, lo8 b])
  | .channelRequest _ => none
  | .broadcastData (.build a b) => some (.broadcastData, lo8 a :: b)
  | .broadcastData _ => none
  | .acknowledgedData (.build a b) => some (.acknowledgedData, lo8 a :: b)
  | .acknowledgedData _ => none
  | .burstData (.build a b) => some (.burstData, lo8 a :: b)
  | .burstData _ => none
  | .channelEvent (.build a b c) => some (.channelEvent, [lo8 a, lo8 b, lo8 c])
  | .channelEvent _ => none
  | .channelStatus (.build a b) => some (.channelStatus, [lo8 a, lo8 b])
  | .channelStatus _ => none
  | .version (.build a) => some (.version, a)
  | .version _ => none
  | .startup (.build a) => some (.startup, [lo8 a])
  | .startup _ => none
  | .capabilities (.build a b c d none) => some (.capabilities, [lo8 a, lo8 b, lo8 c, lo8 d])
  | .capabilities (.build a b c d (some e)) => some (.capabilities, [lo8 a, lo8 b, lo8 c, lo8 d, lo8 e])
  | .capabilities _ => none
  | .serialNumber (.build a) => some (.serialNumber, a)
  | .serialNumber _ => none

/-- The request that presents an operation by its frame, where its variant has a type code and the frame is its BUILD;
directly otherwise. -/
def encodeBuild (c : Config) (o : Operation) : Option (Variant × Payload) → Request
  | none => .call o
  | some (v, p) =>
    match codeOf c v with
    | none => .call o
    | some t => .word (frameOf c.sync t p)

/-- How an instruction is presented: by selector, by the frame that encodes it, or directly where the opcode table
gives it no bits (R116, R119) or the registry gives its variant no type code. -/
def encode (c : Config) : Instr → Request
  | .encode t p => .select 0#2 { type := t, txpay := p }
  | .decode buf => .select 1#2 { rxbuf := buf }
  | .resolve buf => .select 2#2 { rxbuf := buf }
  | i => encodeBuild c (.instr i) (wordPayload i)

/-- The payload of the frame that encodes an operation of an added variant: a BUILD, its fields one after the other. -/
def addedPayload (c : Config) (k : Fin 10) : FieldOp → Option (Variant × Payload)
  | .build xs => (rowOf c (.added k)).map fun r => (.added k, (r.fields.zip xs).flatMap fun z => fieldBytes z.1.kind z.2)
  | .view _ => none
  | .get _ _ => none
  | .set _ _ _ => none

/-- How any operation is presented. -/
def encodeOperation (c : Config) : Operation → Request
  | .instr i => encode c i
  | .added k op => encodeBuild c (.added k op) (addedPayload c k op)

/-! The opcode table's numbering of bits. -/

/-- The first `n` bytes of a number, byte k being bits 8k+7 down to 8k (R119). -/
def bytesOf (w : Nat) : Nat → Bytes
  | 0 => []
  | n + 1 => BitVec.ofNat 8 (w % 256) :: bytesOf (w / 256) n

/-- The transaction a word of the opcode table presents: up to one byte, the OP port (its low 2 bits) with operand
ports of zero and empty sequences; more, the bytes of a frame, continued by zeros to 13 bytes, the longest frame
(MAX_FRAME, 00_scope.md R11). No bits, no transaction. -/
def tableRequest (nbits w : Nat) : Option Request :=
  if nbits = 0 then none
  else if nbits ≤ 8 then some (.select (BitVec.ofNat 2 w) {})
  else some (.word (bytesOf (w % 2 ^ nbits) 13))

/-- The instruction of a word of the opcode table, under the configuration at reset. -/
def decodeTableWord (nbits w : Nat) : Option Instr :=
  match tableRequest nbits w with
  | some (.select op ports) =>
    match decodeSelector op ports with
    | .ok i => some i
    | .error _ => none
  | some (.word bytes) =>
    match decodeWord defaultConfig bytes with
    | .ok (.instr i) => some i
    | .ok (.added _ _) => none
    | .error _ => none
  | some (.call _) => none
  | none => none

end Sys2Proof
end

