-- ==== Sys2Proof/Machine/State.lean ====
section
/-! DEFINITION. The state of the block, the reasons a step can stop, and the state at reset. -/

namespace Sys2Proof.Machine

/-- INFO: what an error outcome is about (60_exceptions.md R262). -/
inductive Info where
  /-- INCOMPLETE, sub-cause HEADER. -/
  | header
  /-- INCOMPLETE, sub-cause BODY: the number of bytes the frame needs. -/
  | body (need : Nat)
  /-- CORRUPTED, sub-cause SYNC_MISMATCH. -/
  | syncMismatch
  /-- CORRUPTED, sub-cause CHECKSUM_MISMATCH. -/
  | checksumMismatch
  /-- MALFORMED, sub-cause LEN_RANGE: the offending length. -/
  | lenRange (n : Nat)
  /-- MALFORMED, sub-cause TYPE_RANGE. -/
  | typeRange
  /-- MALFORMED, sub-cause FIELD_RANGE: the field's name. -/
  | fieldRange (f : Field)
  /-- UNKNOWN_TYPE: the type code. -/
  | unknownType (t : Byte)
  deriving DecidableEq, Repr

/-- The result ports of the last transaction (10_state.md R32; log entry 11). `none` is the spec's "holds no value". Lengths are
naturals; that they keep to the widths of R32 is stated as an invariant. The last two are the returns of CKSUM and
CHBUILD for which R32 names no port (log entry 6). -/
structure Results where
  status : Option Status := none
  info : Option Info := none
  frame : Option Bytes := none
  frameLen : Option Nat := none
  rtype : Option Byte := none
  rpay : Option Payload := none
  rlen : Option Nat := none
  consumed : Option Nat := none
  variant : Option (BitVec 5) := none
  fields : Option (List (Field × FieldVal)) := none
  payout : Option Payload := none
  cksum : Option Byte := none
  msgType : Option Int := none
  deriving DecidableEq, Repr

/-- The machine: its configuration, which is all the state the block has (R41; log entry 12), the transactions the host has issued
and the block has not performed, oldest first (20_memory.md R73 item 2; log entry 3), and the result ports. -/
structure State where
  cfg : Config
  requests : List Request
  res : Results
  deriving DecidableEq, Repr

/-- The result ports, by name (R32). -/
inductive ResultPort where
  | status
  | info
  | frame
  | frameLen
  | rtype
  | rpay
  | rlen
  | consumed
  | variant
  | fields
  | payout
  | cksum
  | msgType
  deriving DecidableEq, Repr

/-- Faults of the model, which the spec itself calls so (60_exceptions.md R284); each errs toward unprovable. -/
inductive Fault where
  /-- FIELD_ABSENT(f): raised by VIEW, GET, SET, CHVIEW and CHSET on a payload that does not reach the field (R265).
  Safe: "never a value". -/
  | fieldAbsent (f : Field)
  /-- MemRead outside its buffer (00_scope.md R20): raised by the shared reads; unreachable under a legal
  configuration. Safe. -/
  | memReadOutside
  /-- MemWrite outside its buffer (R20): raised by the shared write; unreachable under a legal configuration. Safe. -/
  | memWriteOutside
  /-- Reading a result port that holds no value (10_state.md R32, R42): raised by the host's reads in the
  pseudo-operations of 30_encoding.md R117. Safe. -/
  | noPortValue (port : ResultPort)
  /-- The configuration supplies no layout for the variant, or none for the field named (41_dispatch.md R163 says it
  must): raised by BUILD, VIEW, GET and SET; for an instruction unreachable under a legal configuration. Safe. -/
  | noLayout (v : Variant)
  /-- A BUILD reads an operand port that holds no value (10_state.md R42): raised by BUILD of a variant that a
  configuration adds, presented with too few values; unreachable for an instruction. Safe. -/
  | noOperand (f : Field)
  deriving DecidableEq, Repr

/-- Refusals: what is presented is no operation of the block. -/
inductive Refusal where
  /-- An instruction without a meaning yet: raised by exec's arm. Safe. -/
  | notModelled (mnemonic : String)
  /-- OP = 3: "a model refuses it" (30_encoding.md R116): raised by the step. Safe. -/
  | undefinedSelector
  /-- The registry has no type code for the variant: raised by the pseudo-operation ENCODE.<Variant> of R117, whose
  expansion needs one. Safe. -/
  | noTypeCode (v : Variant)
  deriving DecidableEq, Repr

/-- After reset the constants hold their values, the registry its configured contents, and no operand or result port
holds a value (10_state.md R42, 70_reset_and_hazards.md R290). The contents are a parameter, fixed at this moment
(41_dispatch.md R163, R291). -/
def State.resetWith (c : Config) : State where
  cfg := c
  requests := []
  res := {}

/-- Reset with the default configuration (10_state.md R36). -/
def State.reset : State := State.resetWith defaultConfig

end Sys2Proof.Machine
end

