-- ==== Sys2Proof/Machine/Ops.lean ====
section
/-! DEFINITION. The operations every meaning is made of: how an operation ends, bounded reads and writes of byte
sequences, access to a field of a payload, and taking the next transaction. -/

namespace Sys2Proof.Machine

/-- How an operation ends without its results: `raise E(info)` of 00_scope.md R20, or a fault of the model. -/
inductive Stop where
  | raise (c : Status) (i : Info)
  | fault (f : Fault)
  deriving DecidableEq, Repr

/-- An error outcome: STATUS and INFO are written, no other result port, nothing else changes
(60_exceptions.md R268). The block saves nothing, so there is no return from it (R271). -/
def raiseError (s : State) (c : Status) (i : Info) : State :=
  { s with res := { status := some c, info := some i } }

/-- The end of a transaction: the block presents its one outcome (10_state.md R30) in STATUS, which "every transaction"
writes (R32, R35). An operation that wrote STATUS has written the outcome there. One that wrote none, which is CKSUM alone
(40_codec_ops.md R130), has not failed, and its outcome is OK (60_exceptions.md R263; log entry 5). -/
def showOutcome (s : State) : State :=
  match s.res.status with
  | some _ => s
  | none => { s with res := { s.res with status := some .ok } }

/-- The end of a transaction whose operation ended so. A fault or a refusal presents no outcome. -/
def conclude : Host.Outcome State Fault Refusal → Host.Outcome State Fault Refusal
  | .next s => .next (showOutcome s)
  | .fault f => .fault f
  | .refused r => .refused r

/-- Success: the result ports the operation names hold their values and no other port holds one (10_state.md R32). -/
def deliver (s : State) (r : Results) : State := { s with res := r }

/-- The outcome of a transaction. Error classes are values, not faults (R284). -/
def finish (s : State) : Except Stop Results → Host.Outcome State Fault Refusal
  | .ok r => .next (deliver s r)
  | .error (.raise c i) => .next (raiseError s c i)
  | .error (.fault f) => .fault f

/-- MemRead (00_scope.md R20). -/
def memRead (buf : Bytes) (off n : Nat) : Except Stop Bytes :=
  match slice? buf off n with
  | some v => .ok v
  | none => .error (.fault .memReadOutside)

/-- MemRead of one byte. -/
def byteAt (buf : Bytes) (off : Nat) : Except Stop Byte :=
  match buf[off]? with
  | some b => .ok b
  | none => .error (.fault .memReadOutside)

/-- MemWrite (R20). -/
def memWrite (buf : Bytes) (off : Nat) (v : Bytes) : Except Stop Bytes :=
  match memWrite? buf off v with
  | some b => .ok b
  | none => .error (.fault .memWriteOutside)

/-- The host's read of a result port (10_state.md R32, R42). -/
def readPort {α : Type} (port : ResultPort) : Option α → Except Stop α
  | some v => .ok v
  | none => .error (.fault (.noPortValue port))

/-! Fields of a payload. -/

/-- GET of a field with a known layout (43_variants_config.md R197). The optional byte reads as 0 from a payload that
ends just before it (45_variants_event_response.md R245). -/
def getBySpec (f : Field) (d : FieldSpec) (p : Payload) : Except Stop FieldVal :=
  if d.optional && decide (p.length = d.offset) then .ok (.num 0)
  else if d.offset + kindWidth d.kind > p.length then .error (.fault (.fieldAbsent f))
  else
    match memRead p d.offset (kindWidth d.kind) with
    | .error e => .error e
    | .ok b => .ok (fieldOf d.kind b)

/-- SET of a field with a known layout: range first, then presence, then the write (R198). The optional byte is
appended to a payload that ends just before it (R245). -/
def setBySpec (f : Field) (d : FieldSpec) (p : Payload) (v : FieldVal) : Except Stop Payload :=
  if inRange d.kind v = false then .error (.raise .malformed (.fieldRange f))
  else if d.optional && decide (p.length = d.offset) then .ok (p ++ fieldBytes d.kind v)
  else if d.offset + kindWidth d.kind > p.length then .error (.fault (.fieldAbsent f))
  else memWrite p d.offset (fieldBytes d.kind v)

/-- BUILD over the fields of a row in offset order: the first value out of range is reported, otherwise their bytes
one after the other, which is at their offsets since the tables leave no gaps (R199). The optional byte of
Capabilities may be missing (45_variants_event_response.md R245), any other value may not; a value that no field of the
row takes is not read. -/
def buildFields (v : Variant) : List FieldSpec → List FieldVal → Except Stop Payload
  | [], _ => .ok []
  | d :: _, [] => if d.optional then .ok [] else .error (.fault (.noOperand ⟨.variant v, d.name⟩))
  | d :: ds, x :: xs =>
    if inRange d.kind x = false then .error (.raise .malformed (.fieldRange ⟨.variant v, d.name⟩))
    else
      match buildFields v ds xs with
      | .error e => .error e
      | .ok rest => .ok (fieldBytes d.kind x ++ rest)

/-- VIEW over the fields of a row in offset order, failing with the first failure (R197). -/
def viewFields (v : Variant) (p : Payload) : List FieldSpec → Except Stop (List (Field × FieldVal))
  | [] => .ok []
  | d :: ds =>
    match getBySpec ⟨.variant v, d.name⟩ d p with
    | .error e => .error e
    | .ok x =>
      match viewFields v p ds with
      | .error e => .error e
      | .ok rest => .ok ((⟨.variant v, d.name⟩, x) :: rest)

/-- BUILD.v of the configured layout. -/
def buildRow (c : Config) (v : Variant) (xs : List FieldVal) : Except Stop Payload :=
  match rowOf c v with
  | none => .error (.fault (.noLayout v))
  | some r => buildFields v r.fields xs

/-- VIEW.v of the configured layout. -/
def viewRow (c : Config) (v : Variant) (p : Payload) : Except Stop (List (Field × FieldVal)) :=
  match rowOf c v with
  | none => .error (.fault (.noLayout v))
  | some r => viewFields v p r.fields

/-- GET.v.n of the configured layout. -/
def getRow (c : Config) (v : Variant) (n : FieldName) (p : Payload) : Except Stop FieldVal :=
  match specOf c v n with
  | none => .error (.fault (.noLayout v))
  | some d => getBySpec ⟨.variant v, n⟩ d p

/-- SET.v.n of the configured layout. -/
def setRow (c : Config) (v : Variant) (n : FieldName) (p : Payload) (x : FieldVal) : Except Stop Payload :=
  match specOf c v n with
  | none => .error (.fault (.noLayout v))
  | some d => setBySpec ⟨.variant v, n⟩ d p x

/-- CHSET, naming the channel of `owner` in its errors (42_channel_layer.md R183; log entry 7). -/
def setChannelOf (owner : Owner) (p : Payload) (chan : Int) : Except Stop Payload :=
  setBySpec ⟨owner, .channel⟩ channelSpec p (.num chan)

/-! How the variants' operations end. -/

/-- A payload result: PAYOUT and STATUS (10_state.md R32). -/
def payoutOf (s : State) : Except Stop Payload → Host.Outcome State Fault Refusal
  | .ok p => finish s (.ok { status := some .ok, payout := some p })
  | .error e => finish s (.error e)

/-- Field results and STATUS (R32). -/
def fieldsOf (s : State) : Except Stop (List (Field × FieldVal)) → Host.Outcome State Fault Refusal
  | .ok fs => finish s (.ok { status := some .ok, fields := some fs })
  | .error e => finish s (.error e)

/-- The operation BUILD.v (43_variants_config.md R196, R199). -/
def buildOp (v : Variant) (xs : List FieldVal) (s : State) : Host.Outcome State Fault Refusal :=
  payoutOf s (buildRow s.cfg v xs)

/-- The operation VIEW.v (R197). -/
def viewOp (v : Variant) (p : Payload) (s : State) : Host.Outcome State Fault Refusal :=
  fieldsOf s (viewRow s.cfg v p)

/-- The operation GET.v.n (R197). -/
def getOp (v : Variant) (n : FieldName) (p : Payload) (s : State) : Host.Outcome State Fault Refusal :=
  fieldsOf s ((getRow s.cfg v n p).map fun x => [(⟨.variant v, n⟩, x)])

/-- The operation SET.v.n (R198). -/
def setOp (v : Variant) (n : FieldName) (p : Payload) (x : FieldVal) (s : State) :
    Host.Outcome State Fault Refusal :=
  payoutOf s (setRow s.cfg v n p x)

/-- The operation SET.v.channel of a channel-scoped variant, which is CHSET (43_variants_config.md R200). -/
def setChannelOp (v : Variant) (p : Payload) (chan : Int) (s : State) : Host.Outcome State Fault Refusal :=
  payoutOf s (setChannelOf (.variant v) p chan)

/-! Taking the next transaction. -/

/-- A step with no transaction presented: no port holds a value (R32), nothing else changes (log entry 9). -/
def idle (s : State) : State := { s with res := {} }

/-- Why a transaction that is no operation is refused (30_encoding.md R116). -/
def refusalOf : DecodeError → Refusal
  | .undefinedSelector => .undefinedSelector

/-- The state with a transaction presented ahead of those waiting. -/
def present (s : State) (r : Request) : State := { s with requests := r :: s.requests }

end Sys2Proof.Machine
end

