-- ==== Sys2Proof/Machine/AddedVariants.lean ====
section
/-! DEFINITION. The variants a configuration adds (41_dispatch.md R163): BUILD, VIEW, GET and SET over the layout it
supplies, by the rules every variant has in common (43_variants_config.md R196 to R199). -/

namespace Sys2Proof.Machine

/-- An operation of the variant with id 22 + k. -/
def execAdded (k : Fin 10) (op : FieldOp) (s : State) : Host.Outcome State Fault Refusal :=
  match op with
  | .build xs => buildOp (.added k) xs s
  | .view p => viewOp (.added k) p s
  | .get n p => getOp (.added k) n p s
  | .set n p x => setOp (.added k) n p x s

end Sys2Proof.Machine
end

