-- ==== Sys2Proof/Machine/Channel.lean ====
section
/-! DEFINITION. The channel addressing layer: CHBUILD, CHVIEW and CHSET (42_channel_layer.md). -/

namespace Sys2Proof.Machine

/-- The channel number's name as the layer itself reports it. -/
def channelField : Field := ⟨.channelLayer, .channel⟩

/-- CHBUILD(t, chan, extra)'s payload: the channel's range, then the total length (R181). -/
def channelPayload (c : Config) (chan : Int) (extra : Bytes) : Except Stop Payload :=
  if chan < 0 ∨ chan > 255 then .error (.raise .malformed (.fieldRange channelField))
  else if 1 + extra.length > c.maxPayload.toNat then .error (.raise .malformed (.lenRange (1 + extra.length)))
  else .ok (lo8 chan :: extra)

/-- CHBUILD: PAYOUT and STATUS, the type carried through unchanged (R181). -/
def execChbuild (t chan : Int) (extra : Bytes) (s : State) : Host.Outcome State Fault Refusal :=
  finish s <|
    match channelPayload s.cfg chan extra with
    | .error e => .error e
    | .ok p => .ok { status := some .ok, payout := some p, msgType := some t }

/-- CHVIEW(p): the channel number and the payload after it (R182). -/
def execChview (p : Payload) (s : State) : Host.Outcome State Fault Refusal :=
  fieldsOf s <|
    match getBySpec channelField channelSpec p with
    | .error e => .error e
    | .ok chan =>
      match memRead p 1 (p.length - 1) with
      | .error e => .error e
      | .ok extra => .ok [(channelField, chan), (⟨.channelLayer, .extra⟩, .str extra)]

/-- CHSET(p, chan): range, then presence, then the write (R183). -/
def execChset (p : Payload) (chan : Int) (s : State) : Host.Outcome State Fault Refusal :=
  payoutOf s (setChannelOf .channelLayer p chan)

end Sys2Proof.Machine
end

