-- ==== Sys2Proof/Machine/ConfigVariants.lean ====
section
/-! DEFINITION. The configuration variants (43_variants_config.md R200 to R208). -/

namespace Sys2Proof.Machine

/-- ChannelUnassign (R200). -/
def execChannelUnassign (op : ChannelUnassignOp) (s : State) : Host.Outcome State Fault Refusal :=
  match op with
  | .build a => buildOp .channelUnassign [.num a] s
  | .view p => viewOp .channelUnassign p s
  | .getChannel p => getOp .channelUnassign .channel p s
  | .setChannel p v => setChannelOp .channelUnassign p v s

/-- ChannelAssign (R201). -/
def execChannelAssign (op : ChannelAssignOp) (s : State) : Host.Outcome State Fault Refusal :=
  match op with
  | .build a b c => buildOp .channelAssign [.num a, .num b, .num c] s
  | .view p => viewOp .channelAssign p s
  | .getChannel p => getOp .channelAssign .channel p s
  | .getChannelType p => getOp .channelAssign .channelType p s
  | .getNetworkNumber p => getOp .channelAssign .networkNumber p s
  | .setChannel p v => setChannelOp .channelAssign p v s
  | .setChannelType p v => setOp .channelAssign .channelType p (.num v) s
  | .setNetworkNumber p v => setOp .channelAssign .networkNumber p (.num v) s

/-- ChannelID (R202). -/
def execChannelID (op : ChannelIDOp) (s : State) : Host.Outcome State Fault Refusal :=
  match op with
  | .build a b c d => buildOp .channelID [.num a, .num b, .num c, .num d] s
  | .view p => viewOp .channelID p s
  | .getChannel p => getOp .channelID .channel p s
  | .getDeviceNumber p => getOp .channelID .deviceNumber p s
  | .getDeviceType p => getOp .channelID .deviceType p s
  | .getTransmissionType p => getOp .channelID .transmissionType p s
  | .setChannel p v => setChannelOp .channelID p v s
  | .setDeviceNumber p v => setOp .channelID .deviceNumber p (.num v) s
  | .setDeviceType p v => setOp .channelID .deviceType p (.num v) s
  | .setTransmissionType p v => setOp .channelID .transmissionType p (.num v) s

/-- ChannelPeriod (R203). -/
def execChannelPeriod (op : ChannelPeriodOp) (s : State) : Host.Outcome State Fault Refusal :=
  match op with
  | .build a b => buildOp .channelPeriod [.num a, .num b] s
  | .view p => viewOp .channelPeriod p s
  | .getChannel p => getOp .channelPeriod .channel p s
  | .getPeriod p => getOp .channelPeriod .period p s
  | .setChannel p v => setChannelOp .channelPeriod p v s
  | .setPeriod p v => setOp .channelPeriod .period p (.num v) s

/-- ChannelSearchTimeout (R204). -/
def execChannelSearchTimeout (op : ChannelSearchTimeoutOp) (s : State) : Host.Outcome State Fault Refusal :=
  match op with
  | .build a b => buildOp .channelSearchTimeout [.num a, .num b] s
  | .view p => viewOp .channelSearchTimeout p s
  | .getChannel p => getOp .channelSearchTimeout .channel p s
  | .getTimeout p => getOp .channelSearchTimeout .timeout p s
  | .setChannel p v => setChannelOp .channelSearchTimeout p v s
  | .setTimeout p v => setOp .channelSearchTimeout .timeout p (.num v) s

/-- ChannelFrequency (R205). -/
def execChannelFrequency (op : ChannelFrequencyOp) (s : State) : Host.Outcome State Fault Refusal :=
  match op with
  | .build a b => buildOp .channelFrequency [.num a, .num b] s
  | .view p => viewOp .channelFrequency p s
  | .getChannel p => getOp .channelFrequency .channel p s
  | .getFrequency p => getOp .channelFrequency .frequency p s
  | .setChannel p v => setChannelOp .channelFrequency p v s
  | .setFrequency p v => setOp .channelFrequency .frequency p (.num v) s

/-- ChannelTXPower (R206). -/
def execChannelTXPower (op : ChannelTXPowerOp) (s : State) : Host.Outcome State Fault Refusal :=
  match op with
  | .build a b => buildOp .channelTXPower [.num a, .num b] s
  | .view p => viewOp .channelTXPower p s
  | .getChannel p => getOp .channelTXPower .channel p s
  | .getPower p => getOp .channelTXPower .power p s
  | .setChannel p v => setChannelOp .channelTXPower p v s
  | .setPower p v => setOp .channelTXPower .power p (.num v) s

/-- NetworkKey (R207). -/
def execNetworkKey (op : NetworkKeyOp) (s : State) : Host.Outcome State Fault Refusal :=
  match op with
  | .build a b => buildOp .networkKey [.num a, .str b] s
  | .view p => viewOp .networkKey p s
  | .getNetworkNumber p => getOp .networkKey .networkNumber p s
  | .getKey p => getOp .networkKey .key p s
  | .setNetworkNumber p v => setOp .networkKey .networkNumber p (.num v) s
  | .setKey p v => setOp .networkKey .key p (.str v) s

/-- TXPower (R208). -/
def execTxPower (op : TXPowerOp) (s : State) : Host.Outcome State Fault Refusal :=
  match op with
  | .build a b => buildOp .txPower [.num a, .num b] s
  | .view p => viewOp .txPower p s
  | .getB0 p => getOp .txPower .b0 p s
  | .getPower p => getOp .txPower .power p s
  | .setB0 p v => setOp .txPower .b0 p (.num v) s
  | .setPower p v => setOp .txPower .power p (.num v) s

end Sys2Proof.Machine
end

