-- ==== Sys2Proof/Machine/ControlDataVariants.lean ====
section
/-! DEFINITION. The control and data variants (44_variants_control_data.md R220 to R226). SystemReset is a message
about the far end: it changes nothing in this block (70_reset_and_hazards.md R293). -/

namespace Sys2Proof.Machine

/-- SystemReset (R220). -/
def execSystemReset (op : SystemResetOp) (s : State) : Host.Outcome State Fault Refusal :=
  match op with
  | .build none => buildOp .systemReset [.num (numOf s.cfg.sysresetFill)] s
  | .build (some a) => buildOp .systemReset [.num a] s
  | .view _ => fieldsOf s (.ok [])
  | .getReserved p => getOp .systemReset .reserved p s

/-- ChannelOpen (R221). -/
def execChannelOpen (op : ChannelOpenOp) (s : State) : Host.Outcome State Fault Refusal :=
  match op with
  | .build a => buildOp .channelOpen [.num a] s
  | .view p => viewOp .channelOpen p s
  | .getChannel p => getOp .channelOpen .channel p s
  | .setChannel p v => setChannelOp .channelOpen p v s

/-- ChannelClose (R222). -/
def execChannelClose (op : ChannelCloseOp) (s : State) : Host.Outcome State Fault Refusal :=
  match op with
  | .build a => buildOp .channelClose [.num a] s
  | .view p => viewOp .channelClose p s
  | .getChannel p => getOp .channelClose .channel p s
  | .setChannel p v => setChannelOp .channelClose p v s

/-- ChannelRequest (R223). -/
def execChannelRequest (op : ChannelRequestOp) (s : State) : Host.Outcome State Fault Refusal :=
  match op with
  | .build a b => buildOp .channelRequest [.num a, .num b] s
  | .view p => viewOp .channelRequest p s
  | .getChannel p => getOp .channelRequest .channel p s
  | .getRequestedMessageId p => getOp .channelRequest .requestedMessageId p s
  | .setChannel p v => setChannelOp .channelRequest p v s
  | .setRequestedMessageId p v => setOp .channelRequest .requestedMessageId p (.num v) s

/-- BroadcastData (R224). -/
def execBroadcastData (op : BroadcastDataOp) (s : State) : Host.Outcome State Fault Refusal :=
  match op with
  | .build a b => buildOp .broadcastData [.num a, .str b] s
  | .view p => viewOp .broadcastData p s
  | .getChannel p => getOp .broadcastData .channel p s
  | .getData p => getOp .broadcastData .data p s
  | .setChannel p v => setChannelOp .broadcastData p v s
  | .setData p v => setOp .broadcastData .data p (.str v) s

/-- AcknowledgedData (R225). -/
def execAcknowledgedData (op : AcknowledgedDataOp) (s : State) : Host.Outcome State Fault Refusal :=
  match op with
  | .build a b => buildOp .acknowledgedData [.num a, .str b] s
  | .view p => viewOp .acknowledgedData p s
  | .getChannel p => getOp .acknowledgedData .channel p s
  | .getData p => getOp .acknowledgedData .data p s
  | .setChannel p v => setChannelOp .acknowledgedData p v s
  | .setData p v => setOp .acknowledgedData .data p (.str v) s

/-- BurstData (R226). -/
def execBurstData (op : BurstDataOp) (s : State) : Host.Outcome State Fault Refusal :=
  match op with
  | .build a b => buildOp .burstData [.num a, .str b] s
  | .view p => viewOp .burstData p s
  | .getChannel p => getOp .burstData .channel p s
  | .getData p => getOp .burstData .data p s
  | .setChannel p v => setChannelOp .burstData p v s
  | .setData p v => setOp .burstData .data p (.str v) s

end Sys2Proof.Machine
end

