-- ==== Sys2Proof/Machine/EventResponseVariants.lean ====
section
/-! DEFINITION. The event and response variants (45_variants_event_response.md R240 to R246). -/

namespace Sys2Proof.Machine

/-- ChannelEvent (R240). -/
def execChannelEvent (op : ChannelEventOp) (s : State) : Host.Outcome State Fault Refusal :=
  match op with
  | .build a b c => buildOp .channelEvent [.num a, .num b, .num c] s
  | .view p => viewOp .channelEvent p s
  | .getChannel p => getOp .channelEvent .channel p s
  | .getMessageId p => getOp .channelEvent .messageId p s
  | .getMessageCode p => getOp .channelEvent .messageCode p s
  | .setChannel p v => setChannelOp .channelEvent p v s
  | .setMessageId p v => setOp .channelEvent .messageId p (.num v) s
  | .setMessageCode p v => setOp .channelEvent .messageCode p (.num v) s

/-- ChannelStatus (R241). -/
def execChannelStatus (op : ChannelStatusOp) (s : State) : Host.Outcome State Fault Refusal :=
  match op with
  | .build a b => buildOp .channelStatus [.num a, .num b] s
  | .view p => viewOp .channelStatus p s
  | .getChannel p => getOp .channelStatus .channel p s
  | .getStatus p => getOp .channelStatus .status p s
  | .setChannel p v => setChannelOp .channelStatus p v s
  | .setStatus p v => setOp .channelStatus .status p (.num v) s

/-- Version (R242). -/
def execVersion (op : VersionOp) (s : State) : Host.Outcome State Fault Refusal :=
  match op with
  | .build a => buildOp .version [.str a] s
  | .view p => viewOp .version p s
  | .getVersion p => getOp .version .version p s
  | .setVersion p v => setOp .version .version p (.str v) s

/-- Startup (R243). -/
def execStartup (op : StartupOp) (s : State) : Host.Outcome State Fault Refusal :=
  match op with
  | .build a => buildOp .startup [.num a] s
  | .view p => viewOp .startup p s
  | .getStartupReason p => getOp .startup .startupReason p s
  | .setStartupReason p v => setOp .startup .startupReason p (.num v) s

/-- Capabilities (R245). -/
def execCapabilities (op : CapabilitiesOp) (s : State) : Host.Outcome State Fault Refusal :=
  match op with
  | .build a b c d none => buildOp .capabilities [.num a, .num b, .num c, .num d] s
  | .build a b c d (some e) => buildOp .capabilities [.num a, .num b, .num c, .num d, .num e] s
  | .view p => fieldsOf s ((viewRow s.cfg .capabilities p).map fun fs =>
      fs ++ [(⟨.variant .capabilities, .adv2Present⟩, .flag (decide (5 ≤ p.length)))])
  | .getMaxChannels p => getOp .capabilities .maxChannels p s
  | .getMaxNetworks p => getOp .capabilities .maxNetworks p s
  | .getStdOptions p => getOp .capabilities .stdOptions p s
  | .getAdvOptions p => getOp .capabilities .advOptions p s
  | .getAdvOptions2 p => getOp .capabilities .advOptions2 p s
  | .setMaxChannels p v => setOp .capabilities .maxChannels p (.num v) s
  | .setMaxNetworks p v => setOp .capabilities .maxNetworks p (.num v) s
  | .setStdOptions p v => setOp .capabilities .stdOptions p (.num v) s
  | .setAdvOptions p v => setOp .capabilities .advOptions p (.num v) s
  | .setAdvOptions2 p v => setOp .capabilities .advOptions2 p (.num v) s

/-- SerialNumber (R246). -/
def execSerialNumber (op : SerialNumberOp) (s : State) : Host.Outcome State Fault Refusal :=
  match op with
  | .build a => buildOp .serialNumber [.str a] s
  | .view p => viewOp .serialNumber p s
  | .getSerial p => getOp .serialNumber .serial p s
  | .setSerial p v => setOp .serialNumber .serial p (.str v) s

end Sys2Proof.Machine
end

