-- ==== Sys2Proof/Machine/Codec.lean ====
section
/-! DEFINITION. The frame codec: CKSUM, ENCODE and DECODE (40_codec_ops.md). -/

namespace Sys2Proof.Machine

/-- ENCODE(t, p): the length is checked before the type (R131 to R134). -/
def encodeFrame (c : Config) (t : Int) (p : Payload) : Except Stop Bytes :=
  if p.length > c.maxPayload.toNat then .error (.raise .malformed (.lenRange p.length))
  else if t < 0 ∨ t > 255 then .error (.raise c.errTypeRange .typeRange)
  else .ok (frameOf c.sync (lo8 t) p)

/-- What DECODE returns: type, payload, consumed. -/
structure Decoded where
  type : Byte
  payload : Payload
  consumed : Nat
  deriving DecidableEq, Repr

/-- Steps 4 to 7, once sync and length are good (R140 to R143). -/
def decodeBody (c : Config) (buf : Bytes) (len : Nat) (t : Byte) : Except Stop Decoded :=
  if buf.length < len + c.overhead.toNat then .error (.raise .incomplete (.body (len + c.overhead.toNat)))
  else
    match memRead buf 0 (3 + len), byteAt buf (len + 3), memRead buf 3 len with
    | .ok covered, .ok sum, .ok p =>
      if xor8 covered ≠ sum then .error (.raise .corrupted .checksumMismatch)
      else .ok ⟨t, p, len + c.overhead.toNat⟩
    | .error e, _, _ => .error e
    | _, .error e, _ => .error e
    | _, _, .error e => .error e

/-- DECODE(buf), the checks in the order that "must be reproduced exactly" (R136 to R144). Step 5 cannot fail, the
type being a byte (R141). -/
def decodeFrame (c : Config) (buf : Bytes) : Except Stop Decoded :=
  if buf.length < c.minDecode.toNat then .error (.raise .incomplete .header)
  else
    match byteAt buf 0, byteAt buf 1, byteAt buf 2 with
    | .ok sync, .ok len, .ok t =>
      if sync ≠ c.sync then .error (.raise .corrupted .syncMismatch)
      else if len.toNat > c.maxPayload.toNat then .error (.raise .malformed (.lenRange len.toNat))
      else decodeBody c buf len.toNat t
    | .error e, _, _ => .error e
    | _, .error e, _ => .error e
    | _, _, .error e => .error e

/-- CKSUM: "It cannot fail and writes no status" (R130). It writes the byte it returns and no other port; the outcome of
the transaction that invokes it is presented by showOutcome (log entries 5 and 6). -/
def execCksum (b : Bytes) (s : State) : Host.Outcome State Fault Refusal :=
  finish s (.ok { cksum := some (xor8 b) })

/-- ENCODE: FRAME, FRAMELEN and STATUS, or an error (R131). -/
def execEncode (t : Int) (p : Payload) (s : State) : Host.Outcome State Fault Refusal :=
  finish s <|
    match encodeFrame s.cfg t p with
    | .error e => .error e
    | .ok f => .ok { status := some .ok, frame := some f, frameLen := some (p.length + s.cfg.overhead.toNat) }

/-- DECODE: RTYPE, RPAY, RLEN, CONSUMED and STATUS, or an error (R143, R144). -/
def execDecode (buf : Bytes) (s : State) : Host.Outcome State Fault Refusal :=
  finish s <|
    match decodeFrame s.cfg buf with
    | .error e => .error e
    | .ok d => .ok { status := some .ok, rtype := some d.type, rpay := some d.payload,
                     rlen := some d.payload.length, consumed := some d.consumed }

end Sys2Proof.Machine
end

