-- ==== Sys2Proof/Machine/TypeDispatch.lean ====
section
/-! DEFINITION. Type dispatch: LOOKUP and RESOLVE (41_dispatch.md). -/

namespace Sys2Proof.Machine

/-- LOOKUP(t): the registry entry, with no default and no fallback (R160). -/
def lookupType (c : Config) (t : Byte) : Except Stop (BitVec 5) :=
  match registryEntry c t with
  | some id => .ok id
  | none => .error (.raise .unknownType (.unknownType t))

/-- LOOKUP: VARIANT and STATUS, or UNKNOWN_TYPE (R160). -/
def execLookup (t : Byte) (s : State) : Host.Outcome State Fault Refusal :=
  finish s <|
    match lookupType s.cfg t with
    | .error e => .error e
    | .ok id => .ok { status := some .ok, variant := some id }

/-- RESOLVE: DECODE, whose errors pass unchanged, then LOOKUP of the type, and no check of the length against the
variant's (R164, R165, R167). -/
def execResolve (buf : Bytes) (s : State) : Host.Outcome State Fault Refusal :=
  finish s <|
    match decodeFrame s.cfg buf with
    | .error e => .error e
    | .ok d =>
      match lookupType s.cfg d.type with
      | .error e => .error e
      | .ok id => .ok { status := some .ok, variant := some id, rtype := some d.type, rpay := some d.payload,
                        rlen := some d.payload.length, consumed := some d.consumed }

end Sys2Proof.Machine
end

