-- ==== Sys2Proof/Machine/Dispatch.lean ====
section
/-! DEFINITION. One arm per instruction. -/

namespace Sys2Proof.Machine

def exec (i : Instr) (s : State) : Host.Outcome State Fault Refusal :=
  match i with
  | .encode t p => Sys2Proof.Machine.execEncode t p s
  | .decode buf => Sys2Proof.Machine.execDecode buf s
  | .resolve buf => Sys2Proof.Machine.execResolve buf s
  | .cksum b => Sys2Proof.Machine.execCksum b s
  | .lookup t => Sys2Proof.Machine.execLookup t s
  | .chbuild t chan extra => Sys2Proof.Machine.execChbuild t chan extra s
  | .chview p => Sys2Proof.Machine.execChview p s
  | .chset p chan => Sys2Proof.Machine.execChset p chan s
  | .channelUnassign op => Sys2Proof.Machine.execChannelUnassign op s
  | .channelAssign op => Sys2Proof.Machine.execChannelAssign op s
  | .channelID op => Sys2Proof.Machine.execChannelID op s
  | .channelPeriod op => Sys2Proof.Machine.execChannelPeriod op s
  | .channelSearchTimeout op => Sys2Proof.Machine.execChannelSearchTimeout op s
  | .channelFrequency op => Sys2Proof.Machine.execChannelFrequency op s
  | .channelTXPower op => Sys2Proof.Machine.execChannelTXPower op s
  | .networkKey op => Sys2Proof.Machine.execNetworkKey op s
  | .txPower op => Sys2Proof.Machine.execTxPower op s
  | .systemReset op => Sys2Proof.Machine.execSystemReset op s
  | .channelOpen op => Sys2Proof.Machine.execChannelOpen op s
  | .channelClose op => Sys2Proof.Machine.execChannelClose op s
  | .channelRequest op => Sys2Proof.Machine.execChannelRequest op s
  | .broadcastData op => Sys2Proof.Machine.execBroadcastData op s
  | .acknowledgedData op => Sys2Proof.Machine.execAcknowledgedData op s
  | .burstData op => Sys2Proof.Machine.execBurstData op s
  | .channelEvent op => Sys2Proof.Machine.execChannelEvent op s
  | .channelStatus op => Sys2Proof.Machine.execChannelStatus op s
  | .version op => Sys2Proof.Machine.execVersion op s
  | .startup op => Sys2Proof.Machine.execStartup op s
  | .capabilities op => Sys2Proof.Machine.execCapabilities op s
  | .serialNumber op => Sys2Proof.Machine.execSerialNumber op s

end Sys2Proof.Machine
end

