-- ==== Sys2Proof/Machine/Perform.lean ====
section
/-! DEFINITION. The meaning of any operation, and the transaction that invokes it. -/

namespace Sys2Proof.Machine

/-- An instruction has the meaning exec gives it; an operation of an added variant reads the configured layout. -/
def perform (o : Operation) (s : State) : Host.Outcome State Fault Refusal :=
  match o with
  | .instr i => exec i s
  | .added k op => execAdded k op s

/-- A transaction: "one invocation of one operation", after which the block presents its outcome (10_state.md R30). -/
def transact (o : Operation) (s : State) : Host.Outcome State Fault Refusal := conclude (perform o s)

end Sys2Proof.Machine
end

