-- ==== Sys2Proof/Machine/Step.lean ====
section
/-! DEFINITION. One step: the oldest transaction the host has issued is taken from the queue, decoded and transacted
(10_state.md R30, 20_memory.md R73 item 2). -/

namespace Sys2Proof.Machine

/-- One transaction; with none presented, the block idles. -/
def step (s : State) : Host.Outcome State Fault Refusal :=
  match s.requests with
  | [] => .next (idle s)
  | r :: rest =>
    match decode s.cfg r with
    | .ok o => transact o { s with requests := rest }
    | .error e => .refused (refusalOf e)

/-- The state whose next step performs the instruction of a word of the opcode table. -/
def State.withFetchWord (s : State) (nbits w : Nat) : State :=
  match tableRequest nbits w with
  | none => s
  | some r => present s r

end Sys2Proof.Machine
end

