-- ==== Sys2Proof/Machine/Flags.lean ====
section
/-! DEFINITION. The numeric codes of STATUS and INFO (60_exceptions.md R261, R262). The block has no other flags
(10_state.md R35). -/

namespace Sys2Proof.Machine

/-- The 3-bit STATUS code (R261). -/
def statusCode : Status → BitVec 3
  | .ok => 0#3
  | .incomplete => 1#3
  | .corrupted => 2#3
  | .malformed => 3#3
  | .unknownType => 4#3
  | .fieldAbsent => 5#3

/-- The 3-bit sub-cause code of INFO, where the class has sub-causes (R262). -/
def subCause : Info → Option (BitVec 3)
  | .header => some 0#3
  | .body _ => some 1#3
  | .syncMismatch => some 0#3
  | .checksumMismatch => some 1#3
  | .lenRange _ => some 0#3
  | .typeRange => some 1#3
  | .fieldRange _ => some 2#3
  | .unknownType _ => none

/-- The class each INFO belongs to (R262). -/
def infoClass : Info → Status
  | .header => .incomplete
  | .body _ => .incomplete
  | .syncMismatch => .corrupted
  | .checksumMismatch => .corrupted
  | .lenRange _ => .malformed
  | .typeRange => .malformed
  | .fieldRange _ => .malformed
  | .unknownType _ => .unknownType

/-- The 8-bit value of INFO where it is a number: a length or a type code; a field's name is no number (R262).
DESIGN CHOICE (log entry 13): the port is 8 bits wide (10_state.md R32) and the spec lets a model offer sequences of any
length, so an offending length above 255, which no port can carry, is shown modulo 256; Info itself holds it whole. -/
def infoValue : Info → Option (BitVec 8)
  | .body n => some (BitVec.ofNat 8 n)
  | .lenRange n => some (BitVec.ofNat 8 n)
  | .unknownType t => some t
  | .header => none
  | .syncMismatch => none
  | .checksumMismatch => none
  | .typeRange => none
  | .fieldRange _ => none

/-- The outcome class of a fault of the model, where R261 gives it one. -/
def faultStatus : Fault → Option Status
  | .fieldAbsent _ => some .fieldAbsent
  | .memReadOutside => none
  | .memWriteOutside => none
  | .noPortValue _ => none
  | .noLayout _ => none
  | .noOperand _ => none

end Sys2Proof.Machine
end

