-- ==== Sys2Proof/Machine/RowOp.lean ====
section
/-! DEFINITION. Which variant an operation is of, and which of the operations of 43_variants_config.md R196 it is, in
the common form of FieldOp: the operands of BUILD in offset order, the field that GET and SET name. -/

namespace Sys2Proof

/-- Operations of ChannelUnassign in the common form (43_variants_config.md R200). -/
def ChannelUnassignOp.access : ChannelUnassignOp → FieldOp
  | .build a => .build [.num a]
  | .view p => .view p
  | .getChannel p => .get .channel p
  | .setChannel p v => .set .channel p (.num v)

/-- Operations of ChannelAssign in the common form (43_variants_config.md R201). -/
def ChannelAssignOp.access : ChannelAssignOp → FieldOp
  | .build a b c => .build [.num a, .num b, .num c]
  | .view p => .view p
  | .getChannel p => .get .channel p
  | .getChannelType p => .get .channelType p
  | .getNetworkNumber p => .get .networkNumber p
  | .setChannel p v => .set .channel p (.num v)
  | .setChannelType p v => .set .channelType p (.num v)
  | .setNetworkNumber p v => .set .networkNumber p (.num v)

/-- Operations of ChannelID in the common form (43_variants_config.md R202). -/
def ChannelIDOp.access : ChannelIDOp → FieldOp
  | .build a b c d => .build [.num a, .num b, .num c, .num d]
  | .view p => .view p
  | .getChannel p => .get .channel p
  | .getDeviceNumber p => .get .deviceNumber p
  | .getDeviceType p => .get .deviceType p
  | .getTransmissionType p => .get .transmissionType p
  | .setChannel p v => .set .channel p (.num v)
  | .setDeviceNumber p v => .set .deviceNumber p (.num v)
  | .setDeviceType p v => .set .deviceType p (.num v)
  | .setTransmissionType p v => .set .transmissionType p (.num v)

/-- Operations of ChannelPeriod in the common form (43_variants_config.md R203). -/
def ChannelPeriodOp.access : ChannelPeriodOp → FieldOp
  | .build a b => .build [.num a, .num b]
  | .view p => .view p
  | .getChannel p => .get .channel p
  | .getPeriod p => .get .period p
  | .setChannel p v => .set .channel p (.num v)
  | .setPeriod p v => .set .period p (.num v)

/-- Operations of ChannelSearchTimeout in the common form (43_variants_config.md R204). -/
def ChannelSearchTimeoutOp.access : ChannelSearchTimeoutOp → FieldOp
  | .build a b => .build [.num a, .num b]
  | .view p => .view p
  | .getChannel p => .get .channel p
  | .getTimeout p => .get .timeout p
  | .setChannel p v => .set .channel p (.num v)
  | .setTimeout p v => .set .timeout p (.num v)

/-- Operations of ChannelFrequency in the common form (43_variants_config.md R205). -/
def ChannelFrequencyOp.access : ChannelFrequencyOp → FieldOp
  | .build a b => .build [.num a, .num b]
  | .view p => .view p
  | .getChannel p => .get .channel p
  | .getFrequency p => .get .frequency p
  | .setChannel p v => .set .channel p (.num v)
  | .setFrequency p v => .set .frequency p (.num v)

/-- Operations of ChannelTXPower in the common form (43_variants_config.md R206). -/
def ChannelTXPowerOp.access : ChannelTXPowerOp → FieldOp
  | .build a b => .build [.num a, .num b]
  | .view p => .view p
  | .getChannel p => .get .channel p
  | .getPower p => .get .power p
  | .setChannel p v => .set .channel p (.num v)
  | .setPower p v => .set .power p (.num v)

/-- Operations of NetworkKey in the common form (43_variants_config.md R207). -/
def NetworkKeyOp.access : NetworkKeyOp → FieldOp
  | .build a b => .build [.num a, .str b]
  | .view p => .view p
  | .getNetworkNumber p => .get .networkNumber p
  | .getKey p => .get .key p
  | .setNetworkNumber p v => .set .networkNumber p (.num v)
  | .setKey p v => .set .key p (.str v)

/-- Operations of TXPower in the common form (43_variants_config.md R208). -/
def TXPowerOp.access : TXPowerOp → FieldOp
  | .build a b => .build [.num a, .num b]
  | .view p => .view p
  | .getB0 p => .get .b0 p
  | .getPower p => .get .power p
  | .setB0 p v => .set .b0 p (.num v)
  | .setPower p v => .set .power p (.num v)

/-- Operations of SystemReset in the common form (44_variants_control_data.md R220). -/
def SystemResetOp.access : SystemResetOp → FieldOp
  | .build none => .build []
  | .build (some a) => .build [.num a]
  | .view p => .view p
  | .getReserved p => .get .reserved p

/-- Operations of ChannelOpen in the common form (44_variants_control_data.md R221). -/
def ChannelOpenOp.access : ChannelOpenOp → FieldOp
  | .build a => .build [.num a]
  | .view p => .view p
  | .getChannel p => .get .channel p
  | .setChannel p v => .set .channel p (.num v)

/-- Operations of ChannelClose in the common form (44_variants_control_data.md R222). -/
def ChannelCloseOp.access : ChannelCloseOp → FieldOp
  | .build a => .build [.num a]
  | .view p => .view p
  | .getChannel p => .get .channel p
  | .setChannel p v => .set .channel p (.num v)

/-- Operations of ChannelRequest in the common form (44_variants_control_data.md R223). -/
def ChannelRequestOp.access : ChannelRequestOp → FieldOp
  | .build a b => .build [.num a, .num b]
  | .view p => .view p
  | .getChannel p => .get .channel p
  | .getRequestedMessageId p => .get .requestedMessageId p
  | .setChannel p v => .set .channel p (.num v)
  | .setRequestedMessageId p v => .set .requestedMessageId p (.num v)

/-- Operations of BroadcastData in the common form (44_variants_control_data.md R224). -/
def BroadcastDataOp.access : BroadcastDataOp → FieldOp
  | .build a b => .build [.num a, .str b]
  | .view p => .view p
  | .getChannel p => .get .channel p
  | .getData p => .get .data p
  | .setChannel p v => .set .channel p (.num v)
  | .setData p v => .set .data p (.str v)

/-- Operations of AcknowledgedData in the common form (44_variants_control_data.md R225). -/
def AcknowledgedDataOp.access : AcknowledgedDataOp → FieldOp
  | .build a b => .build [.num a, .str b]
  | .view p => .view p
  | .getChannel p => .get .channel p
  | .getData p => .get .data p
  | .setChannel p v => .set .channel p (.num v)
  | .setData p v => .set .data p (.str v)

/-- Operations of BurstData in the common form (44_variants_control_data.md R226). -/
def BurstDataOp.access : BurstDataOp → FieldOp
  | .build a b => .build [.num a, .str b]
  | .view p => .view p
  | .getChannel p => .get .channel p
  | .getData p => .get .data p
  | .setChannel p v => .set .channel p (.num v)
  | .setData p v => .set .data p (.str v)

/-- Operations of ChannelEvent in the common form (45_variants_event_response.md R240). -/
def ChannelEventOp.access : ChannelEventOp → FieldOp
  | .build a b c => .build [.num a, .num b, .num c]
  | .view p => .view p
  | .getChannel p => .get .channel p
  | .getMessageId p => .get .messageId p
  | .getMessageCode p => .get .messageCode p
  | .setChannel p v => .set .channel p (.num v)
  | .setMessageId p v => .set .messageId p (.num v)
  | .setMessageCode p v => .set .messageCode p (.num v)

/-- Operations of ChannelStatus in the common form (45_variants_event_response.md R241). -/
def ChannelStatusOp.access : ChannelStatusOp → FieldOp
  | .build a b => .build [.num a, .num b]
  | .view p => .view p
  | .getChannel p => .get .channel p
  | .getStatus p => .get .status p
  | .setChannel p v => .set .channel p (.num v)
  | .setStatus p v => .set .status p (.num v)

/-- Operations of Version in the common form (45_variants_event_response.md R242). -/
def VersionOp.access : VersionOp → FieldOp
  | .build a => .build [.str a]
  | .view p => .view p
  | .getVersion p => .get .version p
  | .setVersion p v => .set .version p (.str v)

/-- Operations of Startup in the common form (45_variants_event_response.md R243). -/
def StartupOp.access : StartupOp → FieldOp
  | .build a => .build [.num a]
  | .view p => .view p
  | .getStartupReason p => .get .startupReason p
  | .setStartupReason p v => .set .startupReason p (.num v)

/-- Operations of Capabilities in the common form (45_variants_event_response.md R245). -/
def CapabilitiesOp.access : CapabilitiesOp → FieldOp
  | .build a b c d none => .build [.num a, .num b, .num c, .num d]
  | .build a b c d (some e) => .build [.num a, .num b, .num c, .num d, .num e]
  | .view p => .view p
  | .getMaxChannels p => .get .maxChannels p
  | .getMaxNetworks p => .get .maxNetworks p
  | .getStdOptions p => .get .stdOptions p
  | .getAdvOptions p => .get .advOptions p
  | .getAdvOptions2 p => .get .advOptions2 p
  | .setMaxChannels p v => .set .maxChannels p (.num v)
  | .setMaxNetworks p v => .set .maxNetworks p (.num v)
  | .setStdOptions p v => .set .stdOptions p (.num v)
  | .setAdvOptions p v => .set .advOptions p (.num v)
  | .setAdvOptions2 p v => .set .advOptions2 p (.num v)

/-- Operations of SerialNumber in the common form (45_variants_event_response.md R246). -/
def SerialNumberOp.access : SerialNumberOp → FieldOp
  | .build a => .build [.str a]
  | .view p => .view p
  | .getSerial p => .get .serial p
  | .setSerial p v => .set .serial p (.str v)

/-- The variant an operation is of and its common form; none for the operations of the codec, of type dispatch and of the
channel layer. -/
def rowOp : Operation → Option (Variant × FieldOp)
  | .added k op => some (.added k, op)
  | .instr (.encode _ _) => none
  | .instr (.decode _) => none
  | .instr (.resolve _) => none
  | .instr (.cksum _) => none
  | .instr (.lookup _) => none
  | .instr (.chbuild _ _ _) => none
  | .instr (.chview _) => none
  | .instr (.chset _ _) => none
  | .instr (.channelUnassign op) => some (.channelUnassign, op.access)
  | .instr (.channelAssign op) => some (.channelAssign, op.access)
  | .instr (.channelID op) => some (.channelID, op.access)
  | .instr (.channelPeriod op) => some (.channelPeriod, op.access)
  | .instr (.channelSearchTimeout op) => some (.channelSearchTimeout, op.access)
  | .instr (.channelFrequency op) => some (.channelFrequency, op.access)
  | .instr (.channelTXPower op) => some (.channelTXPower, op.access)
  | .instr (.networkKey op) => some (.networkKey, op.access)
  | .instr (.txPower op) => some (.txPower, op.access)
  | .instr (.systemReset op) => some (.systemReset, op.access)
  | .instr (.channelOpen op) => some (.channelOpen, op.access)
  | .instr (.channelClose op) => some (.channelClose, op.access)
  | .instr (.channelRequest op) => some (.channelRequest, op.access)
  | .instr (.broadcastData op) => some (.broadcastData, op.access)
  | .instr (.acknowledgedData op) => some (.acknowledgedData, op.access)
  | .instr (.burstData op) => some (.burstData, op.access)
  | .instr (.channelEvent op) => some (.channelEvent, op.access)
  | .instr (.channelStatus op) => some (.channelStatus, op.access)
  | .instr (.version op) => some (.version, op.access)
  | .instr (.startup op) => some (.startup, op.access)
  | .instr (.capabilities op) => some (.capabilities, op.access)
  | .instr (.serialNumber op) => some (.serialNumber, op.access)

/-- The variant an operation is a BUILD of. -/
def buildVariant (o : Operation) : Option Variant :=
  match rowOp o with
  | some (v, .build _) => some v
  | some (_, .view _) => none
  | some (_, .get _ _) => none
  | some (_, .set _ _ _) => none
  | none => none

end Sys2Proof
end

