-- ==== Sys2Proof/Machine/Pseudo.lean ====
section
/-! DEFINITION. The pseudo-operations of 30_encoding.md R117, as the host's expansions over the instructions: each
reads result ports of one transaction and presents the next. They are no constructors of Instr. -/

namespace Sys2Proof.Machine

/-- VIEW.v of a payload, as an operation. -/
def viewInstr (v : Variant) (p : Payload) : Operation :=
  match v with
  | .channelUnassign => .instr (.channelUnassign (.view p))
  | .channelAssign => .instr (.channelAssign (.view p))
  | .channelID => .instr (.channelID (.view p))
  | .channelPeriod => .instr (.channelPeriod (.view p))
  | .channelSearchTimeout => .instr (.channelSearchTimeout (.view p))
  | .channelFrequency => .instr (.channelFrequency (.view p))
  | .channelTXPower => .instr (.channelTXPower (.view p))
  | .networkKey => .instr (.networkKey (.view p))
  | .txPower => .instr (.txPower (.view p))
  | .systemReset => .instr (.systemReset (.view p))
  | .channelOpen => .instr (.channelOpen (.view p))
  | .channelClose => .instr (.channelClose (.view p))
  | .channelRequest => .instr (.channelRequest (.view p))
  | .broadcastData => .instr (.broadcastData (.view p))
  | .acknowledgedData => .instr (.acknowledgedData (.view p))
  | .burstData => .instr (.burstData (.view p))
  | .channelEvent => .instr (.channelEvent (.view p))
  | .channelStatus => .instr (.channelStatus (.view p))
  | .version => .instr (.version (.view p))
  | .startup => .instr (.startup (.view p))
  | .capabilities => .instr (.capabilities (.view p))
  | .serialNumber => .instr (.serialNumber (.view p))
  | .added k => .added k (.view p)

/-- ChannelMessage(t, chan, extra) is CHBUILD(t, chan, extra) (R117, 42_channel_layer.md R181). -/
def channelMessage (t chan : Int) (extra : Bytes) : Instr := .chbuild t chan extra

/-- encode(message) with message = (t, p) is ENCODE(t, p) (R117). -/
def encodeMessage (m : Int × Payload) : Instr := .encode m.1 m.2

/-- ENCODE.v(fields): BUILD.v(fields), then ENCODE of its payload under code(v). The variant is the one the operation is
a BUILD of, so code and payload belong together by construction (70_reset_and_hazards.md R310); an operation that is no
BUILD has no ENCODE.v. An error of BUILD is the outcome. -/
def encodeVariant (o : Operation) (h : (buildVariant o).isSome = true) (s : State) :
    Host.Outcome State Fault Refusal :=
  match perform o s with
  | .fault f => .fault f
  | .refused r => .refused r
  | .next s1 =>
    if s1.res.status ≠ some .ok then .next s1
    else
      match readPort .payout s1.res.payout, codeOf s1.cfg ((buildVariant o).get h) with
      | .error e, _ => finish s1 (.error e)
      | .ok _, none => .refused (.noTypeCode ((buildVariant o).get h))
      | .ok p, some t => exec (.encode (numOf t) p) s1

/-- RESOLVE(buf) then field access: VIEW of the variant returned, applied to RPAY. An error of RESOLVE is the
outcome. -/
def resolveView (buf : Bytes) (s : State) : Host.Outcome State Fault Refusal :=
  match exec (.resolve buf) s with
  | .fault f => .fault f
  | .refused r => .refused r
  | .next s1 =>
    if s1.res.status ≠ some .ok then .next s1
    else
      match readPort .variant s1.res.variant, readPort .rpay s1.res.rpay with
      | .error e, _ => finish s1 (.error e)
      | _, .error e => finish s1 (.error e)
      | .ok id, .ok p => perform (viewInstr (variantOfId id) p) s1

end Sys2Proof.Machine
end

