-- ==== Sys2Proof/Safety.lean ====
section
/-! DEFINITION. The terms the claims use: the configurations the spec admits, the invariant of the machine, the causes of
each operation, and the shapes of an access to one field. -/

namespace Sys2Proof.Safety
open Machine

/-- The constraints every REGISTRY must meet (41_dispatch.md R161): at most one entry per code (with the canonical
rising order of the list), no two codes for one variant id, and entry 0x4B for ChannelOpen. -/
structure RegistryLegal (r : List RegEntry) : Prop where
  rising : r.Pairwise (fun a b => a.code.toNat < b.code.toNat)
  distinct : r.Pairwise (fun a b => a.variant ≠ b.variant)
  channelOpen : (⟨0x4B#8, 10#5⟩ : RegEntry) ∈ r

/-- Every field of a row starts where the one before it ends (43_variants_config.md R199: "no gaps"). -/
def gapless : Nat → List FieldSpec → Bool
  | _, [] => true
  | o, d :: ds => decide (d.offset = o) && gapless (o + kindWidth d.kind) ds

/-- The bytes of the fields of a row. -/
def rowBytes (fields : List FieldSpec) : Nat := (fields.map fun d => kindWidth d.kind).sum

/-- The one optional byte of the catalogue (30_encoding.md R113). -/
def optionalByte : FieldSpec := ⟨.advOptions2, 4, .byte, true⟩

/-- A layout, as the rules R95 to R106 of 30_encoding.md and 43_variants_config.md R199 have them, supplied by the table
or by the configuration (41_dispatch.md R163): fields without gaps from offset 0, each of at least one byte and with a
name of its own; the channel first in a channel-scoped row (R100); no optional byte but that of Capabilities (R113,
60_exceptions.md R265); the row's length is that of the fields that are always there, and all of them fit a payload. -/
structure RowLegal (r : VariantRow) : Prop where
  gapless : gapless 0 r.fields = true
  positive : ∀ d ∈ r.fields, 0 < kindWidth d.kind
  names : r.fields.Pairwise (fun d e => d.name ≠ e.name)
  channel : r.scope = .channelScoped → r.fields.head? = some channelSpec
  optional : ∀ d ∈ r.fields, d.optional = true → r.id = variantId .capabilities ∧ d = optionalByte
  length : r.length = rowBytes (r.fields.filter fun d => !d.optional)
  fits : rowBytes r.fields ≤ 9

/-- A variant table: the 22 rows of R106, perhaps followed by rows for variants the configuration adds, one per id
(41_dispatch.md R163). -/
structure VtabLegal (w : List VariantRow) : Prop where
  catalogue : defaultVtab <+: w
  ids : w.Pairwise (fun a b => a.id ≠ b.id)
  rows : ∀ r ∈ w, RowLegal r

/-- What a statement over every state asks of the configuration: MAX_PAYLOAD, OVERHEAD, MIN_DECODE and ERR_TYPE_RANGE as
10_state.md R36 has them, any registry under R161, a variant table with the 22 rows of R106, and a layout for every
variant the registry names (41_dispatch.md R163). SYNC and SYSRESET_FILL may have any value: no claim rests on theirs.
It is less than the spec asks (ConfigAdmitted), so that a statement holds for "every such registry" (R161). -/
structure ConfigLegal (c : Config) : Prop where
  maxPayload : c.maxPayload = 9#4
  overhead : c.overhead = 4#3
  minDecode : c.minDecode = 5#3
  errTypeRange : c.errTypeRange = .malformed
  registry : RegistryLegal c.registry
  vtab : VtabLegal c.vtab
  layouts : ∀ e ∈ c.registry, ∃ r ∈ c.vtab, r.id = e.variant

/-- The configurations the spec admits: legal, and an extension of the default registry, no entry of which may be
changed or removed (41_dispatch.md R163, 70_reset_and_hazards.md R291). -/
structure ConfigAdmitted (c : Config) : Prop where
  legal : ConfigLegal c
  extendsDefault : ∀ e ∈ defaultRegistry, e ∈ c.registry

/-- A request whose operands fit their ports (10_state.md R31). -/
def requestWf (c : Config) : Request → Bool
  | .select _ ports => byteFits ports.type && txFits ports.txpay
  | .word _ => true
  | .call o => o.wf c

/-- What the result ports can hold together after a transaction (10_state.md R32, 60_exceptions.md R262, R268): an
error holds STATUS and INFO alone and its class is INFO's; lengths agree with the sequences they count and keep to
the widths of R32; a frame's bytes exclusive-or to zero (40_codec_ops.md R135). -/
inductive ResultShape (c : Config) : Results → Prop where
  | empty : ResultShape c {}
  | error (i : Info) : ResultShape c { status := some (infoClass i), info := some i }
  | cksum (b : Byte) : ResultShape c { status := some .ok, cksum := some b }
  | frame (f : Bytes) : 4 ≤ f.length → f.length ≤ 13 → xor8 f = 0#8 →
      ResultShape c { status := some .ok, frame := some f, frameLen := some f.length }
  | decoded (t : Byte) (p : Payload) : p.length ≤ 9 →
      ResultShape c { status := some .ok, rtype := some t, rpay := some p, rlen := some p.length,
                      consumed := some (p.length + 4) }
  | lookup (t : Byte) (v : BitVec 5) : registryEntry c t = some v →
      ResultShape c { status := some .ok, variant := some v }
  | resolved (t : Byte) (v : BitVec 5) (p : Payload) : registryEntry c t = some v → p.length ≤ 9 →
      ResultShape c { status := some .ok, variant := some v, rtype := some t, rpay := some p, rlen := some p.length,
                      consumed := some (p.length + 4) }
  | message (t : Int) (p : Payload) : 1 ≤ p.length → p.length ≤ 9 →
      ResultShape c { status := some .ok, payout := some p, msgType := some t }
  | payout (p : Payload) : p.length ≤ 9 → ResultShape c { status := some .ok, payout := some p }
  | fields (fs : List (Field × FieldVal)) : ResultShape c { status := some .ok, fields := some fs }

/-- The invariant of the machine. -/
structure Inv (s : State) : Prop where
  config : ConfigAdmitted s.cfg
  requests : ∀ r ∈ s.requests, requestWf s.cfg r = true
  results : ResultShape s.cfg s.res

/-! Answers, as next states: each writes the result ports it names, and no other port holds a value. -/

/-- OK with a payload in PAYOUT. -/
def okPayout (s : State) (p : Payload) : State := { s with res := { status := some .ok, payout := some p } }

/-- OK with field results. -/
def okFields (s : State) (fs : List (Field × FieldVal)) : State :=
  { s with res := { status := some .ok, fields := some fs } }

/-- OK with a decoded message: type, payload, its length, and the bytes consumed. -/
def okMessage (s : State) (t : Byte) (p : Payload) (k : Nat) : State :=
  { s with res := { status := some .ok, rtype := some t, rpay := some p, rlen := some p.length, consumed := some k } }

/-- OK with a decoded message and its variant. -/
def okVariant (s : State) (v : BitVec 5) (t : Byte) (p : Payload) (k : Nat) : State :=
  { s with res := { status := some .ok, variant := some v, rtype := some t, rpay := some p,
                    rlen := some p.length, consumed := some k } }

/-- An error class with its INFO. -/
def answers (s : State) (c : Status) (i : Info) : State := { s with res := { status := some c, info := some i } }

/-- A field of a variant, by its qualified name. -/
def fieldIn (v : Variant) (n : FieldName) : Field := ⟨.variant v, n⟩

/-- A frame written out byte by byte (30_encoding.md R90, R94), the form the claims use. -/
def frameBytes (sync t : Byte) (p : Payload) : Bytes :=
  [sync, BitVec.ofNat 8 p.length, t] ++ p ++ [sync ^^^ BitVec.ofNat 8 p.length ^^^ t ^^^ p.foldr (· ^^^ ·) 0#8]

/-- A valid frame (30_encoding.md R108): at least 4 bytes, byte 0 SYNC, byte 1 at most 9, at least byte 1 plus 4
bytes, and byte 3 + byte 1 the exclusive-or of those before it. -/
def ValidFrame (sync : Byte) (f : Bytes) : Prop :=
  4 ≤ f.length ∧ f[0]? = some sync ∧
  ∃ len : Byte, f[1]? = some len ∧ len.toNat ≤ 9 ∧ len.toNat + 4 ≤ f.length ∧
    f[3 + len.toNat]? = some ((f.take (3 + len.toNat)).foldr (· ^^^ ·) 0#8)

/-- What VIEW.v answers on the payload BUILD.v makes of `xs`: every field with its value; no field for SystemReset
(44_variants_control_data.md R220); for Capabilities also `adv2-present`, and adv-options-2 as 0 where it was not given
(45_variants_event_response.md R245). -/
def viewOf (c : Config) (v : Variant) (xs : List FieldVal) : List (Field × FieldVal) :=
  match rowOf c v, v with
  | none, _ => []
  | some _, .systemReset => []
  | some r, .capabilities =>
    List.zipWith (fun d x => (fieldIn .capabilities d.name, x)) r.fields
      (xs ++ if xs.length = 4 then [.num 0] else []) ++
      [(fieldIn .capabilities .adv2Present, .flag (decide (xs.length = 5)))]
  | some r, v => List.zipWith (fun d x => (fieldIn v d.name, x)) r.fields xs

/-! The causes of each operation (60_exceptions.md R263). -/

/-- A value outside the range of a field (43_variants_config.md R198). -/
def OutOfRange : FieldKind → FieldVal → Prop
  | .byte, .num v => v < 0 ∨ 255 < v
  | .half, .num v => v < 0 ∨ 65535 < v
  | .str k, .str s => s.length ≠ k
  | _, _ => True

/-- The payload does not reach the field's last offset (60_exceptions.md R265), and is not the payload of exactly 4 bytes
on which the optional byte is defined (45_variants_event_response.md R245). -/
def NotReached (d : FieldSpec) (p : Payload) : Prop :=
  p.length < d.offset + kindWidth d.kind ∧ (d.optional = true → p.length ≠ d.offset)

/-- The errors DECODE can raise on a buffer, each with its cause. -/
def decodeRaises (c : Config) (buf : Bytes) : Info → Prop
  | .header => buf.length < 5
  | .syncMismatch => ∃ b : Byte, buf[0]? = some b ∧ b ≠ c.sync
  | .lenRange n => ∃ b : Byte, buf[1]? = some b ∧ n = b.toNat ∧ 9 < n
  | .body n => ∃ b : Byte, buf[1]? = some b ∧ n = b.toNat + 4 ∧ buf.length < n
  | .checksumMismatch => ∃ b k : Byte, buf[1]? = some b ∧ buf[b.toNat + 3]? = some k ∧
      (buf.take (3 + b.toNat)).foldr (· ^^^ ·) 0#8 ≠ k
  | .typeRange => False
  | .fieldRange _ => False
  | .unknownType _ => False

/-- The errors an operation on the fields of a variant can raise: BUILD names a field whose value is out of range, SET
the field it sets; VIEW and GET raise none. -/
def rowRaises (v : Variant) (fields : List FieldSpec) (info : Info) : FieldOp → Prop
  | .build xs => ∃ z ∈ fields.zip xs, info = .fieldRange (fieldIn v z.1.name) ∧ OutOfRange z.1.kind z.2
  | .view _ => False
  | .get _ _ => False
  | .set n _ x => info = .fieldRange (fieldIn v n) ∧ ∃ d ∈ fields, d.name = n ∧ OutOfRange d.kind x

/-- The model faults an operation on the fields of a variant can end in: VIEW names a field the payload does not reach,
GET and SET the field they access; BUILD ends in none, nor does VIEW of SystemReset, which reads nothing. -/
def rowFaults (v : Variant) (fields : List FieldSpec) (f : Fault) : FieldOp → Prop
  | .build _ => False
  | .view p => v ≠ .systemReset ∧ ∃ d ∈ fields, f = .fieldAbsent (fieldIn v d.name) ∧ NotReached d p
  | .get n p => f = .fieldAbsent (fieldIn v n) ∧ ∃ d ∈ fields, d.name = n ∧ NotReached d p
  | .set n p _ => f = .fieldAbsent (fieldIn v n) ∧ ∃ d ∈ fields, d.name = n ∧ NotReached d p

/-- The errors an operation can raise, each with its cause. -/
def MayRaise (c : Config) (o : Operation) (info : Info) : Prop :=
  match o with
  | .instr (.encode t p) => (info = .lenRange p.length ∧ 9 < p.length) ∨ (info = .typeRange ∧ (t < 0 ∨ 255 < t))
  | .instr (.decode buf) => decodeRaises c buf info
  | .instr (.resolve buf) => decodeRaises c buf info ∨
      ∃ t : Byte, info = .unknownType t ∧ buf[2]? = some t ∧ (∃ (p : Payload) (k : Nat), decodeFrame c buf = .ok ⟨t, p, k⟩) ∧
        ∀ v : BitVec 5, (⟨t, v⟩ : RegEntry) ∉ c.registry
  | .instr (.lookup t) => info = .unknownType t ∧ ∀ v : BitVec 5, (⟨t, v⟩ : RegEntry) ∉ c.registry
  | .instr (.cksum _) => False
  | .instr (.chbuild _ chan extra) =>
    (info = .fieldRange ⟨.channelLayer, .channel⟩ ∧ (chan < 0 ∨ 255 < chan)) ∨
    (info = .lenRange (1 + extra.length) ∧ 8 < extra.length)
  | .instr (.chview _) => False
  | .instr (.chset _ chan) => info = .fieldRange ⟨.channelLayer, .channel⟩ ∧ (chan < 0 ∨ 255 < chan)
  | o => ∃ (v : Variant) (op : FieldOp) (r : VariantRow),
      rowOp o = some (v, op) ∧ rowOf c v = some r ∧ rowRaises v r.fields info op

/-- The model faults an operation can end in, each with its cause. -/
def MayFault (c : Config) (o : Operation) (f : Fault) : Prop :=
  match o with
  | .instr (.chview p) => p = [] ∧ f = .fieldAbsent ⟨.channelLayer, .channel⟩
  | .instr (.chset p _) => p = [] ∧ f = .fieldAbsent ⟨.channelLayer, .channel⟩
  | o => ∃ (v : Variant) (op : FieldOp) (r : VariantRow),
      rowOp o = some (v, op) ∧ rowOf c v = some r ∧ rowFaults v r.fields f op

/-! Access to one field at payload offset `o`, for an operation given as an instruction of its operands. Each says
what the operation answers for every payload and, for SET, every operand. -/

/-- GET of a one-byte field (30_encoding.md R96, 43_variants_config.md R197). -/
def GetsByte (get : Payload → Instr) (f : Field) (o : Nat) (s : State) : Prop :=
  (∀ (pre : Bytes) (b : Byte) (post : Bytes), pre.length = o →
    exec (get (pre ++ b :: post)) s = .next (okFields s [(f, .num b.toNat)])) ∧
  (∀ p : Payload, p.length ≤ o → exec (get p) s = .fault (.fieldAbsent f))

/-- GET of a two-byte little-endian field (R97, R197): the byte at the lower offset is the less significant. -/
def GetsHalf (get : Payload → Instr) (f : Field) (o : Nat) (s : State) : Prop :=
  (∀ (pre : Bytes) (lo hi : Byte) (post : Bytes), pre.length = o →
    exec (get (pre ++ lo :: hi :: post)) s = .next (okFields s [(f, .num (hi ++ lo).toNat)])) ∧
  (∀ p : Payload, p.length ≤ o + 1 → exec (get p) s = .fault (.fieldAbsent f))

/-- GET of a byte string of `k` bytes (R98, R197). -/
def GetsStr (k : Nat) (get : Payload → Instr) (f : Field) (o : Nat) (s : State) : Prop :=
  (∀ pre str post : Bytes, pre.length = o → str.length = k →
    exec (get (pre ++ str ++ post)) s = .next (okFields s [(f, .str str)])) ∧
  (∀ p : Payload, p.length < o + k → exec (get p) s = .fault (.fieldAbsent f))

/-- SET of a one-byte field: range, then presence, then the write (43_variants_config.md R198). -/
def SetsByte (set : Payload → Int → Instr) (f : Field) (o : Nat) (s : State) : Prop :=
  (∀ (pre : Bytes) (b : Byte) (post : Bytes) (v : Byte), pre.length = o →
    exec (set (pre ++ b :: post) v.toNat) s = .next (okPayout s (pre ++ v :: post))) ∧
  (∀ (p : Payload) (v : Byte), p.length ≤ o → exec (set p v.toNat) s = .fault (.fieldAbsent f)) ∧
  (∀ (p : Payload) (v : Int), v < 0 ∨ 255 < v →
    exec (set p v) s = .next (answers s .malformed (.fieldRange f)))

/-- SET of a two-byte field (R97, R198). -/
def SetsHalf (set : Payload → Int → Instr) (f : Field) (o : Nat) (s : State) : Prop :=
  (∀ (pre : Bytes) (lo hi : Byte) (post : Bytes) (v : BitVec 16), pre.length = o →
    exec (set (pre ++ lo :: hi :: post) v.toNat) s =
      .next (okPayout s (pre ++ v.extractLsb' 0 8 :: v.extractLsb' 8 8 :: post))) ∧
  (∀ (p : Payload) (v : BitVec 16), p.length ≤ o + 1 → exec (set p v.toNat) s = .fault (.fieldAbsent f)) ∧
  (∀ (p : Payload) (v : Int), v < 0 ∨ 65535 < v →
    exec (set p v) s = .next (answers s .malformed (.fieldRange f)))

/-- SET of a byte string of `k` bytes (R98, R198): a string of another length is out of range. -/
def SetsStr (k : Nat) (set : Payload → Bytes → Instr) (f : Field) (o : Nat) (s : State) : Prop :=
  (∀ pre old post str : Bytes, pre.length = o → old.length = k → str.length = k →
    exec (set (pre ++ old ++ post) str) s = .next (okPayout s (pre ++ str ++ post))) ∧
  (∀ (p : Payload) (str : Bytes), str.length = k → p.length < o + k → exec (set p str) s = .fault (.fieldAbsent f)) ∧
  (∀ (p : Payload) (str : Bytes), str.length ≠ k →
    exec (set p str) s = .next (answers s .malformed (.fieldRange f)))

end Sys2Proof.Safety
end

