-- ==== Sys2Proof/Certificates/Slice0/Obligations.lean ====
section
/-! DEFINITION. The statements for the provers, from the numbered rules of spec/. A statement over every state asks for
a legal configuration (Safety.ConfigLegal) where it reads one; that every step keeps it legal is
Obligations.StepKeepsInvariant, and that reset has it Obligations.ResetStateAndInvariant. -/

open Sys2Proof Sys2Proof.Machine Sys2Proof.Safety

/-- CKSUM (40_codec_ops.md R130), by recursion on the sequence. That the operation writes no status and its transaction presents OK is log entry 5 (DEDUCED: R130 beside 10_state.md R32, 60_exceptions.md R263); the port of its byte is log entry 6. -/
def Obligations.CksumFoldsExclusiveOr : Prop :=
  ∀ s : State,
    exec (.cksum []) s = .next { s with res := { cksum := some 0#8 } } ∧
    ∀ (a : Byte) (b : Bytes), ∃ c : Byte,
      exec (.cksum b) s = .next { s with res := { cksum := some c } } ∧
      exec (.cksum (a :: b)) s = .next { s with res := { cksum := some (a ^^^ c) } } ∧
      exec (.cksum (b ++ [c])) s = .next { s with res := { cksum := some 0#8 } } ∧
      (∀ b' : Bytes, b'.Perm b → exec (.cksum b') s = .next { s with res := { cksum := some c } }) ∧
      ∀ rest : List Request, s.requests = .call (.instr (.cksum b)) :: rest →
        step s = .next { s with requests := rest, res := { status := some .ok, cksum := some c } }

/-- ENCODE on OK (40_codec_ops.md R134). -/
def Obligations.EncodeProducesFrame : Prop :=
  ∀ s : State, ConfigLegal s.cfg → ∀ (t : Byte) (p : Payload), p.length ≤ 9 →
    exec (.encode t.toNat p) s =
      .next { s with res := { status := some .ok, frame := some (frameBytes s.cfg.sync t p),
                              frameLen := some (p.length + 4) } } ∧
    (frameBytes s.cfg.sync t p).length = p.length + 4

/-- The checks of ENCODE and their order (40_codec_ops.md R132, R133). -/
def Obligations.EncodeRejectsLengthThenType : Prop :=
  ∀ s : State, ConfigLegal s.cfg →
    (∀ (t : Int) (p : Payload), 9 < p.length →
      exec (.encode t p) s = .next (answers s .malformed (.lenRange p.length))) ∧
    (∀ (t : Int) (p : Payload), p.length ≤ 9 → t < 0 ∨ 255 < t →
      exec (.encode t p) s = .next (answers s .malformed .typeRange)) ∧
    (∀ (t : Int) (p : Payload), p.length ≤ 9 → 0 ≤ t → t ≤ 255 →
      ∃ x : State, exec (.encode t p) s = .next x ∧ x.res.status = some .ok)

/-- The properties of ENCODE (40_codec_ops.md R135). -/
def Obligations.EncodeTotalInjectiveValid : Prop :=
  ∀ s : State, ConfigLegal s.cfg →
    (∀ (t : Int) (p : Payload), ∃ x : State, exec (.encode t p) s = .next x ∧
      (x.res.status = some .ok ∨ x.res.status = some .malformed) ∧
      (0 ≤ t → t ≤ 255 → p.length ≤ 9 → x.res.status = some .ok) ∧
      ∀ (r : List RegEntry) (w : List VariantRow), ∃ y : State,
        exec (.encode t p) { s with cfg := { s.cfg with registry := r, vtab := w } } = .next y ∧ y.res = x.res) ∧
    (∀ (t t' : Int) (p p' : Payload) (x x' : State) (f : Bytes),
      exec (.encode t p) s = .next x → exec (.encode t' p') s = .next x' →
      x.res.frame = some f → x'.res.frame = some f → t = t' ∧ p = p') ∧
    (∀ (t : Int) (p : Payload) (x : State) (f : Bytes),
      exec (.encode t p) s = .next x → x.res.frame = some f →
      f.foldr (· ^^^ ·) 0#8 = 0#8 ∧ ValidFrame s.cfg.sync f)

/-- The early checks of DECODE (40_codec_ops.md R137 to R140). -/
def Obligations.DecodeFirstFourChecks : Prop :=
  ∀ s : State, ConfigLegal s.cfg →
    (∀ buf : Bytes, buf.length < 5 → exec (.decode buf) s = .next (answers s .incomplete .header)) ∧
    (∀ (sync len t : Byte) (rest : Bytes), 2 ≤ rest.length → sync ≠ s.cfg.sync →
      exec (.decode (sync :: len :: t :: rest)) s = .next (answers s .corrupted .syncMismatch)) ∧
    (∀ (len t : Byte) (rest : Bytes), 2 ≤ rest.length → 9 < len.toNat →
      exec (.decode (s.cfg.sync :: len :: t :: rest)) s = .next (answers s .malformed (.lenRange len.toNat))) ∧
    (∀ (len t : Byte) (rest : Bytes), 2 ≤ rest.length → len.toNat ≤ 9 → rest.length < len.toNat + 1 →
      exec (.decode (s.cfg.sync :: len :: t :: rest)) s =
        .next (answers s .incomplete (.body (len.toNat + 4))))

/-- The last steps of DECODE (40_codec_ops.md R142, R143). -/
def Obligations.DecodeChecksumThenSuccess : Prop :=
  ∀ s : State, ConfigLegal s.cfg →
    ∀ (t k : Byte) (p : Payload) (rest : Bytes), p.length ≤ 9 → 1 ≤ p.length + rest.length →
      (k ≠ s.cfg.sync ^^^ BitVec.ofNat 8 p.length ^^^ t ^^^ p.foldr (· ^^^ ·) 0#8 →
        exec (.decode ([s.cfg.sync, BitVec.ofNat 8 p.length, t] ++ p ++ k :: rest)) s =
          .next (answers s .corrupted .checksumMismatch)) ∧
      (k = s.cfg.sync ^^^ BitVec.ofNat 8 p.length ^^^ t ^^^ p.foldr (· ^^^ ·) 0#8 →
        exec (.decode ([s.cfg.sync, BitVec.ofNat 8 p.length, t] ++ p ++ k :: rest)) s =
          .next (okMessage s t p (p.length + 4)))

/-- The partition of all buffers (40_codec_ops.md R144, R145). -/
def Obligations.DecodePartitionsBuffers : Prop :=
  ∀ s : State, ConfigLegal s.cfg → ∀ buf : Bytes,
    exec (.decode buf) s =
      .next
        (if buf.length ≤ 4 then (answers s .incomplete .header)
         else if buf.getD 0 0#8 ≠ s.cfg.sync then (answers s .corrupted .syncMismatch)
         else if 10 ≤ (buf.getD 1 0#8).toNat then
           (answers s .malformed (.lenRange (buf.getD 1 0#8).toNat))
         else if buf.length < (buf.getD 1 0#8).toNat + 4 then
           (answers s .incomplete (.body ((buf.getD 1 0#8).toNat + 4)))
         else if (buf.take ((buf.getD 1 0#8).toNat + 4)).foldr (· ^^^ ·) 0#8 ≠ 0#8 then
           (answers s .corrupted .checksumMismatch)
         else (okMessage s (buf.getD 2 0#8) ((buf.drop 3).take (buf.getD 1 0#8).toNat)
                ((buf.getD 1 0#8).toNat + 4)))

/-- The round trip as it truly holds (40_codec_ops.md R147, 90_conflicts.md C2). -/
def Obligations.EncodeDecodeRoundTrip : Prop :=
  ∀ s : State, ConfigLegal s.cfg → ∀ (t : Byte) (p : Payload), p.length ≤ 9 →
    ∃ (x : State) (f : Bytes), exec (.encode t.toNat p) s = .next x ∧ x.res.frame = some f ∧
      (1 ≤ p.length → exec (.decode f) s =
        .next (okMessage s t p (p.length + 4))) ∧
      (∀ r : Bytes, r ≠ [] → exec (.decode (f ++ r)) s =
        .next (okMessage s t p (p.length + 4))) ∧
      (p = [] → exec (.decode f) s = .next (answers s .incomplete .header))

/-- The inverse direction (40_codec_ops.md R148). -/
def Obligations.DecodedBytesReencode : Prop :=
  ∀ s : State, ConfigLegal s.cfg → ∀ (buf : Bytes) (x : State) (t : Byte) (p : Payload) (k : Nat),
    exec (.decode buf) s = .next x → x.res.rtype = some t → x.res.rpay = some p → x.res.consumed = some k →
    k = p.length + 4 ∧ max k 5 ≤ buf.length ∧
    exec (.encode t.toNat p) s =
      .next { s with res := { status := some .ok, frame := some (buf.take k), frameLen := some k } }

/-- The table of single-bit flips (40_codec_ops.md R149, 90_conflicts.md C3). Bit `j` of byte `i` of the frame is inverted. -/
def Obligations.SingleBitFlipOutcomes : Prop :=
  ∀ s : State, ConfigLegal s.cfg → ∀ (t : Byte) (p : Payload), p.length ≤ 9 →
    ∀ (i j : Nat) (b : Byte), j < 8 → (frameBytes s.cfg.sync t p)[i]? = some b →
    let buf := (frameBytes s.cfg.sync t p).set i (b ^^^ BitVec.twoPow 8 j)
    let len := (b ^^^ BitVec.twoPow 8 j).toNat
    exec (.decode buf) s =
      .next
        (if p.length = 0 then (answers s .incomplete .header)
         else if i = 0 then (answers s .corrupted .syncMismatch)
         else if i ≠ 1 then (answers s .corrupted .checksumMismatch)
         else if 10 ≤ len then (answers s .malformed (.lenRange len))
         else if p.length < len then (answers s .incomplete (.body (len + 4)))
         else if p[len]? = some (s.cfg.sync ^^^ BitVec.ofNat 8 len ^^^ t ^^^ (p.take len).foldr (· ^^^ ·) 0#8) then
           (okMessage s t (p.take len) (len + 4))
         else (answers s .corrupted .checksumMismatch))

/-- What the checksum sees and misses (from 40_codec_ops.md R150; SYNC, LENGTH and TYPE as sent). -/
def Obligations.ChecksumDetectsExactlyOddPatterns : Prop :=
  ∀ s : State, ConfigLegal s.cfg → ∀ (t : Byte) (p p' : Payload) (e : Byte), 1 ≤ p.length → p.length ≤ 9 →
    p'.length = p.length →
    let sum := s.cfg.sync ^^^ BitVec.ofNat 8 p.length ^^^ t ^^^ p.foldr (· ^^^ ·) 0#8
    let buf := [s.cfg.sync, BitVec.ofNat 8 p.length, t] ++ p' ++ [sum ^^^ e]
    exec (.decode buf) s =
      .next
        (if (List.zipWith (· ^^^ ·) p p').foldr (· ^^^ ·) e = 0#8 then
           (okMessage s t p' (p'.length + 4))
         else (answers s .corrupted .checksumMismatch))

/-- Use on a stream (40_codec_ops.md R151). -/
def Obligations.StreamOfTwoFrames : Prop :=
  ∀ s : State, ConfigLegal s.cfg → ∀ (t u : Byte) (p q : Payload) (r : Bytes), p.length ≤ 9 → q.length ≤ 9 →
    let f := frameBytes s.cfg.sync t p
    let g := frameBytes s.cfg.sync u q
    exec (.decode (f ++ g ++ r)) s =
      .next (okMessage s t p f.length) ∧
    (5 ≤ (g ++ r).length →
      exec (.decode ((f ++ g ++ r).drop f.length)) s =
        .next (okMessage s u q g.length)) ∧
    ((g ++ r).length < 5 ↔ q = [] ∧ r = []) ∧
    ((g ++ r).length < 5 →
      exec (.decode ((f ++ g ++ r).drop f.length)) s = .next (answers s .incomplete .header))

/-- The 13-byte window (20_memory.md R78; for RESOLVE 41_dispatch.md R168 d). -/
def Obligations.FirstThirteenBytesDecide : Prop :=
  ∀ s : State, ConfigLegal s.cfg → ∀ buf : Bytes,
    exec (.decode buf) s = exec (.decode (buf.take 13)) s ∧ exec (.resolve buf) s = exec (.resolve (buf.take 13)) s

/-- The bound on waiting (70_reset_and_hazards.md R307). -/
def Obligations.ThirteenBytesNeverIncomplete : Prop :=
  ∀ s : State, ConfigLegal s.cfg → ∀ buf : Bytes, 13 ≤ buf.length →
    ∃ x : State, exec (.decode buf) s = .next x ∧
      (x.res.status = some .corrupted ∨ x.res.status = some .malformed ∨ x.res.status = some .ok)

/-- The liveness hazard (70_reset_and_hazards.md R300). -/
def Obligations.ZeroPayloadFrameNeedsAFifthByte : Prop :=
  (∀ r ∈ defaultVtab, 1 ≤ r.length) ∧
  ∀ s : State, ConfigLegal s.cfg → ∀ t : Byte, ∃ (x : State) (f : Bytes),
    exec (.encode t.toNat []) s = .next x ∧ x.res.frame = some f ∧ f.length = 4 ∧
    exec (.decode f) s = .next (answers s .incomplete .header) ∧
    exec (.resolve f) s = .next (answers s .incomplete .header) ∧
    ∀ b : Byte, exec (.decode (f ++ [b])) s =
      .next (okMessage s t [] 4)

/-- LOOKUP (41_dispatch.md R160), through membership in the registry list. -/
def Obligations.LookupAnswersTheRegistry : Prop :=
  ∀ s : State, RegistryLegal s.cfg.registry → ∀ t : Byte,
    (∀ v : BitVec 5, ⟨t, v⟩ ∈ s.cfg.registry →
      exec (.lookup t) s = .next { s with res := { status := some .ok, variant := some v } }) ∧
    ((∀ v : BitVec 5, (⟨t, v⟩ : RegEntry) ∉ s.cfg.registry) →
      exec (.lookup t) s = .next (answers s .unknownType (.unknownType t)))

/-- RESOLVE (41_dispatch.md R164 to R168): total, errors first, then the registry, nothing but the class and the code on an unknown type; (d) and (e) of R168 through the window and the header check. -/
def Obligations.ResolveIsDecodeThenLookup : Prop :=
  ∀ s : State, ConfigLegal s.cfg → ∀ buf : Bytes,
    ∃ x : State, exec (.decode buf) s = .next x ∧
    (x.res.status ≠ some .ok → exec (.resolve buf) s = .next x) ∧
    (∀ (t : Byte) (p : Payload) (k : Nat),
      x.res = { status := some .ok, rtype := some t, rpay := some p, rlen := some p.length, consumed := some k } →
      (∀ v : BitVec 5, ⟨t, v⟩ ∈ s.cfg.registry → exec (.resolve buf) s =
        .next (okVariant s v t p k)) ∧
      ((∀ v : BitVec 5, (⟨t, v⟩ : RegEntry) ∉ s.cfg.registry) →
        exec (.resolve buf) s = .next (answers s .unknownType (.unknownType t)))) ∧
    (x.res.status = some .ok → ∃ (t : Byte) (p : Payload) (k : Nat),
      x.res = { status := some .ok, rtype := some t, rpay := some p, rlen := some p.length, consumed := some k }) ∧
    exec (.resolve buf) s = exec (.resolve (buf.take 13)) s ∧
    (buf.length ≤ 4 → exec (.resolve buf) s = .next (answers s .incomplete .header)) ∧
    (∀ y : State, exec (.resolve buf) s = .next y → y.res.status = some .unknownType → x.res.status = some .ok)

/-- No check beyond DECODE and LOOKUP (30_encoding.md R112, 41_dispatch.md R167). -/
def Obligations.ResolveMakesNoLengthCheck : Prop :=
  ∀ s : State, ConfigLegal s.cfg → ∀ (t : Byte) (v : BitVec 5) (p : Payload) (r : Bytes),
    ⟨t, v⟩ ∈ s.cfg.registry → p.length ≤ 9 → 1 ≤ p.length + r.length →
    exec (.resolve (frameBytes s.cfg.sync t p ++ r)) s =
      .next (okVariant s v t p (p.length + 4))

/-- The default registry (41_dispatch.md R162); all codes but 0x4B are PRESUMED (log entry 1). -/
def Obligations.DefaultRegistryAnswers : Prop :=
  ∀ s : State, s.cfg.registry = defaultRegistry → ∀ t : Byte,
    exec (.lookup t) s =
      .next
        (match ([(0x3E#8, 18#5), (0x40#8, 16#5), (0x41#8, 0#5), (0x42#8, 1#5), (0x43#8, 3#5), (0x44#8, 4#5),
          (0x45#8, 5#5), (0x46#8, 7#5), (0x47#8, 8#5), (0x4A#8, 9#5), (0x4B#8, 10#5),
                 (0x4C#8, 11#5), (0x4D#8, 12#5), (0x4E#8, 13#5), (0x4F#8, 14#5), (0x50#8, 15#5), (0x51#8, 2#5),
                   (0x52#8, 17#5), (0x54#8, 20#5), (0x60#8, 6#5), (0x61#8, 21#5),
                   (0x6F#8, 19#5)] : List (Byte × BitVec 5)).lookup t with
         | some v => { s with res := { status := some .ok, variant := some v } }
         | none => (answers s .unknownType (.unknownType t)))

/-- The reset state (10_state.md R36, R42), its registry (41_dispatch.md R162) and variant table (30_encoding.md R106) written out, and the invariant, for the default configuration and for every admitted one (R163). The 21 codes but 0x4B are PRESUMED (log entry 1), and so is SYSRESET_FILL = 0x00 (log entry 2). -/
def Obligations.ResetStateAndInvariant : Prop :=
  State.reset.cfg.sync = 0xA4#8 ∧ State.reset.cfg.maxPayload = 9#4 ∧ State.reset.cfg.overhead = 4#3 ∧
  State.reset.cfg.minDecode = 5#3 ∧ State.reset.cfg.errTypeRange = .malformed ∧
  State.reset.cfg.sysresetFill = 0x00#8 ∧
  State.reset.cfg.registry =
    [⟨0x3E#8, 18#5⟩, ⟨0x40#8, 16#5⟩, ⟨0x41#8, 0#5⟩, ⟨0x42#8, 1#5⟩, ⟨0x43#8, 3#5⟩, ⟨0x44#8, 4#5⟩, ⟨0x45#8, 5#5⟩, ⟨0x46#8, 7#5⟩,
     ⟨0x47#8, 8#5⟩, ⟨0x4A#8, 9#5⟩, ⟨0x4B#8, 10#5⟩, ⟨0x4C#8, 11#5⟩, ⟨0x4D#8, 12#5⟩, ⟨0x4E#8, 13#5⟩, ⟨0x4F#8, 14#5⟩,
     ⟨0x50#8, 15#5⟩, ⟨0x51#8, 2#5⟩, ⟨0x52#8, 17#5⟩, ⟨0x54#8, 20#5⟩, ⟨0x60#8, 6#5⟩, ⟨0x61#8, 21#5⟩, ⟨0x6F#8, 19#5⟩] ∧
  State.reset.cfg.vtab =
    [⟨0#5, .channelScoped, 1, [⟨.channel, 0, .byte, false⟩]⟩,
     ⟨1#5, .channelScoped, 3, [⟨.channel, 0, .byte, false⟩, ⟨.channelType, 1, .byte, false⟩, ⟨.networkNumber, 2,
       .byte, false⟩]⟩,
     ⟨2#5, .channelScoped, 5, [⟨.channel, 0, .byte, false⟩, ⟨.deviceNumber, 1, .half, false⟩, ⟨.deviceType, 3,
       .byte, false⟩, ⟨.transmissionType, 4, .byte, false⟩]⟩,
     ⟨3#5, .channelScoped, 3, [⟨.channel, 0, .byte, false⟩, ⟨.period, 1, .half, false⟩]⟩,
     ⟨4#5, .channelScoped, 2, [⟨.channel, 0, .byte, false⟩, ⟨.timeout, 1, .byte, false⟩]⟩,
     ⟨5#5, .channelScoped, 2, [⟨.channel, 0, .byte, false⟩, ⟨.frequency, 1, .byte, false⟩]⟩,
     ⟨6#5, .channelScoped, 2, [⟨.channel, 0, .byte, false⟩, ⟨.power, 1, .byte, false⟩]⟩,
     ⟨7#5, .nonChannel, 9, [⟨.networkNumber, 0, .byte, false⟩, ⟨.key, 1, .str 8, false⟩]⟩,
     ⟨8#5, .unclassed, 2, [⟨.b0, 0, .byte, false⟩, ⟨.power, 1, .byte, false⟩]⟩,
     ⟨9#5, .unclassed, 1, [⟨.reserved, 0, .byte, false⟩]⟩,
     ⟨10#5, .channelScoped, 1, [⟨.channel, 0, .byte, false⟩]⟩,
     ⟨11#5, .channelScoped, 1, [⟨.channel, 0, .byte, false⟩]⟩,
     ⟨12#5, .channelScoped, 2, [⟨.channel, 0, .byte, false⟩, ⟨.requestedMessageId, 1, .byte, false⟩]⟩,
     ⟨13#5, .channelScoped, 8, [⟨.channel, 0, .byte, false⟩, ⟨.data, 1, .str 7, false⟩]⟩,
     ⟨14#5, .channelScoped, 8, [⟨.channel, 0, .byte, false⟩, ⟨.data, 1, .str 7, false⟩]⟩,
     ⟨15#5, .channelScoped, 8, [⟨.channel, 0, .byte, false⟩, ⟨.data, 1, .str 7, false⟩]⟩,
     ⟨16#5, .channelScoped, 3, [⟨.channel, 0, .byte, false⟩, ⟨.messageId, 1, .byte, false⟩, ⟨.messageCode, 2,
       .byte, false⟩]⟩,
     ⟨17#5, .channelScoped, 2, [⟨.channel, 0, .byte, false⟩, ⟨.status, 1, .byte, false⟩]⟩,
     ⟨18#5, .nonChannel, 9, [⟨.version, 0, .str 9, false⟩]⟩,
     ⟨19#5, .nonChannel, 1, [⟨.startupReason, 0, .byte, false⟩]⟩,
     ⟨20#5, .nonChannel, 4, [⟨.maxChannels, 0, .byte, false⟩, ⟨.maxNetworks, 1, .byte, false⟩, ⟨.stdOptions, 2,
       .byte, false⟩, ⟨.advOptions, 3, .byte, false⟩, ⟨.advOptions2, 4, .byte, true⟩]⟩,
     ⟨21#5, .nonChannel, 4, [⟨.serial, 0, .str 4, false⟩]⟩] ∧
  State.reset.requests = [] ∧ State.reset.res = {} ∧ Inv State.reset ∧
  ∀ c : Config, ConfigAdmitted c →
    (State.resetWith c).cfg = c ∧ (State.resetWith c).requests = [] ∧ (State.resetWith c).res = {} ∧
    Inv (State.resetWith c)

/-- CHBUILD (42_channel_layer.md R181). -/
def Obligations.ChbuildLaysOutChannelFirst : Prop :=
  ∀ s : State, ConfigLegal s.cfg → ∀ (t : Int) (extra : Bytes),
    (∀ chan : Byte, extra.length ≤ 8 →
      exec (.chbuild t chan.toNat extra) s =
        .next { s with res := { status := some .ok, payout := some (chan :: extra), msgType := some t } }) ∧
    (∀ chan : Int, chan < 0 ∨ 255 < chan →
      exec (.chbuild t chan extra) s = .next (answers s .malformed (.fieldRange ⟨.channelLayer, .channel⟩))) ∧
    (∀ chan : Byte, 8 < extra.length →
      exec (.chbuild t chan.toNat extra) s = .next (answers s .malformed (.lenRange (1 + extra.length))))

/-- CHVIEW (42_channel_layer.md R182). -/
def Obligations.ChviewSplitsChannel : Prop :=
  ∀ s : State,
    (∀ (chan : Byte) (extra : Bytes),
      exec (.chview (chan :: extra)) s =
        .next (okFields s [(⟨.channelLayer, .channel⟩, .num chan.toNat), (⟨.channelLayer, .extra⟩, .str extra)])) ∧
    exec (.chview []) s = .fault (.fieldAbsent ⟨.channelLayer, .channel⟩)

/-- CHSET (42_channel_layer.md R183). -/
def Obligations.ChsetReplacesChannel : Prop :=
  ∀ s : State, SetsByte .chset ⟨.channelLayer, .channel⟩ 0 s

/-- The laws of the channel layer (42_channel_layer.md R184), each from whatever the first operation answered. The second holds where CHBUILD accepts the length, which is every payload the block can carry (R10). -/
def Obligations.ChannelLayerLaws : Prop :=
  ∀ s : State, ConfigLegal s.cfg →
    (∀ (t : Int) (c : Byte) (extra : Bytes), extra.length ≤ 8 → ∃ (x : State) (q : Payload),
      exec (.chbuild t c.toNat extra) s = .next x ∧ x.res.payout = some q ∧
      ∃ y : State, exec (.chview q) x = .next y ∧
        y.res.fields = some [(⟨.channelLayer, .channel⟩, .num c.toNat), (⟨.channelLayer, .extra⟩, .str extra)]) ∧
    (∀ (t : Int) (p : Payload), p ≠ [] → p.length ≤ 9 → ∃ (x : State) (chan : Int) (extra : Bytes),
      exec (.chview p) s = .next x ∧
      x.res.fields = some [(⟨.channelLayer, .channel⟩, .num chan), (⟨.channelLayer, .extra⟩, .str extra)] ∧
      ∃ y : State, exec (.chbuild t chan extra) x = .next y ∧ y.res.payout = some p) ∧
    (∀ (p : Payload) (c : Byte), p ≠ [] → ∃ (x : State) (q : Payload) (extra : Bytes) (chan : Int),
      exec (.chset p c.toNat) s = .next x ∧ x.res.payout = some q ∧
      ∃ y z : State, exec (.chview p) s = .next y ∧ exec (.chview q) x = .next z ∧
        y.res.fields = some [(⟨.channelLayer, .channel⟩, .num chan), (⟨.channelLayer, .extra⟩, .str extra)] ∧
        z.res.fields = some [(⟨.channelLayer, .channel⟩, .num c.toNat), (⟨.channelLayer, .extra⟩, .str extra)])

/-- R185 (42_channel_layer.md), both sentences: BUILD is CHBUILD, VIEW is CHVIEW and the split of the rest. -/
def Obligations.ChannelScopedBuildIsChbuild : Prop :=
  ∀ s : State, ConfigLegal s.cfg → ∀ (v : Variant) (r : VariantRow), r ∈ defaultVtab → r.id = variantId v →
    r.scope = .channelScoped →
    (∀ (c : Byte) (xs : List FieldVal) (x : State) (p : Payload) (t : Int),
      buildOp v (.num c.toNat :: xs) s = .next x → x.res.payout = some p →
      ∃ own : Bytes, buildFields v r.fields.tail xs = .ok own ∧
        exec (.chbuild t c.toNat own) s =
          .next { s with res := { status := some .ok, payout := some p, msgType := some t } }) ∧
    (∀ (p : Payload) (y : State) (fs : List (Field × FieldVal)),
      viewOp v p s = .next y → y.res.fields = some fs →
      ∃ (z : State) (c : Byte) (extra : Bytes) (own : List (Field × FieldVal)),
        exec (.chview p) s = .next z ∧
        z.res.fields = some [(⟨.channelLayer, .channel⟩, .num c.toNat), (⟨.channelLayer, .extra⟩, .str extra)] ∧
        fs = (⟨.variant v, .channel⟩, .num c.toNat) :: own ∧
        viewFields v extra (r.fields.tail.map fun d => { d with offset := d.offset - 1 }) = .ok own)

/-- ChannelUnassign (43_variants_config.md R200). That the errors of SET.v.channel, which is CHSET, name the channel of this variant is log entry 7 (DEDUCED). -/
def Obligations.ChannelUnassignOperations : Prop :=
  ∀ s : State, ConfigLegal s.cfg →
    (∀ (a : Byte), exec (.channelUnassign (.build a.toNat)) s =
      .next (okPayout s [a])) ∧
    (∀ (a : Int), a < 0 ∨ 255 < a → exec (.channelUnassign (.build a)) s =
      .next (answers s .malformed (.fieldRange (fieldIn .channelUnassign .channel)))) ∧
    (∀ (a : Byte) (rest : Bytes), exec (.channelUnassign (.view (a :: rest))) s =
      .next (okFields s [((fieldIn .channelUnassign .channel), .num a.toNat)])) ∧
    (∀ p : Payload, p.length < 1 → exec (.channelUnassign (.view p)) s = .fault (.fieldAbsent
      (fieldIn .channelUnassign .channel))) ∧
    GetsByte (fun p => .channelUnassign (.getChannel p)) (fieldIn .channelUnassign .channel) 0 s ∧
    SetsByte (fun p v => .channelUnassign (.setChannel p v)) (fieldIn .channelUnassign .channel) 0 s

/-- ChannelAssign (43_variants_config.md R201). That the errors of SET.v.channel, which is CHSET, name the channel of this variant is log entry 7 (DEDUCED). -/
def Obligations.ChannelAssignOperations : Prop :=
  ∀ s : State, ConfigLegal s.cfg →
    (∀ (a : Byte) (b : Byte) (c : Byte), exec (.channelAssign (.build a.toNat b.toNat c.toNat)) s =
      .next (okPayout s [a, b, c])) ∧
    (∀ (a : Int) (b : Int) (c : Int), a < 0 ∨ 255 < a → exec (.channelAssign (.build a b c)) s =
      .next (answers s .malformed (.fieldRange (fieldIn .channelAssign .channel)))) ∧
    (∀ (a : Int) (b : Int) (c : Int), 0 ≤ a ∧ a ≤ 255 → b < 0 ∨ 255 < b → exec (.channelAssign (.build a b c)) s =
      .next (answers s .malformed (.fieldRange (fieldIn .channelAssign .channelType)))) ∧
    (∀ (a : Int) (b : Int) (c : Int), 0 ≤ a ∧ a ≤ 255 → 0 ≤ b ∧ b ≤ 255 → c < 0 ∨ 255 < c →
      exec (.channelAssign (.build a b c)) s =
      .next (answers s .malformed (.fieldRange (fieldIn .channelAssign .networkNumber)))) ∧
    (∀ (a : Byte) (b : Byte) (c : Byte) (rest : Bytes), exec (.channelAssign (.view (a :: b :: c :: rest))) s =
      .next (okFields s [((fieldIn .channelAssign .channel), .num a.toNat), ((fieldIn .channelAssign .channelType),
        .num b.toNat), ((fieldIn .channelAssign .networkNumber), .num c.toNat)])) ∧
    (∀ p : Payload, p.length < 1 → exec (.channelAssign (.view p)) s = .fault (.fieldAbsent
      (fieldIn .channelAssign .channel))) ∧
    (∀ p : Payload, 1 ≤ p.length → p.length < 2 → exec (.channelAssign (.view p)) s = .fault (.fieldAbsent
      (fieldIn .channelAssign .channelType))) ∧
    (∀ p : Payload, 2 ≤ p.length → p.length < 3 → exec (.channelAssign (.view p)) s = .fault (.fieldAbsent
      (fieldIn .channelAssign .networkNumber))) ∧
    GetsByte (fun p => .channelAssign (.getChannel p)) (fieldIn .channelAssign .channel) 0 s ∧
    SetsByte (fun p v => .channelAssign (.setChannel p v)) (fieldIn .channelAssign .channel) 0 s ∧
    GetsByte (fun p => .channelAssign (.getChannelType p)) (fieldIn .channelAssign .channelType) 1 s ∧
    SetsByte (fun p v => .channelAssign (.setChannelType p v)) (fieldIn .channelAssign .channelType) 1 s ∧
    GetsByte (fun p => .channelAssign (.getNetworkNumber p)) (fieldIn .channelAssign .networkNumber) 2 s ∧
    SetsByte (fun p v => .channelAssign (.setNetworkNumber p v)) (fieldIn .channelAssign .networkNumber) 2 s

/-- ChannelID (43_variants_config.md R202). That the errors of SET.v.channel, which is CHSET, name the channel of this variant is log entry 7 (DEDUCED). -/
def Obligations.ChannelIDOperations : Prop :=
  ∀ s : State, ConfigLegal s.cfg →
    (∀ (a : Byte) (b : BitVec 16) (c : Byte) (d : Byte),
      exec (.channelID (.build a.toNat b.toNat c.toNat d.toNat)) s =
      .next (okPayout s [a, b.extractLsb' 0 8, b.extractLsb' 8 8, c, d])) ∧
    (∀ (a : Int) (b : Int) (c : Int) (d : Int), a < 0 ∨ 255 < a → exec (.channelID (.build a b c d)) s =
      .next (answers s .malformed (.fieldRange (fieldIn .channelID .channel)))) ∧
    (∀ (a : Int) (b : Int) (c : Int) (d : Int), 0 ≤ a ∧ a ≤ 255 → b < 0 ∨ 65535 < b →
      exec (.channelID (.build a b c d)) s =
      .next (answers s .malformed (.fieldRange (fieldIn .channelID .deviceNumber)))) ∧
    (∀ (a : Int) (b : Int) (c : Int) (d : Int), 0 ≤ a ∧ a ≤ 255 → 0 ≤ b ∧ b ≤ 65535 → c < 0 ∨ 255 < c →
      exec (.channelID (.build a b c d)) s =
      .next (answers s .malformed (.fieldRange (fieldIn .channelID .deviceType)))) ∧
    (∀ (a : Int) (b : Int) (c : Int) (d : Int), 0 ≤ a ∧ a ≤ 255 → 0 ≤ b ∧ b ≤ 65535 → 0 ≤ c ∧ c ≤ 255 →
      d < 0 ∨ 255 < d → exec (.channelID (.build a b c d)) s =
      .next (answers s .malformed (.fieldRange (fieldIn .channelID .transmissionType)))) ∧
    (∀ (a : Byte) (lo hi : Byte) (c : Byte) (d : Byte) (rest : Bytes),
      exec (.channelID (.view (a :: lo :: hi :: c :: d :: rest))) s =
      .next (okFields s [((fieldIn .channelID .channel), .num a.toNat), ((fieldIn .channelID .deviceNumber),
        .num (hi ++ lo).toNat), ((fieldIn .channelID .deviceType), .num c.toNat),
        ((fieldIn .channelID .transmissionType), .num d.toNat)])) ∧
    (∀ p : Payload, p.length < 1 → exec (.channelID (.view p)) s = .fault (.fieldAbsent
      (fieldIn .channelID .channel))) ∧
    (∀ p : Payload, 1 ≤ p.length → p.length < 3 → exec (.channelID (.view p)) s = .fault (.fieldAbsent
      (fieldIn .channelID .deviceNumber))) ∧
    (∀ p : Payload, 3 ≤ p.length → p.length < 4 → exec (.channelID (.view p)) s = .fault (.fieldAbsent
      (fieldIn .channelID .deviceType))) ∧
    (∀ p : Payload, 4 ≤ p.length → p.length < 5 → exec (.channelID (.view p)) s = .fault (.fieldAbsent
      (fieldIn .channelID .transmissionType))) ∧
    GetsByte (fun p => .channelID (.getChannel p)) (fieldIn .channelID .channel) 0 s ∧
    SetsByte (fun p v => .channelID (.setChannel p v)) (fieldIn .channelID .channel) 0 s ∧
    GetsHalf (fun p => .channelID (.getDeviceNumber p)) (fieldIn .channelID .deviceNumber) 1 s ∧
    SetsHalf (fun p v => .channelID (.setDeviceNumber p v)) (fieldIn .channelID .deviceNumber) 1 s ∧
    GetsByte (fun p => .channelID (.getDeviceType p)) (fieldIn .channelID .deviceType) 3 s ∧
    SetsByte (fun p v => .channelID (.setDeviceType p v)) (fieldIn .channelID .deviceType) 3 s ∧
    GetsByte (fun p => .channelID (.getTransmissionType p)) (fieldIn .channelID .transmissionType) 4 s ∧
    SetsByte (fun p v => .channelID (.setTransmissionType p v)) (fieldIn .channelID .transmissionType) 4 s

/-- ChannelPeriod (43_variants_config.md R203). That the errors of SET.v.channel, which is CHSET, name the channel of this variant is log entry 7 (DEDUCED). -/
def Obligations.ChannelPeriodOperations : Prop :=
  ∀ s : State, ConfigLegal s.cfg →
    (∀ (a : Byte) (b : BitVec 16), exec (.channelPeriod (.build a.toNat b.toNat)) s =
      .next (okPayout s [a, b.extractLsb' 0 8, b.extractLsb' 8 8])) ∧
    (∀ (a : Int) (b : Int), a < 0 ∨ 255 < a → exec (.channelPeriod (.build a b)) s =
      .next (answers s .malformed (.fieldRange (fieldIn .channelPeriod .channel)))) ∧
    (∀ (a : Int) (b : Int), 0 ≤ a ∧ a ≤ 255 → b < 0 ∨ 65535 < b → exec (.channelPeriod (.build a b)) s =
      .next (answers s .malformed (.fieldRange (fieldIn .channelPeriod .period)))) ∧
    (∀ (a : Byte) (lo hi : Byte) (rest : Bytes), exec (.channelPeriod (.view (a :: lo :: hi :: rest))) s =
      .next (okFields s [((fieldIn .channelPeriod .channel), .num a.toNat), ((fieldIn .channelPeriod .period),
        .num (hi ++ lo).toNat)])) ∧
    (∀ p : Payload, p.length < 1 → exec (.channelPeriod (.view p)) s = .fault (.fieldAbsent
      (fieldIn .channelPeriod .channel))) ∧
    (∀ p : Payload, 1 ≤ p.length → p.length < 3 → exec (.channelPeriod (.view p)) s = .fault (.fieldAbsent
      (fieldIn .channelPeriod .period))) ∧
    GetsByte (fun p => .channelPeriod (.getChannel p)) (fieldIn .channelPeriod .channel) 0 s ∧
    SetsByte (fun p v => .channelPeriod (.setChannel p v)) (fieldIn .channelPeriod .channel) 0 s ∧
    GetsHalf (fun p => .channelPeriod (.getPeriod p)) (fieldIn .channelPeriod .period) 1 s ∧
    SetsHalf (fun p v => .channelPeriod (.setPeriod p v)) (fieldIn .channelPeriod .period) 1 s

/-- ChannelSearchTimeout (43_variants_config.md R204). That the errors of SET.v.channel, which is CHSET, name the channel of this variant is log entry 7 (DEDUCED). -/
def Obligations.ChannelSearchTimeoutOperations : Prop :=
  ∀ s : State, ConfigLegal s.cfg →
    (∀ (a : Byte) (b : Byte), exec (.channelSearchTimeout (.build a.toNat b.toNat)) s =
      .next (okPayout s [a, b])) ∧
    (∀ (a : Int) (b : Int), a < 0 ∨ 255 < a → exec (.channelSearchTimeout (.build a b)) s =
      .next (answers s .malformed (.fieldRange (fieldIn .channelSearchTimeout .channel)))) ∧
    (∀ (a : Int) (b : Int), 0 ≤ a ∧ a ≤ 255 → b < 0 ∨ 255 < b → exec (.channelSearchTimeout (.build a b)) s =
      .next (answers s .malformed (.fieldRange (fieldIn .channelSearchTimeout .timeout)))) ∧
    (∀ (a : Byte) (b : Byte) (rest : Bytes), exec (.channelSearchTimeout (.view (a :: b :: rest))) s =
      .next (okFields s [((fieldIn .channelSearchTimeout .channel), .num a.toNat),
        ((fieldIn .channelSearchTimeout .timeout), .num b.toNat)])) ∧
    (∀ p : Payload, p.length < 1 → exec (.channelSearchTimeout (.view p)) s = .fault (.fieldAbsent
      (fieldIn .channelSearchTimeout .channel))) ∧
    (∀ p : Payload, 1 ≤ p.length → p.length < 2 → exec (.channelSearchTimeout (.view p)) s = .fault (.fieldAbsent
      (fieldIn .channelSearchTimeout .timeout))) ∧
    GetsByte (fun p => .channelSearchTimeout (.getChannel p)) (fieldIn .channelSearchTimeout .channel) 0 s ∧
    SetsByte (fun p v => .channelSearchTimeout (.setChannel p v)) (fieldIn .channelSearchTimeout .channel) 0 s ∧
    GetsByte (fun p => .channelSearchTimeout (.getTimeout p)) (fieldIn .channelSearchTimeout .timeout) 1 s ∧
    SetsByte (fun p v => .channelSearchTimeout (.setTimeout p v)) (fieldIn .channelSearchTimeout .timeout) 1 s

/-- ChannelFrequency (43_variants_config.md R205). That the errors of SET.v.channel, which is CHSET, name the channel of this variant is log entry 7 (DEDUCED). -/
def Obligations.ChannelFrequencyOperations : Prop :=
  ∀ s : State, ConfigLegal s.cfg →
    (∀ (a : Byte) (b : Byte), exec (.channelFrequency (.build a.toNat b.toNat)) s =
      .next (okPayout s [a, b])) ∧
    (∀ (a : Int) (b : Int), a < 0 ∨ 255 < a → exec (.channelFrequency (.build a b)) s =
      .next (answers s .malformed (.fieldRange (fieldIn .channelFrequency .channel)))) ∧
    (∀ (a : Int) (b : Int), 0 ≤ a ∧ a ≤ 255 → b < 0 ∨ 255 < b → exec (.channelFrequency (.build a b)) s =
      .next (answers s .malformed (.fieldRange (fieldIn .channelFrequency .frequency)))) ∧
    (∀ (a : Byte) (b : Byte) (rest : Bytes), exec (.channelFrequency (.view (a :: b :: rest))) s =
      .next (okFields s [((fieldIn .channelFrequency .channel), .num a.toNat),
        ((fieldIn .channelFrequency .frequency), .num b.toNat)])) ∧
    (∀ p : Payload, p.length < 1 → exec (.channelFrequency (.view p)) s = .fault (.fieldAbsent
      (fieldIn .channelFrequency .channel))) ∧
    (∀ p : Payload, 1 ≤ p.length → p.length < 2 → exec (.channelFrequency (.view p)) s = .fault (.fieldAbsent
      (fieldIn .channelFrequency .frequency))) ∧
    GetsByte (fun p => .channelFrequency (.getChannel p)) (fieldIn .channelFrequency .channel) 0 s ∧
    SetsByte (fun p v => .channelFrequency (.setChannel p v)) (fieldIn .channelFrequency .channel) 0 s ∧
    GetsByte (fun p => .channelFrequency (.getFrequency p)) (fieldIn .channelFrequency .frequency) 1 s ∧
    SetsByte (fun p v => .channelFrequency (.setFrequency p v)) (fieldIn .channelFrequency .frequency) 1 s

/-- ChannelTXPower (43_variants_config.md R206). That the errors of SET.v.channel, which is CHSET, name the channel of this variant is log entry 7 (DEDUCED). -/
def Obligations.ChannelTXPowerOperations : Prop :=
  ∀ s : State, ConfigLegal s.cfg →
    (∀ (a : Byte) (b : Byte), exec (.channelTXPower (.build a.toNat b.toNat)) s =
      .next (okPayout s [a, b])) ∧
    (∀ (a : Int) (b : Int), a < 0 ∨ 255 < a → exec (.channelTXPower (.build a b)) s =
      .next (answers s .malformed (.fieldRange (fieldIn .channelTXPower .channel)))) ∧
    (∀ (a : Int) (b : Int), 0 ≤ a ∧ a ≤ 255 → b < 0 ∨ 255 < b → exec (.channelTXPower (.build a b)) s =
      .next (answers s .malformed (.fieldRange (fieldIn .channelTXPower .power)))) ∧
    (∀ (a : Byte) (b : Byte) (rest : Bytes), exec (.channelTXPower (.view (a :: b :: rest))) s =
      .next (okFields s [((fieldIn .channelTXPower .channel), .num a.toNat), ((fieldIn .channelTXPower .power),
        .num b.toNat)])) ∧
    (∀ p : Payload, p.length < 1 → exec (.channelTXPower (.view p)) s = .fault (.fieldAbsent
      (fieldIn .channelTXPower .channel))) ∧
    (∀ p : Payload, 1 ≤ p.length → p.length < 2 → exec (.channelTXPower (.view p)) s = .fault (.fieldAbsent
      (fieldIn .channelTXPower .power))) ∧
    GetsByte (fun p => .channelTXPower (.getChannel p)) (fieldIn .channelTXPower .channel) 0 s ∧
    SetsByte (fun p v => .channelTXPower (.setChannel p v)) (fieldIn .channelTXPower .channel) 0 s ∧
    GetsByte (fun p => .channelTXPower (.getPower p)) (fieldIn .channelTXPower .power) 1 s ∧
    SetsByte (fun p v => .channelTXPower (.setPower p v)) (fieldIn .channelTXPower .power) 1 s

/-- NetworkKey (43_variants_config.md R207). -/
def Obligations.NetworkKeyOperations : Prop :=
  ∀ s : State, ConfigLegal s.cfg →
    (∀ (a : Byte) (b : Bytes), b.length = 8 → exec (.networkKey (.build a.toNat b)) s =
      .next (okPayout s (a :: b))) ∧
    (∀ (a : Int) (b : Bytes), a < 0 ∨ 255 < a → exec (.networkKey (.build a b)) s =
      .next (answers s .malformed (.fieldRange (fieldIn .networkKey .networkNumber)))) ∧
    (∀ (a : Int) (b : Bytes), 0 ≤ a ∧ a ≤ 255 → b.length ≠ 8 → exec (.networkKey (.build a b)) s =
      .next (answers s .malformed (.fieldRange (fieldIn .networkKey .key)))) ∧
    (∀ (a : Byte) (b : Bytes) (rest : Bytes), b.length = 8 → exec (.networkKey (.view (a :: (b ++ rest)))) s =
      .next (okFields s [((fieldIn .networkKey .networkNumber), .num a.toNat), ((fieldIn .networkKey .key),
        .str b)])) ∧
    (∀ p : Payload, p.length < 1 → exec (.networkKey (.view p)) s = .fault (.fieldAbsent
      (fieldIn .networkKey .networkNumber))) ∧
    (∀ p : Payload, 1 ≤ p.length → p.length < 9 → exec (.networkKey (.view p)) s = .fault (.fieldAbsent
      (fieldIn .networkKey .key))) ∧
    GetsByte (fun p => .networkKey (.getNetworkNumber p)) (fieldIn .networkKey .networkNumber) 0 s ∧
    SetsByte (fun p v => .networkKey (.setNetworkNumber p v)) (fieldIn .networkKey .networkNumber) 0 s ∧
    GetsStr 8 (fun p => .networkKey (.getKey p)) (fieldIn .networkKey .key) 1 s ∧
    SetsStr 8 (fun p v => .networkKey (.setKey p v)) (fieldIn .networkKey .key) 1 s

/-- TXPower (43_variants_config.md R208). -/
def Obligations.TXPowerOperations : Prop :=
  ∀ s : State, ConfigLegal s.cfg →
    (∀ (a : Byte) (b : Byte), exec (.txPower (.build a.toNat b.toNat)) s =
      .next (okPayout s [a, b])) ∧
    (∀ (a : Int) (b : Int), a < 0 ∨ 255 < a → exec (.txPower (.build a b)) s =
      .next (answers s .malformed (.fieldRange (fieldIn .txPower .b0)))) ∧
    (∀ (a : Int) (b : Int), 0 ≤ a ∧ a ≤ 255 → b < 0 ∨ 255 < b → exec (.txPower (.build a b)) s =
      .next (answers s .malformed (.fieldRange (fieldIn .txPower .power)))) ∧
    (∀ (a : Byte) (b : Byte) (rest : Bytes), exec (.txPower (.view (a :: b :: rest))) s =
      .next (okFields s [((fieldIn .txPower .b0), .num a.toNat), ((fieldIn .txPower .power), .num b.toNat)])) ∧
    (∀ p : Payload, p.length < 1 → exec (.txPower (.view p)) s = .fault (.fieldAbsent (fieldIn .txPower .b0))) ∧
    (∀ p : Payload, 1 ≤ p.length → p.length < 2 → exec (.txPower (.view p)) s = .fault (.fieldAbsent
      (fieldIn .txPower .power))) ∧
    GetsByte (fun p => .txPower (.getB0 p)) (fieldIn .txPower .b0) 0 s ∧
    SetsByte (fun p v => .txPower (.setB0 p v)) (fieldIn .txPower .b0) 0 s ∧
    GetsByte (fun p => .txPower (.getPower p)) (fieldIn .txPower .power) 1 s ∧
    SetsByte (fun p v => .txPower (.setPower p v)) (fieldIn .txPower .power) 1 s

/-- SystemReset (44_variants_control_data.md R220). -/
def Obligations.SystemResetOperations : Prop :=
  ∀ s : State, ConfigLegal s.cfg →
    (∀ a : Byte, exec (.systemReset (.build (some a.toNat))) s = .next (okPayout s [a])) ∧
    exec (.systemReset (.build none)) s = .next (okPayout s [s.cfg.sysresetFill]) ∧
    (∀ a : Int, a < 0 ∨ 255 < a → exec (.systemReset (.build (some a))) s =
      .next (answers s .malformed (.fieldRange (fieldIn .systemReset .reserved)))) ∧
    (∀ p : Payload, exec (.systemReset (.view p)) s = .next (okFields s [])) ∧
    GetsByte (fun p => .systemReset (.getReserved p)) (fieldIn .systemReset .reserved) 0 s

/-- ChannelOpen (44_variants_control_data.md R221). That the errors of SET.v.channel, which is CHSET, name the channel of this variant is log entry 7 (DEDUCED). -/
def Obligations.ChannelOpenOperations : Prop :=
  ∀ s : State, ConfigLegal s.cfg →
    (∀ (a : Byte), exec (.channelOpen (.build a.toNat)) s =
      .next (okPayout s [a])) ∧
    (∀ (a : Int), a < 0 ∨ 255 < a → exec (.channelOpen (.build a)) s =
      .next (answers s .malformed (.fieldRange (fieldIn .channelOpen .channel)))) ∧
    (∀ (a : Byte) (rest : Bytes), exec (.channelOpen (.view (a :: rest))) s =
      .next (okFields s [((fieldIn .channelOpen .channel), .num a.toNat)])) ∧
    (∀ p : Payload, p.length < 1 → exec (.channelOpen (.view p)) s = .fault (.fieldAbsent
      (fieldIn .channelOpen .channel))) ∧
    GetsByte (fun p => .channelOpen (.getChannel p)) (fieldIn .channelOpen .channel) 0 s ∧
    SetsByte (fun p v => .channelOpen (.setChannel p v)) (fieldIn .channelOpen .channel) 0 s

/-- ChannelClose (44_variants_control_data.md R222). That the errors of SET.v.channel, which is CHSET, name the channel of this variant is log entry 7 (DEDUCED). -/
def Obligations.ChannelCloseOperations : Prop :=
  ∀ s : State, ConfigLegal s.cfg →
    (∀ (a : Byte), exec (.channelClose (.build a.toNat)) s =
      .next (okPayout s [a])) ∧
    (∀ (a : Int), a < 0 ∨ 255 < a → exec (.channelClose (.build a)) s =
      .next (answers s .malformed (.fieldRange (fieldIn .channelClose .channel)))) ∧
    (∀ (a : Byte) (rest : Bytes), exec (.channelClose (.view (a :: rest))) s =
      .next (okFields s [((fieldIn .channelClose .channel), .num a.toNat)])) ∧
    (∀ p : Payload, p.length < 1 → exec (.channelClose (.view p)) s = .fault (.fieldAbsent
      (fieldIn .channelClose .channel))) ∧
    GetsByte (fun p => .channelClose (.getChannel p)) (fieldIn .channelClose .channel) 0 s ∧
    SetsByte (fun p v => .channelClose (.setChannel p v)) (fieldIn .channelClose .channel) 0 s

/-- ChannelRequest (44_variants_control_data.md R223). That the errors of SET.v.channel, which is CHSET, name the channel of this variant is log entry 7 (DEDUCED). -/
def Obligations.ChannelRequestOperations : Prop :=
  ∀ s : State, ConfigLegal s.cfg →
    (∀ (a : Byte) (b : Byte), exec (.channelRequest (.build a.toNat b.toNat)) s =
      .next (okPayout s [a, b])) ∧
    (∀ (a : Int) (b : Int), a < 0 ∨ 255 < a → exec (.channelRequest (.build a b)) s =
      .next (answers s .malformed (.fieldRange (fieldIn .channelRequest .channel)))) ∧
    (∀ (a : Int) (b : Int), 0 ≤ a ∧ a ≤ 255 → b < 0 ∨ 255 < b → exec (.channelRequest (.build a b)) s =
      .next (answers s .malformed (.fieldRange (fieldIn .channelRequest .requestedMessageId)))) ∧
    (∀ (a : Byte) (b : Byte) (rest : Bytes), exec (.channelRequest (.view (a :: b :: rest))) s =
      .next (okFields s [((fieldIn .channelRequest .channel), .num a.toNat),
        ((fieldIn .channelRequest .requestedMessageId), .num b.toNat)])) ∧
    (∀ p : Payload, p.length < 1 → exec (.channelRequest (.view p)) s = .fault (.fieldAbsent
      (fieldIn .channelRequest .channel))) ∧
    (∀ p : Payload, 1 ≤ p.length → p.length < 2 → exec (.channelRequest (.view p)) s = .fault (.fieldAbsent
      (fieldIn .channelRequest .requestedMessageId))) ∧
    GetsByte (fun p => .channelRequest (.getChannel p)) (fieldIn .channelRequest .channel) 0 s ∧
    SetsByte (fun p v => .channelRequest (.setChannel p v)) (fieldIn .channelRequest .channel) 0 s ∧
    GetsByte (fun p => .channelRequest (.getRequestedMessageId p)) (fieldIn .channelRequest .requestedMessageId) 1 s ∧
    SetsByte (fun p v => .channelRequest (.setRequestedMessageId p v))
      (fieldIn .channelRequest .requestedMessageId) 1 s

/-- BroadcastData (44_variants_control_data.md R224). That the errors of SET.v.channel, which is CHSET, name the channel of this variant is log entry 7 (DEDUCED). -/
def Obligations.BroadcastDataOperations : Prop :=
  ∀ s : State, ConfigLegal s.cfg →
    (∀ (a : Byte) (b : Bytes), b.length = 7 → exec (.broadcastData (.build a.toNat b)) s =
      .next (okPayout s (a :: b))) ∧
    (∀ (a : Int) (b : Bytes), a < 0 ∨ 255 < a → exec (.broadcastData (.build a b)) s =
      .next (answers s .malformed (.fieldRange (fieldIn .broadcastData .channel)))) ∧
    (∀ (a : Int) (b : Bytes), 0 ≤ a ∧ a ≤ 255 → b.length ≠ 7 → exec (.broadcastData (.build a b)) s =
      .next (answers s .malformed (.fieldRange (fieldIn .broadcastData .data)))) ∧
    (∀ (a : Byte) (b : Bytes) (rest : Bytes), b.length = 7 → exec (.broadcastData (.view (a :: (b ++ rest)))) s =
      .next (okFields s [((fieldIn .broadcastData .channel), .num a.toNat), ((fieldIn .broadcastData .data),
        .str b)])) ∧
    (∀ p : Payload, p.length < 1 → exec (.broadcastData (.view p)) s = .fault (.fieldAbsent
      (fieldIn .broadcastData .channel))) ∧
    (∀ p : Payload, 1 ≤ p.length → p.length < 8 → exec (.broadcastData (.view p)) s = .fault (.fieldAbsent
      (fieldIn .broadcastData .data))) ∧
    GetsByte (fun p => .broadcastData (.getChannel p)) (fieldIn .broadcastData .channel) 0 s ∧
    SetsByte (fun p v => .broadcastData (.setChannel p v)) (fieldIn .broadcastData .channel) 0 s ∧
    GetsStr 7 (fun p => .broadcastData (.getData p)) (fieldIn .broadcastData .data) 1 s ∧
    SetsStr 7 (fun p v => .broadcastData (.setData p v)) (fieldIn .broadcastData .data) 1 s

/-- AcknowledgedData (44_variants_control_data.md R225). That the errors of SET.v.channel, which is CHSET, name the channel of this variant is log entry 7 (DEDUCED). -/
def Obligations.AcknowledgedDataOperations : Prop :=
  ∀ s : State, ConfigLegal s.cfg →
    (∀ (a : Byte) (b : Bytes), b.length = 7 → exec (.acknowledgedData (.build a.toNat b)) s =
      .next (okPayout s (a :: b))) ∧
    (∀ (a : Int) (b : Bytes), a < 0 ∨ 255 < a → exec (.acknowledgedData (.build a b)) s =
      .next (answers s .malformed (.fieldRange (fieldIn .acknowledgedData .channel)))) ∧
    (∀ (a : Int) (b : Bytes), 0 ≤ a ∧ a ≤ 255 → b.length ≠ 7 → exec (.acknowledgedData (.build a b)) s =
      .next (answers s .malformed (.fieldRange (fieldIn .acknowledgedData .data)))) ∧
    (∀ (a : Byte) (b : Bytes) (rest : Bytes), b.length = 7 → exec (.acknowledgedData (.view (a :: (b ++ rest)))) s =
      .next (okFields s [((fieldIn .acknowledgedData .channel), .num a.toNat), ((fieldIn .acknowledgedData .data),
        .str b)])) ∧
    (∀ p : Payload, p.length < 1 → exec (.acknowledgedData (.view p)) s = .fault (.fieldAbsent
      (fieldIn .acknowledgedData .channel))) ∧
    (∀ p : Payload, 1 ≤ p.length → p.length < 8 → exec (.acknowledgedData (.view p)) s = .fault (.fieldAbsent
      (fieldIn .acknowledgedData .data))) ∧
    GetsByte (fun p => .acknowledgedData (.getChannel p)) (fieldIn .acknowledgedData .channel) 0 s ∧
    SetsByte (fun p v => .acknowledgedData (.setChannel p v)) (fieldIn .acknowledgedData .channel) 0 s ∧
    GetsStr 7 (fun p => .acknowledgedData (.getData p)) (fieldIn .acknowledgedData .data) 1 s ∧
    SetsStr 7 (fun p v => .acknowledgedData (.setData p v)) (fieldIn .acknowledgedData .data) 1 s

/-- BurstData (44_variants_control_data.md R226). That the errors of SET.v.channel, which is CHSET, name the channel of this variant is log entry 7 (DEDUCED). -/
def Obligations.BurstDataOperations : Prop :=
  ∀ s : State, ConfigLegal s.cfg →
    (∀ (a : Byte) (b : Bytes), b.length = 7 → exec (.burstData (.build a.toNat b)) s =
      .next (okPayout s (a :: b))) ∧
    (∀ (a : Int) (b : Bytes), a < 0 ∨ 255 < a → exec (.burstData (.build a b)) s =
      .next (answers s .malformed (.fieldRange (fieldIn .burstData .channel)))) ∧
    (∀ (a : Int) (b : Bytes), 0 ≤ a ∧ a ≤ 255 → b.length ≠ 7 → exec (.burstData (.build a b)) s =
      .next (answers s .malformed (.fieldRange (fieldIn .burstData .data)))) ∧
    (∀ (a : Byte) (b : Bytes) (rest : Bytes), b.length = 7 → exec (.burstData (.view (a :: (b ++ rest)))) s =
      .next (okFields s [((fieldIn .burstData .channel), .num a.toNat), ((fieldIn .burstData .data), .str b)])) ∧
    (∀ p : Payload, p.length < 1 → exec (.burstData (.view p)) s = .fault (.fieldAbsent
      (fieldIn .burstData .channel))) ∧
    (∀ p : Payload, 1 ≤ p.length → p.length < 8 → exec (.burstData (.view p)) s = .fault (.fieldAbsent
      (fieldIn .burstData .data))) ∧
    GetsByte (fun p => .burstData (.getChannel p)) (fieldIn .burstData .channel) 0 s ∧
    SetsByte (fun p v => .burstData (.setChannel p v)) (fieldIn .burstData .channel) 0 s ∧
    GetsStr 7 (fun p => .burstData (.getData p)) (fieldIn .burstData .data) 1 s ∧
    SetsStr 7 (fun p v => .burstData (.setData p v)) (fieldIn .burstData .data) 1 s

/-- ChannelEvent (45_variants_event_response.md R240). That the errors of SET.v.channel, which is CHSET, name the channel of this variant is log entry 7 (DEDUCED). -/
def Obligations.ChannelEventOperations : Prop :=
  ∀ s : State, ConfigLegal s.cfg →
    (∀ (a : Byte) (b : Byte) (c : Byte), exec (.channelEvent (.build a.toNat b.toNat c.toNat)) s =
      .next (okPayout s [a, b, c])) ∧
    (∀ (a : Int) (b : Int) (c : Int), a < 0 ∨ 255 < a → exec (.channelEvent (.build a b c)) s =
      .next (answers s .malformed (.fieldRange (fieldIn .channelEvent .channel)))) ∧
    (∀ (a : Int) (b : Int) (c : Int), 0 ≤ a ∧ a ≤ 255 → b < 0 ∨ 255 < b → exec (.channelEvent (.build a b c)) s =
      .next (answers s .malformed (.fieldRange (fieldIn .channelEvent .messageId)))) ∧
    (∀ (a : Int) (b : Int) (c : Int), 0 ≤ a ∧ a ≤ 255 → 0 ≤ b ∧ b ≤ 255 → c < 0 ∨ 255 < c →
      exec (.channelEvent (.build a b c)) s =
      .next (answers s .malformed (.fieldRange (fieldIn .channelEvent .messageCode)))) ∧
    (∀ (a : Byte) (b : Byte) (c : Byte) (rest : Bytes), exec (.channelEvent (.view (a :: b :: c :: rest))) s =
      .next (okFields s [((fieldIn .channelEvent .channel), .num a.toNat), ((fieldIn .channelEvent .messageId),
        .num b.toNat), ((fieldIn .channelEvent .messageCode), .num c.toNat)])) ∧
    (∀ p : Payload, p.length < 1 → exec (.channelEvent (.view p)) s = .fault (.fieldAbsent
      (fieldIn .channelEvent .channel))) ∧
    (∀ p : Payload, 1 ≤ p.length → p.length < 2 → exec (.channelEvent (.view p)) s = .fault (.fieldAbsent
      (fieldIn .channelEvent .messageId))) ∧
    (∀ p : Payload, 2 ≤ p.length → p.length < 3 → exec (.channelEvent (.view p)) s = .fault (.fieldAbsent
      (fieldIn .channelEvent .messageCode))) ∧
    GetsByte (fun p => .channelEvent (.getChannel p)) (fieldIn .channelEvent .channel) 0 s ∧
    SetsByte (fun p v => .channelEvent (.setChannel p v)) (fieldIn .channelEvent .channel) 0 s ∧
    GetsByte (fun p => .channelEvent (.getMessageId p)) (fieldIn .channelEvent .messageId) 1 s ∧
    SetsByte (fun p v => .channelEvent (.setMessageId p v)) (fieldIn .channelEvent .messageId) 1 s ∧
    GetsByte (fun p => .channelEvent (.getMessageCode p)) (fieldIn .channelEvent .messageCode) 2 s ∧
    SetsByte (fun p v => .channelEvent (.setMessageCode p v)) (fieldIn .channelEvent .messageCode) 2 s

/-- ChannelStatus (45_variants_event_response.md R241). That the errors of SET.v.channel, which is CHSET, name the channel of this variant is log entry 7 (DEDUCED). -/
def Obligations.ChannelStatusOperations : Prop :=
  ∀ s : State, ConfigLegal s.cfg →
    (∀ (a : Byte) (b : Byte), exec (.channelStatus (.build a.toNat b.toNat)) s =
      .next (okPayout s [a, b])) ∧
    (∀ (a : Int) (b : Int), a < 0 ∨ 255 < a → exec (.channelStatus (.build a b)) s =
      .next (answers s .malformed (.fieldRange (fieldIn .channelStatus .channel)))) ∧
    (∀ (a : Int) (b : Int), 0 ≤ a ∧ a ≤ 255 → b < 0 ∨ 255 < b → exec (.channelStatus (.build a b)) s =
      .next (answers s .malformed (.fieldRange (fieldIn .channelStatus .status)))) ∧
    (∀ (a : Byte) (b : Byte) (rest : Bytes), exec (.channelStatus (.view (a :: b :: rest))) s =
      .next (okFields s [((fieldIn .channelStatus .channel), .num a.toNat), ((fieldIn .channelStatus .status),
        .num b.toNat)])) ∧
    (∀ p : Payload, p.length < 1 → exec (.channelStatus (.view p)) s = .fault (.fieldAbsent
      (fieldIn .channelStatus .channel))) ∧
    (∀ p : Payload, 1 ≤ p.length → p.length < 2 → exec (.channelStatus (.view p)) s = .fault (.fieldAbsent
      (fieldIn .channelStatus .status))) ∧
    GetsByte (fun p => .channelStatus (.getChannel p)) (fieldIn .channelStatus .channel) 0 s ∧
    SetsByte (fun p v => .channelStatus (.setChannel p v)) (fieldIn .channelStatus .channel) 0 s ∧
    GetsByte (fun p => .channelStatus (.getStatus p)) (fieldIn .channelStatus .status) 1 s ∧
    SetsByte (fun p v => .channelStatus (.setStatus p v)) (fieldIn .channelStatus .status) 1 s

/-- Version (45_variants_event_response.md R242). -/
def Obligations.VersionOperations : Prop :=
  ∀ s : State, ConfigLegal s.cfg →
    (∀ (a : Bytes), a.length = 9 → exec (.version (.build a)) s =
      .next (okPayout s a)) ∧
    (∀ (a : Bytes), a.length ≠ 9 → exec (.version (.build a)) s =
      .next (answers s .malformed (.fieldRange (fieldIn .version .version)))) ∧
    (∀ (a : Bytes) (rest : Bytes), a.length = 9 → exec (.version (.view ((a ++ rest)))) s =
      .next (okFields s [((fieldIn .version .version), .str a)])) ∧
    (∀ p : Payload, p.length < 9 → exec (.version (.view p)) s = .fault (.fieldAbsent (fieldIn .version .version))) ∧
    GetsStr 9 (fun p => .version (.getVersion p)) (fieldIn .version .version) 0 s ∧
    SetsStr 9 (fun p v => .version (.setVersion p v)) (fieldIn .version .version) 0 s

/-- Startup (45_variants_event_response.md R243). -/
def Obligations.StartupOperations : Prop :=
  ∀ s : State, ConfigLegal s.cfg →
    (∀ (a : Byte), exec (.startup (.build a.toNat)) s =
      .next (okPayout s [a])) ∧
    (∀ (a : Int), a < 0 ∨ 255 < a → exec (.startup (.build a)) s =
      .next (answers s .malformed (.fieldRange (fieldIn .startup .startupReason)))) ∧
    (∀ (a : Byte) (rest : Bytes), exec (.startup (.view (a :: rest))) s =
      .next (okFields s [((fieldIn .startup .startupReason), .num a.toNat)])) ∧
    (∀ p : Payload, p.length < 1 → exec (.startup (.view p)) s = .fault (.fieldAbsent
      (fieldIn .startup .startupReason))) ∧
    GetsByte (fun p => .startup (.getStartupReason p)) (fieldIn .startup .startupReason) 0 s ∧
    SetsByte (fun p v => .startup (.setStartupReason p v)) (fieldIn .startup .startupReason) 0 s

/-- Capabilities (45_variants_event_response.md R245). -/
def Obligations.CapabilitiesOperations : Prop :=
  ∀ s : State, ConfigLegal s.cfg →
    (∀ a b c d e : Byte,
      exec (.capabilities (.build a.toNat b.toNat c.toNat d.toNat none)) s = .next (okPayout s [a, b, c, d]) ∧
      exec (.capabilities (.build a.toNat b.toNat c.toNat d.toNat (some e.toNat))) s =
        .next (okPayout s [a, b, c, d, e])) ∧
    (∀ (a b c d : Int) (e : Option Int),
      (a < 0 ∨ 255 < a → exec (.capabilities (.build a b c d e)) s = .next (answers s .malformed (.fieldRange
        (fieldIn .capabilities .maxChannels)))) ∧
      (0 ≤ a ∧ a ≤ 255 → b < 0 ∨ 255 < b → exec (.capabilities (.build a b c d e)) s =
        .next (answers s .malformed (.fieldRange (fieldIn .capabilities .maxNetworks)))) ∧
      (0 ≤ a ∧ a ≤ 255 → 0 ≤ b ∧ b ≤ 255 → c < 0 ∨ 255 < c → exec (.capabilities (.build a b c d e)) s =
        .next (answers s .malformed (.fieldRange (fieldIn .capabilities .stdOptions)))) ∧
      (0 ≤ a ∧ a ≤ 255 → 0 ≤ b ∧ b ≤ 255 → 0 ≤ c ∧ c ≤ 255 → d < 0 ∨ 255 < d →
        exec (.capabilities (.build a b c d e)) s = .next (answers s .malformed (.fieldRange
          (fieldIn .capabilities .advOptions)))) ∧
      (∀ g : Int, 0 ≤ a ∧ a ≤ 255 → 0 ≤ b ∧ b ≤ 255 → 0 ≤ c ∧ c ≤ 255 → 0 ≤ d ∧ d ≤ 255 → g < 0 ∨ 255 < g →
        exec (.capabilities (.build a b c d (some g))) s =
          .next (answers s .malformed (.fieldRange (fieldIn .capabilities .advOptions2))))) ∧
    (∀ a b c d : Byte, exec (.capabilities (.view [a, b, c, d])) s =
      .next (okFields s [((fieldIn .capabilities .maxChannels), .num a.toNat),
        ((fieldIn .capabilities .maxNetworks), .num b.toNat), ((fieldIn .capabilities .stdOptions), .num c.toNat),
        ((fieldIn .capabilities .advOptions), .num d.toNat), ((fieldIn .capabilities .advOptions2), .num 0),
        ((fieldIn .capabilities .adv2Present), .flag false)])) ∧
    (∀ (a b c d e : Byte) (rest : Bytes), exec (.capabilities (.view (a :: b :: c :: d :: e :: rest))) s =
      .next (okFields s [((fieldIn .capabilities .maxChannels), .num a.toNat),
        ((fieldIn .capabilities .maxNetworks), .num b.toNat), ((fieldIn .capabilities .stdOptions), .num c.toNat),
        ((fieldIn .capabilities .advOptions), .num d.toNat), ((fieldIn .capabilities .advOptions2), .num e.toNat),
        ((fieldIn .capabilities .adv2Present), .flag true)])) ∧
    exec (.capabilities (.view [])) s = .fault (.fieldAbsent (fieldIn .capabilities .maxChannels)) ∧
    (∀ a : Byte, exec (.capabilities (.view [a])) s = .fault (.fieldAbsent (fieldIn .capabilities .maxNetworks))) ∧
    (∀ a b : Byte, exec (.capabilities (.view [a, b])) s = .fault (.fieldAbsent
      (fieldIn .capabilities .stdOptions))) ∧
    (∀ a b c : Byte, exec (.capabilities (.view [a, b, c])) s = .fault (.fieldAbsent
      (fieldIn .capabilities .advOptions))) ∧
    GetsByte (fun p => .capabilities (.getMaxChannels p)) (fieldIn .capabilities .maxChannels) 0 s ∧
    SetsByte (fun p v => .capabilities (.setMaxChannels p v)) (fieldIn .capabilities .maxChannels) 0 s ∧
    GetsByte (fun p => .capabilities (.getMaxNetworks p)) (fieldIn .capabilities .maxNetworks) 1 s ∧
    SetsByte (fun p v => .capabilities (.setMaxNetworks p v)) (fieldIn .capabilities .maxNetworks) 1 s ∧
    GetsByte (fun p => .capabilities (.getStdOptions p)) (fieldIn .capabilities .stdOptions) 2 s ∧
    SetsByte (fun p v => .capabilities (.setStdOptions p v)) (fieldIn .capabilities .stdOptions) 2 s ∧
    GetsByte (fun p => .capabilities (.getAdvOptions p)) (fieldIn .capabilities .advOptions) 3 s ∧
    SetsByte (fun p v => .capabilities (.setAdvOptions p v)) (fieldIn .capabilities .advOptions) 3 s ∧
    (∀ a b c d : Byte, exec (.capabilities (.getAdvOptions2 [a, b, c, d])) s =
      .next (okFields s [((fieldIn .capabilities .advOptions2), .num 0)])) ∧
    (∀ (a b c d e : Byte) (rest : Bytes), exec (.capabilities (.getAdvOptions2 (a :: b :: c :: d :: e :: rest))) s =
      .next (okFields s [((fieldIn .capabilities .advOptions2), .num e.toNat)])) ∧
    (∀ p : Payload, p.length < 4 → exec (.capabilities (.getAdvOptions2 p)) s = .fault (.fieldAbsent
      (fieldIn .capabilities .advOptions2))) ∧
    (∀ a b c d v : Byte, exec (.capabilities (.setAdvOptions2 [a, b, c, d] v.toNat)) s =
      .next (okPayout s [a, b, c, d, v])) ∧
    (∀ (a b c d e v : Byte) (rest : Bytes),
      exec (.capabilities (.setAdvOptions2 (a :: b :: c :: d :: e :: rest) v.toNat)) s =
        .next (okPayout s (a :: b :: c :: d :: v :: rest))) ∧
    (∀ (p : Payload) (v : Byte), p.length < 4 →
      exec (.capabilities (.setAdvOptions2 p v.toNat)) s = .fault (.fieldAbsent
        (fieldIn .capabilities .advOptions2))) ∧
    (∀ (p : Payload) (v : Int), v < 0 ∨ 255 < v → exec (.capabilities (.setAdvOptions2 p v)) s =
      .next (answers s .malformed (.fieldRange (fieldIn .capabilities .advOptions2))))

/-- SerialNumber (45_variants_event_response.md R246). -/
def Obligations.SerialNumberOperations : Prop :=
  ∀ s : State, ConfigLegal s.cfg →
    (∀ (a : Bytes), a.length = 4 → exec (.serialNumber (.build a)) s =
      .next (okPayout s a)) ∧
    (∀ (a : Bytes), a.length ≠ 4 → exec (.serialNumber (.build a)) s =
      .next (answers s .malformed (.fieldRange (fieldIn .serialNumber .serial)))) ∧
    (∀ (a : Bytes) (rest : Bytes), a.length = 4 → exec (.serialNumber (.view ((a ++ rest)))) s =
      .next (okFields s [((fieldIn .serialNumber .serial), .str a)])) ∧
    (∀ p : Payload, p.length < 4 → exec (.serialNumber (.view p)) s = .fault (.fieldAbsent
      (fieldIn .serialNumber .serial))) ∧
    GetsStr 4 (fun p => .serialNumber (.getSerial p)) (fieldIn .serialNumber .serial) 0 s ∧
    SetsStr 4 (fun p v => .serialNumber (.setSerial p v)) (fieldIn .serialNumber .serial) 0 s

/-- R197 to R199 by the row of a variant, and the laws of R199, over the machine's own operations: perform of an instruction is exec of it (Machine/Perform.lean), VIEW.v is viewInstr, and rowOp says which operation of which variant an operation is. Safety.viewOf is what VIEW answers on a built payload: both shapes of Capabilities (R245), no field for SystemReset (R220). -/
def Obligations.SetThenGetAndViewOfBuild : Prop :=
  ∀ s : State, ConfigLegal s.cfg → ∀ v : Variant,
    (∀ r : VariantRow, rowOf s.cfg v = some r → ∀ o : Operation,
      (∀ xs : List FieldVal, rowOp o = some (v, .build xs) → xs.length = r.fields.length →
        ((∀ z ∈ r.fields.zip xs, ¬ OutOfRange z.1.kind z.2) →
          perform o s = .next (okPayout s ((r.fields.zip xs).flatMap fun z => fieldBytes z.1.kind z.2))) ∧
        ∀ (before after : List (FieldSpec × FieldVal)) (d : FieldSpec) (x : FieldVal),
          r.fields.zip xs = before ++ (d, x) :: after → (∀ z ∈ before, ¬ OutOfRange z.1.kind z.2) →
          OutOfRange d.kind x → perform o s = .next (answers s .malformed (.fieldRange (fieldIn v d.name)))) ∧
      ∀ (d : FieldSpec) (p : Payload), d ∈ r.fields →
        (rowOp o = some (v, .get d.name p) →
          (d.offset + kindWidth d.kind ≤ p.length → perform o s =
            .next (okFields s [(fieldIn v d.name, fieldOf d.kind ((p.drop d.offset).take (kindWidth d.kind)))])) ∧
          (NotReached d p → perform o s = .fault (.fieldAbsent (fieldIn v d.name)))) ∧
        ∀ x : FieldVal, rowOp o = some (v, .set d.name p x) →
          (OutOfRange d.kind x → perform o s = .next (answers s .malformed (.fieldRange (fieldIn v d.name)))) ∧
          (¬ OutOfRange d.kind x → d.offset + kindWidth d.kind ≤ p.length → perform o s =
            .next (okPayout s (p.take d.offset ++ fieldBytes d.kind x ++ p.drop (d.offset + kindWidth d.kind)))) ∧
          (¬ OutOfRange d.kind x → NotReached d p → perform o s = .fault (.fieldAbsent (fieldIn v d.name)))) ∧
    (∀ (o : Operation) (n : FieldName) (p q : Payload) (x : FieldVal) (y : State),
      rowOp o = some (v, .set n p x) → perform o s = .next y → y.res.payout = some q →
      (∀ g : Operation, rowOp g = some (v, .get n q) → perform g s = .next (okFields s [(fieldIn v n, x)])) ∧
      ∀ (m : FieldName) (g h : Operation), m ≠ n → rowOp g = some (v, .get m q) → rowOp h = some (v, .get m p) →
        perform g s = perform h s) ∧
    (∀ (o : Operation) (xs : List FieldVal) (p : Payload) (y : State),
      rowOp o = some (v, .build xs) → o.complete s.cfg = true → perform o s = .next y → y.res.payout = some p →
      perform (viewInstr v p) s = .next (okFields s (viewOf s.cfg v xs))) ∧
    (∀ (r : VariantRow) (p : Payload) (y : State) (fs : List (Field × FieldVal)),
      rowOf s.cfg v = some r → p.length = r.length ∨ p.length = rowBytes r.fields →
      perform (viewInstr v p) s = .next y → y.res.fields = some fs →
      ∃ (o : Operation) (xs : List FieldVal), rowOp o = some (v, .build xs) ∧ fs = viewOf s.cfg v xs ∧
        perform o s = .next (okPayout s p))

/-- The optional byte is append-only (70_reset_and_hazards.md R309). -/
def Obligations.CapabilitiesAppendOnly : Prop :=
  ∀ s : State, ConfigLegal s.cfg → ∀ (p q : Payload) (v : Int) (y : State),
    (∀ op : CapabilitiesOp,
      op = .setMaxChannels p v ∨ op = .setMaxNetworks p v ∨ op = .setStdOptions p v ∨ op = .setAdvOptions p v →
      exec (.capabilities op) s = .next y → y.res.payout = some q → q.length = p.length) ∧
    (exec (.capabilities (.setAdvOptions2 p v)) s = .next y → y.res.payout = some q →
      5 ≤ q.length ∧ (p.length = 4 → q.length = 5) ∧ (p.length ≠ 4 → q.length = p.length))

/-- The pseudo-operations of 30_encoding.md R117, end to end; code and payload belong together by construction (70_reset_and_hazards.md R310): encodeVariant takes the variant from the operation. -/
def Obligations.EncodeVariantThenResolveView : Prop :=
  ∀ s : State, ConfigLegal s.cfg →
    ∀ (o : Operation) (h : (buildVariant o).isSome = true) (p : Payload) (t : Byte) (r : Bytes),
    o.wf s.cfg = true → perform o s = .next (okPayout s p) →
    ⟨t, variantId ((buildVariant o).get h)⟩ ∈ s.cfg.registry →
    encodeVariant o h s =
      .next { s with res := { status := some .ok, frame := some (frameBytes s.cfg.sync t p),
                              frameLen := some (p.length + 4) } } ∧
    (1 ≤ p.length + r.length →
      resolveView (frameBytes s.cfg.sync t p ++ r) s = perform (viewInstr ((buildVariant o).get h) p) s)

/-- The step (10_state.md R30; the queue and the idle step are the model's, log entries 3 and 9, the reading of words log entry 8; that the outcome is presented at the end of the transaction is log entry 5). The last clauses say what conclude does. -/
def Obligations.StepRunsDecodedInstruction : Prop :=
  (∀ (s : State) (r : Request) (rest : List Request) (i : Instr), s.requests = r :: rest →
    decode s.cfg r = .ok (.instr i) → step s = conclude (exec i { s with requests := rest })) ∧
  (∀ (s : State) (r : Request) (rest : List Request) (k : Fin 10) (op : FieldOp), s.requests = r :: rest →
    decode s.cfg r = .ok (.added k op) → step s = conclude (execAdded k op { s with requests := rest })) ∧
  (∀ (s : State) (b : Bytes) (rest : List Request) (o : Operation), s.requests = .word b :: rest →
    decodeWord s.cfg b = .ok o → step s = conclude (perform o { s with requests := rest })) ∧
  (∀ (s : State) (b : Bytes) (rest : List Request) (e : WordError), s.requests = .word b :: rest →
    decodeWord s.cfg b = .error e → step s = conclude (exec (.resolve b) { s with requests := rest })) ∧
  (∀ (s : State) (r : Request) (rest : List Request) (e : DecodeError), s.requests = r :: rest →
    decode s.cfg r = .error e → step s = .refused .undefinedSelector) ∧
  (∀ s : State, s.requests = [] → step s = .next { s with res := {} }) ∧
  (∀ t : State, (∀ e : Status, t.res.status = some e → conclude (.next t) = .next t) ∧
    (t.res.status = none → conclude (.next t) = .next { t with res := { t.res with status := some .ok } })) ∧
  (∀ f : Fault, conclude (.fault f) = .fault f) ∧ ∀ r : Refusal, conclude (.refused r) = .refused r

/-- The operation selector (30_encoding.md R116). -/
def Obligations.SelectorNamesPublicOperations : Prop :=
  ∀ (s : State) (op : BitVec 2) (ports : PublicPorts) (rest : List Request), s.requests = .select op ports :: rest →
    (op = 0#2 → step s = exec (.encode ports.type ports.txpay) { s with requests := rest }) ∧
    (op = 1#2 → step s = exec (.decode ports.rxbuf) { s with requests := rest }) ∧
    (op = 2#2 → step s = exec (.resolve ports.rxbuf) { s with requests := rest }) ∧
    (op = 3#2 → step s = .refused .undefinedSelector)

/-- A few words of the opcode table (30_encoding.md R116, R119; log entries 1 and 8). -/
def Obligations.WrittenOutWordsDecode : Prop :=
  decodeTableWord 8 0x0 = some (.encode 0 []) ∧ decodeTableWord 8 0x1 = some (.decode []) ∧
  decodeTableWord 8 0x2 = some (.resolve []) ∧ decodeTableWord 8 0x3 = none ∧
  decodeTableWord 40 0xED034B01A4 = some (.channelOpen (.build 3)) ∧
  decodeTableWord 72 0x1F010503E8005105A4 = some (.channelID (.build 0 1000 5 1)) ∧
  decodeTableWord 104 0xE9FFFFFFFFFFFFFFFF024609A4 =
    some (.networkKey (.build 2 [0xFF#8, 0xFF#8, 0xFF#8, 0xFF#8, 0xFF#8, 0xFF#8, 0xFF#8, 0xFF#8])) ∧
  decodeTableWord 72 0x4206BA0003085405A4 = some (.capabilities (.build 8 3 0 0xBA (some 6)))

/-- Decode and encode agree (30_encoding.md R91, R116, R119; log entry 8). -/
def Obligations.DecodeOfEncodeIsIdentity : Prop :=
  ∀ c : Config, ConfigLegal c →
    (∀ i : Instr, i.wf = true → decode c (encode c i) = .ok (.instr i)) ∧
    ∀ (k : Fin 10) (op : FieldOp), (Operation.added k op).wf c = true →
      decode c (encodeOperation c (.added k op)) = .ok (.added k op)

/-- The invariant of the machine (10_state.md R32, R36, R43; 60_exceptions.md R262, R268; 41_dispatch.md R161, R163). -/
def Obligations.StepKeepsInvariant : Prop :=
  ∀ s t : State, Inv s → step s = .next t → Inv t

/-- The configuration is never written (20_memory.md R76, 10_state.md R36, R37). That a step takes exactly one request of a queue, and none when it is empty, is the model's choice (log entries 3 and 9, DESIGN CHOICE). -/
def Obligations.ConfigurationNeverWritten : Prop :=
  ∀ s t : State, step s = .next t → t.cfg = s.cfg ∧ t.requests = s.requests.tail

/-- Purity (00_scope.md R21; also 10_state.md R40, 20_memory.md R69 and R73 item 1), which is the frame of every operation: perform of an instruction is exec of it. -/
def Obligations.TransactionIsFunctionOfOperands : Prop :=
  ∀ (o : Operation) (s t : State), s.cfg = t.cfg →
    (∀ x : State, perform o s = .next x →
      x = { s with res := x.res } ∧ perform o t = .next { t with res := x.res } ∧ perform o x = .next x) ∧
    (∀ f : Fault, perform o s = .fault f → perform o t = .fault f) ∧
    (∀ r : Refusal, perform o s ≠ .refused r)

/-- What an error outcome does (60_exceptions.md R270, R268; 10_state.md R32), and that every transaction writes STATUS (R30, R32, R35): the operation itself, or for CKSUM, which writes none (40_codec_ops.md R130), the end of its transaction (log entry 5, DEDUCED). -/
def Obligations.ErrorWritesStatusAndInfoOnly : Prop :=
  (∀ (o : Operation) (s x : State), ConfigLegal s.cfg → perform o s = .next x →
    (x.res.status = none ↔ ∃ b : Bytes, o = .instr (.cksum b)) ∧
    (x.res.status = none ∨ x.res.status = some .ok → x.res.info = none) ∧
    (∀ e : Status, x.res.status = some e → e ≠ .ok →
      ∃ info : Info, x.res = { status := some e, info := some info })) ∧
  (∀ (s t : State), ConfigLegal s.cfg → s.requests ≠ [] → step s = .next t →
    ∃ e : Status, t.res.status = some e ∧
      (e ≠ .ok → ∃ info : Info, t.res = { status := some e, info := some info }) ∧
      (e = .ok → t.res.info = none))

/-- The complete list of causes (60_exceptions.md R263), through Safety.MayRaise and Safety.MayFault, for every instruction and for every operation of an added variant that its layout is complete for. -/
def Obligations.CausesByOperation : Prop :=
  ∀ (o : Operation) (s : State), ConfigLegal s.cfg → o.complete s.cfg = true →
    (∀ (x : State) (info : Info), perform o s = .next x → x.res.info = some info → MayRaise s.cfg o info) ∧
    (∀ f : Fault, perform o s = .fault f → MayFault s.cfg o f)

/-- Which outcomes are values and which are faults (60_exceptions.md R284, 00_scope.md R20). OP = 3 is a request and no operation (SelectorNamesPublicOperations). -/
def Obligations.OnlyFieldAccessFaults : Prop :=
  ∀ s : State, ConfigLegal s.cfg →
    (∀ (o : Operation) (f : Fault), o.complete s.cfg = true → perform o s = .fault f → ∃ g : Field, f
      = .fieldAbsent g) ∧
    (∀ (o : Operation) (r : Refusal), perform o s ≠ .refused r) ∧
    (∀ (t chan : Int) (p buf : Bytes) (u : Byte), ∀ i ∈ [Instr.encode t p, .decode buf, .resolve buf, .cksum buf,
      .lookup u, .chbuild t chan p], ∃ x : State, exec i s = .next x)
end

