-- ==== Sys2Proof/Laws/Memory.lean ====
section
/-! SUPPORT. Byte sequences: the exclusive-or checksum, MemRead and MemWrite (00_scope.md R18, R20), and the
canonical form of the registry. -/

namespace Sys2Proof.Machine

theorem xor8_from (s : Bytes) (a : Byte) : s.foldl (· ^^^ ·) a = a ^^^ s.foldr (· ^^^ ·) 0#8 := by
  induction s generalizing a with
  | nil => simp
  | cons b s ih => rw [List.foldl_cons, List.foldr_cons, ih, BitVec.xor_assoc]

/-- CKSUM's loop as a right fold. -/
theorem xor8_eq_foldr (s : Bytes) : xor8 s = s.foldr (· ^^^ ·) 0#8 := by
  simp [xor8, xor8_from]

@[simp] theorem xor8_nil : xor8 [] = 0#8 := rfl
@[simp] theorem xor8_cons (a : Byte) (s : Bytes) : xor8 (a :: s) = a ^^^ xor8 s := by simp [xor8_eq_foldr]

@[simp] theorem xor8_append (s t : Bytes) : xor8 (s ++ t) = xor8 s ^^^ xor8 t := by
  induction s with
  | nil => simp
  | cons a s ih => simp [ih, BitVec.xor_assoc]

theorem xor8_perm {s t : Bytes} (h : s.Perm t) : xor8 s = xor8 t := by
  induction h with
  | nil => rfl
  | cons a _ ih => simp [ih]
  | swap a b s => simp only [xor8_cons]; rw [← BitVec.xor_assoc, ← BitVec.xor_assoc, BitVec.xor_comm b a]
  | trans _ _ ih₁ ih₂ => exact ih₁.trans ih₂

theorem memRead_within {buf : Bytes} {off n : Nat} (h : off + n ≤ buf.length) :
    memRead buf off n = .ok ((buf.drop off).take n) := by
  simp [memRead, slice?, h]

theorem memRead_outside {buf : Bytes} {off n : Nat} (h : buf.length < off + n) :
    memRead buf off n = .error (.fault .memReadOutside) := by
  simp [memRead, slice?, Nat.not_le.mpr h]

theorem memRead_split {pre mid post : Bytes} :
    memRead (pre ++ mid ++ post) pre.length mid.length = .ok mid := by
  rw [memRead_within (by simp only [List.length_append]; omega)]
  simp

/-- MemWrite replaces the bytes it covers and leaves every other byte. -/
theorem memWrite_split {pre old post v : Bytes} (h : v.length = old.length) :
    memWrite (pre ++ old ++ post) pre.length v = .ok (pre ++ v ++ post) := by
  have hb : pre.length + v.length ≤ (pre ++ old ++ post).length := by simp only [List.length_append]; omega
  have hd : (pre ++ old ++ post).drop (pre.length + v.length) = post := by
    rw [h, List.append_assoc, ← List.drop_drop, List.drop_left, List.drop_left]
  have ht : (pre ++ old ++ post).take pre.length = pre := by rw [List.append_assoc, List.take_left]
  unfold memWrite memWrite?
  rw [if_pos hb, hd, ht]

theorem memWrite_length {buf v w : Bytes} {off : Nat} (h : memWrite buf off v = .ok w) :
    w.length = buf.length := by
  unfold memWrite memWrite? at h
  split at h <;> rename_i heq
  · split at heq
    · cases heq; cases h; simp only [List.length_append, List.length_take, List.length_drop]; omega
    · cases heq
  · cases h

/-- A read after a write to the same place gives the bytes written. -/
theorem memRead_memWrite {buf v w : Bytes} {off : Nat} (h : memWrite buf off v = .ok w) :
    memRead w off v.length = .ok v := by
  unfold memWrite memWrite? at h
  split at h <;> rename_i heq
  · split at heq
    · rename_i hle
      cases heq; cases h
      have := @memRead_split (buf.take off) v (buf.drop (off + v.length))
      rwa [List.length_take, Nat.min_eq_left (by omega)] at this
    · cases heq
  · cases h

/-- A write leaves every byte outside it alone. -/
theorem memWrite_other {buf v w : Bytes} {off k : Nat} (h : memWrite buf off v = .ok w)
    (hk : k < off ∨ off + v.length ≤ k) : w[k]? = buf[k]? := by
  unfold memWrite memWrite? at h
  split at h <;> rename_i heq
  · split at heq
    · rename_i hle
      cases heq; cases h
      rcases hk with hk | hk
      · rw [List.append_assoc, List.getElem?_append_left (by simp only [List.length_take]; omega),
          List.getElem?_take, if_pos hk]
      · rw [List.getElem?_append_right (by simp only [List.length_append, List.length_take]; omega),
          List.getElem?_drop]
        congr 1
        simp only [List.length_append, List.length_take]; omega
    · cases heq
  · cases h

end Sys2Proof.Machine
end

