-- ==== Sys2Proof/Laws/State.lean ====
section
/-! SUPPORT. One lemma per field per update of State, and the small facts about how an operation ends. -/

namespace Sys2Proof.Machine

variable (s : State) (c : Status) (i : Info) (r : Results) (q : Request)

@[simp] theorem raiseError_cfg : (raiseError s c i).cfg = s.cfg := rfl
@[simp] theorem raiseError_requests : (raiseError s c i).requests = s.requests := rfl
@[simp] theorem raiseError_res : (raiseError s c i).res = { status := some c, info := some i } := rfl
@[simp] theorem deliver_cfg : (deliver s r).cfg = s.cfg := rfl
@[simp] theorem deliver_requests : (deliver s r).requests = s.requests := rfl
@[simp] theorem deliver_res : (deliver s r).res = r := rfl
@[simp] theorem idle_cfg : (idle s).cfg = s.cfg := rfl
@[simp] theorem idle_requests : (idle s).requests = s.requests := rfl
@[simp] theorem idle_res : (idle s).res = {} := rfl
@[simp] theorem present_cfg : (present s q).cfg = s.cfg := rfl
@[simp] theorem present_requests : (present s q).requests = q :: s.requests := rfl
@[simp] theorem present_res : (present s q).res = s.res := rfl
@[simp] theorem resetWith_cfg (k : Config) : (State.resetWith k).cfg = k := rfl
@[simp] theorem resetWith_requests (k : Config) : (State.resetWith k).requests = [] := rfl
@[simp] theorem resetWith_res (k : Config) : (State.resetWith k).res = {} := rfl
@[simp] theorem showOutcome_cfg : (showOutcome s).cfg = s.cfg := by unfold showOutcome; split <;> rfl
@[simp] theorem showOutcome_requests : (showOutcome s).requests = s.requests := by unfold showOutcome; split <;> rfl
@[simp] theorem showOutcome_status : (showOutcome s).res.status = some (s.res.status.getD .ok) := by
  unfold showOutcome
  split
  · rename_i h; rw [h]; rfl
  · rename_i h; rw [h]; rfl
@[simp] theorem finish_ok : finish s (.ok r) = .next { s with res := r } := rfl
@[simp] theorem finish_raise :
    finish s (.error (.raise c i)) = .next { s with res := { status := some c, info := some i } } := rfl
@[simp] theorem finish_fault (f : Fault) : finish s (.error (.fault f)) = .fault f := rfl

/-- Where the operation wrote its outcome, the transaction adds nothing. -/
theorem showOutcome_of_status {c : Status} (h : s.res.status = some c) : showOutcome s = s := by
  simp only [showOutcome, h]

/-- Presenting the outcome writes STATUS at most. -/
theorem showOutcome_eq : showOutcome s = { s with res := { s.res with status := some (s.res.status.getD .ok) } } := by
  obtain ⟨k, q, res⟩ := s
  cases h : res.status <;> simp only [showOutcome, h] <;> cases res <;> cases h <;> rfl

/-- All that a transaction that answers a next state can do. -/
theorem conclude_next {x : Host.Outcome State Fault Refusal} {t : State} (h : conclude x = .next t) :
    ∃ u, x = .next u ∧ t = showOutcome u := by
  cases x <;> cases h
  exact ⟨_, rfl, rfl⟩

/-- The result ports an ended operation leaves, if it leaves a next state. -/
def resultsOf : Except Stop Results → Option Results
  | .ok r => some r
  | .error (.raise c i) => some { status := some c, info := some i }
  | .error (.fault _) => none

/-- An operation that ends in a next state has changed the result ports and nothing else. -/
theorem finish_next {s t : State} {e : Except Stop Results} (h : finish s e = .next t) :
    ∃ r, resultsOf e = some r ∧ t = { s with res := r } := by
  rcases e with (⟨c, i⟩ | f) | r
  · cases h; exact ⟨_, rfl, rfl⟩
  · cases h
  · cases h; exact ⟨_, rfl, rfl⟩

theorem finish_of_results {e : Except Stop Results} {r : Results} (h : resultsOf e = some r) :
    finish s e = .next { s with res := r } := by
  rcases e with (⟨c, i⟩ | f) | r' <;> cases h <;> rfl

theorem finish_fault_iff {e : Except Stop Results} {f : Fault} :
    finish s e = .fault f ↔ e = .error (.fault f) := by
  rcases e with (⟨c, i⟩ | g) | r <;> simp [finish]

theorem finish_not_refused {e : Except Stop Results} {r : Refusal} : finish s e ≠ .refused r := by
  rcases e with (⟨c, i⟩ | f) | r' <;> simp [finish]

/-- A payload result is a finished operation. -/
theorem payoutOf_eq (e : Except Stop Payload) :
    payoutOf s e = finish s (e.map fun p => { status := some .ok, payout := some p }) := by
  cases e <;> rfl

/-- Field results are a finished operation. -/
theorem fieldsOf_eq (e : Except Stop (List (Field × FieldVal))) :
    fieldsOf s e = finish s (e.map fun fs => { status := some .ok, fields := some fs }) := by
  cases e <;> rfl

end Sys2Proof.Machine
end

