-- ==== Sys2Proof/Laws/Ops.lean ====
section
/-! SUPPORT. What the shared operations can do: the lookups under a legal configuration, access to a field, BUILD and
VIEW over a row. -/

namespace Sys2Proof.Machine
open Safety

/-! The lookups. -/

/-- Ids and variants are one and the same. -/
@[simp] theorem variantOfId_variantId (v : Variant) : variantOfId (variantId v) = v := by
  cases v with
  | added k => revert k; decide
  | _ => decide

@[simp] theorem variantId_variantOfId (id : BitVec 5) : variantId (variantOfId id) = id := by revert id; decide

theorem find?_of_isPrefix {α : Type} {l m : List α} (h : l <+: m) {p : α → Bool} {a : α}
    (ha : l.find? p = some a) : m.find? p = some a := by
  obtain ⟨t, rfl⟩ := h
  simp [List.find?_append, ha]

/-- Under a legal configuration a variant of the catalogue has the row of R106. -/
theorem rowOf_legal {c : Config} (h : ConfigLegal c) {v : Variant} {r : VariantRow}
    (hr : rowOf defaultConfig v = some r) : rowOf c v = some r :=
  find?_of_isPrefix h.vtab.catalogue hr

/-- The catalogue is what the default table has rows for. -/
theorem rowOf_default (v : Variant) : (rowOf defaultConfig v).isSome = true ↔ v ∈ variants := by
  cases v with
  | added k => revert k; decide
  | _ => decide

theorem rowOf_legal_eq {c : Config} (h : ConfigLegal c) {v : Variant} (hv : v ∈ variants) :
    rowOf c v = rowOf defaultConfig v := by
  obtain ⟨r, hr⟩ := Option.isSome_iff_exists.mp ((rowOf_default v).mpr hv)
  rw [hr, rowOf_legal h hr]

/-- Under a legal configuration a field of the catalogue has the layout of R106. -/
theorem specOf_legal {c : Config} (h : ConfigLegal c) {v : Variant} (hv : v ∈ variants) (n : FieldName) :
    specOf c v n = specOf defaultConfig v n := by
  simp [specOf, rowOf_legal_eq h hv]

/-- A configured row is one of the table, and has the id it is looked up by. -/
theorem rowOf_mem {c : Config} {v : Variant} {r : VariantRow} (h : rowOf c v = some r) :
    r ∈ c.vtab ∧ r.id = variantId v := by
  have h1 := List.find?_some h
  exact ⟨List.mem_of_find?_eq_some h, by simpa using h1⟩

/-- What a configured row of a legal configuration is like. -/
theorem rowOf_rowLegal {c : Config} (h : ConfigLegal c) {v : Variant} {r : VariantRow} (hr : rowOf c v = some r) :
    RowLegal r := h.vtab.rows r (rowOf_mem hr).1

/-- A field's layout is a field of the variant's row, of that name. -/
theorem specOf_mem {c : Config} {v : Variant} {n : FieldName} {d : FieldSpec} (h : specOf c v n = some d) :
    ∃ r, rowOf c v = some r ∧ d ∈ r.fields ∧ d.name = n := by
  unfold specOf at h
  split at h
  · cases h
  · rename_i r hr
    have h1 := List.find?_some h
    exact ⟨r, hr, List.mem_of_find?_eq_some h, by simpa using h1⟩

/-- Names being distinct, a field of the row is what its name finds. -/
theorem specOf_of_mem {c : Config} (h : ConfigLegal c) {v : Variant} {r : VariantRow} (hr : rowOf c v = some r)
    {d : FieldSpec} (hd : d ∈ r.fields) : specOf c v d.name = some d := by
  have hn := (rowOf_rowLegal h hr).names
  simp only [specOf, hr]
  generalize r.fields = l at hn hd
  induction l with
  | nil => simp at hd
  | cons e l ih =>
    rw [List.pairwise_cons] at hn
    rcases List.mem_cons.mp hd with rfl | hd
    · simp
    · have : e.name ≠ d.name := hn.1 _ hd
      simpa [List.find?_cons, this] using ih hn.2 hd

/-! The shape of a legal row. -/

theorem gapless_le {o : Nat} {ds : List FieldSpec} (h : gapless o ds = true) {d : FieldSpec} (hd : d ∈ ds) :
    o ≤ d.offset := by
  induction ds generalizing o with
  | nil => cases hd
  | cons e ds ih =>
    simp only [gapless, Bool.and_eq_true, decide_eq_true_eq] at h
    rcases List.mem_cons.mp hd with rfl | hd
    · exact h.1.ge
    · exact (Nat.le_add_right _ _).trans (ih h.2 hd)

/-- Two fields of a row without gaps do not overlap. -/
theorem gapless_disjoint {o : Nat} {ds : List FieldSpec} (h : gapless o ds = true) {d e : FieldSpec} (hd : d ∈ ds)
    (he : e ∈ ds) (hn : e ≠ d) :
    e.offset + kindWidth e.kind ≤ d.offset ∨ d.offset + kindWidth d.kind ≤ e.offset := by
  induction ds generalizing o with
  | nil => cases hd
  | cons f ds ih =>
    simp only [gapless, Bool.and_eq_true, decide_eq_true_eq] at h
    rcases List.mem_cons.mp hd with h1 | h1 <;> rcases List.mem_cons.mp he with h2 | h2
    · exact absurd (h2.trans h1.symm) hn
    · subst h1; have := gapless_le h.2 h2; omega
    · subst h2; have := gapless_le h.2 h1; omega
    · exact ih h.2 h1 h2

/-- No variant but Capabilities has an optional byte. -/
theorem optional_eq_false {c : Config} (h : ConfigLegal c) {v : Variant} (hv : v ≠ .capabilities) {r : VariantRow}
    (hr : rowOf c v = some r) {d : FieldSpec} (hd : d ∈ r.fields) : d.optional = false := by
  cases ho : d.optional with
  | false => rfl
  | true =>
    have h1 := ((rowOf_rowLegal h hr).optional d hd ho).1
    rw [(rowOf_mem hr).2] at h1
    exact absurd (by rw [← variantOfId_variantId v, h1, variantOfId_variantId]) hv

/-- The channel of a channel-scoped variant is its first byte (30_encoding.md R100). -/
theorem specOf_channel {c : Config} (h : ConfigLegal c) {v : Variant} {r : VariantRow} (hr : rowOf c v = some r)
    (hs : r.scope = .channelScoped) : specOf c v .channel = some channelSpec :=
  specOf_of_mem h hr (d := channelSpec) (List.mem_of_head? ((rowOf_rowLegal h hr).channel hs))

/-- What VIEW answers on a built payload, where the variant has no rule of its own for it. -/
theorem viewOf_row {c : Config} {v : Variant} {r : VariantRow} (h1 : v ≠ .capabilities) (h2 : v ≠ .systemReset)
    (hr : rowOf c v = some r) (xs : List FieldVal) :
    viewOf c v xs = List.zipWith (fun d x => (fieldIn v d.name, x)) r.fields xs := by
  unfold viewOf
  rw [hr]
  cases v <;> first | rfl | exact absurd rfl h1 | exact absurd rfl h2

/-! The registry. -/

/-- An entry of a registry with one entry per code is what the lookup finds. -/
theorem registryEntry_of_mem {c : Config} (h : RegistryLegal c.registry) {t : Byte} {v : BitVec 5}
    (hm : ⟨t, v⟩ ∈ c.registry) : registryEntry c t = some v := by
  obtain ⟨hr, -, -⟩ := h
  unfold registryEntry
  generalize c.registry = l at hr hm
  induction l with
  | nil => simp at hm
  | cons e l ih =>
    rw [List.pairwise_cons] at hr
    rcases List.mem_cons.mp hm with rfl | hm
    · simp
    · have hne : e.code ≠ t := fun he => by
        have := hr.1 _ hm
        rw [he] at this
        exact absurd this (Nat.lt_irrefl _)
      simpa [List.find?_cons, hne] using ih hr.2 hm

theorem mem_of_registryEntry {c : Config} {t : Byte} {v : BitVec 5} (h : registryEntry c t = some v) :
    ⟨t, v⟩ ∈ c.registry := by
  unfold registryEntry at h
  obtain ⟨e, he, rfl⟩ := Option.map_eq_some_iff.mp h
  have h1 := List.mem_of_find?_eq_some he
  have h2 := List.find?_some he
  simp only [beq_iff_eq] at h2
  subst h2
  exact h1

theorem registryEntry_none {c : Config} {t : Byte} :
    registryEntry c t = none ↔ ∀ v : BitVec 5, (⟨t, v⟩ : RegEntry) ∉ c.registry := by
  constructor
  · intro h v hm
    simp only [registryEntry, Option.map_eq_none_iff, List.find?_eq_none] at h
    simpa using h _ hm
  · intro h
    cases hr : registryEntry c t with
    | none => rfl
    | some v => exact absurd (mem_of_registryEntry hr) (h v)

/-- The code of a variant is the code under which the registry names it. -/
theorem codeOf_of_mem {c : Config} (h : RegistryLegal c.registry) {t : Byte} {v : Variant}
    (hm : ⟨t, variantId v⟩ ∈ c.registry) : codeOf c v = some t := by
  obtain ⟨-, hd, -⟩ := h
  unfold codeOf
  generalize c.registry = l at hd hm
  induction l with
  | nil => simp at hm
  | cons e l ih =>
    rw [List.pairwise_cons] at hd
    rcases List.mem_cons.mp hm with rfl | hm
    · simp
    · have hne : e.variant ≠ variantId v := hd.1 _ hm
      simpa [List.find?_cons, hne] using ih hd.2 hm

theorem mem_of_codeOf {c : Config} {t : Byte} {v : Variant} (h : codeOf c v = some t) :
    ⟨t, variantId v⟩ ∈ c.registry := by
  unfold codeOf at h
  obtain ⟨e, he, rfl⟩ := Option.map_eq_some_iff.mp h
  have h1 := List.mem_of_find?_eq_some he
  have h2 := List.find?_some he
  simp only [beq_iff_eq] at h2
  rw [← h2]
  exact h1

/-! Numbers and bytes. -/

theorem byte_eq_of_toNat {a b : Byte} (h : a.toNat = b.toNat) : a = b := BitVec.eq_of_toNat_eq h

@[simp] theorem lo8_byte (b : Byte) : lo8 (b.toNat : Int) = b := by
  apply BitVec.eq_of_toNat_eq
  have := b.isLt
  simp [lo8, BitVec.toNat_ofInt]
  omega

@[simp] theorem lo8_half (v : BitVec 16) : lo8 (v.toNat : Int) = v.extractLsb' 0 8 := by
  apply BitVec.eq_of_toNat_eq
  simp [lo8, BitVec.toNat_ofInt, BitVec.extractLsb'_toNat]
  omega

@[simp] theorem hi8_half (v : BitVec 16) : hi8 (v.toNat : Int) = v.extractLsb' 8 8 := by
  apply BitVec.eq_of_toNat_eq
  simp [hi8, BitVec.toNat_ofInt, BitVec.extractLsb'_toNat, Nat.shiftRight_eq_div_pow]
  omega

theorem le16_eq_append (lo hi : Byte) : le16 lo hi = ((hi ++ lo).toNat : Int) := by
  have := lo.isLt
  rw [le16, BitVec.toNat_append, ← Nat.shiftLeft_add_eq_or_of_lt this, Nat.shiftLeft_eq]
  omega

theorem byte_of_int {v : Int} (h0 : 0 ≤ v) (h1 : v ≤ 255) : ∃ b : Byte, v = (b.toNat : Int) := by
  refine ⟨BitVec.ofNat 8 v.toNat, ?_⟩
  simp
  omega

theorem half_of_int {v : Int} (h0 : 0 ≤ v) (h1 : v ≤ 65535) : ∃ b : BitVec 16, v = (b.toNat : Int) := by
  refine ⟨BitVec.ofNat 16 v.toNat, ?_⟩
  simp
  omega

end Sys2Proof.Machine
end

