-- ==== Sys2Proof/Laws/Fields.lean ====
section
/-! SUPPORT. Access to one field and to all fields of a row: what GET, SET, BUILD and VIEW can do, said once. -/

namespace Sys2Proof.Machine
open Safety

/-! Ranges and bytes of a field value. -/

theorem inRange_byte_iff {v : Int} : inRange .byte (.num v) = true ↔ 0 ≤ v ∧ v ≤ 255 := by simp [inRange]
theorem inRange_half_iff {v : Int} : inRange .half (.num v) = true ↔ 0 ≤ v ∧ v ≤ 65535 := by simp [inRange]
theorem inRange_str_iff {k : Nat} {s : Bytes} : inRange (.str k) (.str s) = true ↔ s.length = k := by simp [inRange]

@[simp] theorem inRange_of_byte (b : Byte) : inRange .byte (.num b.toNat) = true := by
  rw [inRange_byte_iff]; have := b.isLt; omega
@[simp] theorem inRange_of_half (v : BitVec 16) : inRange .half (.num v.toNat) = true := by
  rw [inRange_half_iff]; have := v.isLt; omega

theorem inRange_byte_false {v : Int} (h : v < 0 ∨ 255 < v) : inRange .byte (.num v) = false := by
  rw [← Bool.not_eq_true, inRange_byte_iff]; omega
theorem inRange_half_false {v : Int} (h : v < 0 ∨ 65535 < v) : inRange .half (.num v) = false := by
  rw [← Bool.not_eq_true, inRange_half_iff]; omega
theorem inRange_str_false {k : Nat} {s : Bytes} (h : s.length ≠ k) : inRange (.str k) (.str s) = false := by
  rw [← Bool.not_eq_true, inRange_str_iff]; exact h

/-- The values within a field's range: a byte, a half-word, a string of k bytes. -/
theorem inRange_cases {k : FieldKind} {v : FieldVal} (h : inRange k v = true) :
    (k = .byte ∧ ∃ b : Byte, v = .num b.toNat) ∨ (k = .half ∧ ∃ w : BitVec 16, v = .num w.toNat) ∨
      ∃ s : Bytes, k = .str s.length ∧ v = .str s := by
  cases k with
  | byte =>
    cases v with
    | num v => obtain ⟨b, rfl⟩ := byte_of_int (inRange_byte_iff.mp h).1 (inRange_byte_iff.mp h).2; exact .inl ⟨rfl, b, rfl⟩
    | str _ => cases h
    | flag _ => cases h
  | half =>
    cases v with
    | num v =>
      obtain ⟨b, rfl⟩ := half_of_int (inRange_half_iff.mp h).1 (inRange_half_iff.mp h).2
      exact .inr (.inl ⟨rfl, b, rfl⟩)
    | str _ => cases h
    | flag _ => cases h
  | str k =>
    cases v with
    | num _ => cases h
    | str s => exact .inr (.inr ⟨s, by rw [inRange_str_iff.mp h], rfl⟩)
    | flag _ => cases h

@[simp] theorem fieldBytes_byte (b : Byte) : fieldBytes .byte (.num b.toNat) = [b] := by simp [fieldBytes]
@[simp] theorem fieldBytes_half (v : BitVec 16) :
    fieldBytes .half (.num v.toNat) = [v.extractLsb' 0 8, v.extractLsb' 8 8] := by simp [fieldBytes]
@[simp] theorem fieldBytes_str (k : Nat) (s : Bytes) : fieldBytes (.str k) (.str s) = s := rfl
@[simp] theorem fieldOf_byte (b : Byte) : fieldOf .byte [b] = .num b.toNat := rfl
@[simp] theorem fieldOf_half (lo hi : Byte) : fieldOf .half [lo, hi] = .num (hi ++ lo).toNat := by
  simp only [fieldOf, le16_eq_append]
@[simp] theorem fieldOf_str (k : Nat) (s : Bytes) : fieldOf (.str k) s = .str s := by cases s <;> rfl

theorem half_join (v : BitVec 16) : v.extractLsb' 8 8 ++ v.extractLsb' 0 8 = v := by
  apply BitVec.eq_of_getLsbD_eq
  intro i hi
  simp only [BitVec.getLsbD_append, BitVec.getLsbD_extractLsb']
  by_cases h : i < 8
  · simp [h]
  · simp [h, show i - 8 < 8 by omega, show 8 + (i - 8) = i by omega]

/-- A value within its range takes the field's width of bytes, and reads back as itself. -/
theorem fieldBytes_length {k : FieldKind} {v : FieldVal} (h : inRange k v = true) :
    (fieldBytes k v).length = kindWidth k := by
  obtain ⟨rfl, b, rfl⟩ | ⟨rfl, w, rfl⟩ | ⟨s, rfl, rfl⟩ := inRange_cases h <;> rfl

theorem fieldOf_fieldBytes {k : FieldKind} {v : FieldVal} (h : inRange k v = true) :
    fieldOf k (fieldBytes k v) = v := by
  obtain ⟨rfl, b, rfl⟩ | ⟨rfl, w, rfl⟩ | ⟨s, rfl, rfl⟩ := inRange_cases h <;> simp [half_join]

/-- The bytes of a field read as a value within its range, whose bytes they are. -/
theorem fieldBytes_fieldOf {k : FieldKind} {s : Bytes} (h : s.length = kindWidth k) :
    inRange k (fieldOf k s) = true ∧ fieldBytes k (fieldOf k s) = s := by
  cases k with
  | byte => obtain ⟨b, rfl⟩ := List.length_eq_one_iff.mp h; simp
  | half =>
    obtain ⟨lo, hi, rfl⟩ := List.length_eq_two.mp h
    rw [fieldOf_half, inRange_of_half, fieldBytes_half]
    refine ⟨rfl, ?_⟩
    congr 1
    · apply BitVec.eq_of_getLsbD_eq; intro i hi; simp only [BitVec.getLsbD_extractLsb', BitVec.getLsbD_append]; simp [hi]
    · congr 1; apply BitVec.eq_of_getLsbD_eq; intro i hi; simp only [BitVec.getLsbD_extractLsb', BitVec.getLsbD_append]; simp [hi]
  | str k => rw [fieldOf_str]; exact ⟨inRange_str_iff.mpr h, rfl⟩

/-! GET and SET (43_variants_config.md R197, R198). -/

/-- GET reads the bytes at the field's offset. -/
theorem getBySpec_split {f : Field} {d : FieldSpec} {pre mid post : Bytes} (ho : pre.length = d.offset)
    (hw : mid.length = kindWidth d.kind) (hp : d.optional = false ∨ 0 < mid.length) :
    getBySpec f d (pre ++ mid ++ post) = .ok (fieldOf d.kind mid) := by
  have h1 : (d.optional && decide ((pre ++ mid ++ post).length = d.offset)) = false := by
    rcases hp with hp | hp
    · simp [hp]
    · simp only [List.length_append, Bool.and_eq_false_iff, decide_eq_false_iff_not]; right; omega
  have h2 : ¬ d.offset + kindWidth d.kind > (pre ++ mid ++ post).length := by
    simp only [List.length_append]; omega
  rw [getBySpec, h1, if_neg Bool.false_ne_true, if_neg h2, ← ho, ← hw, memRead_split]

/-- A payload that does not reach the field (60_exceptions.md R265). -/
theorem getBySpec_absent {f : Field} {d : FieldSpec} {p : Payload} (ho : d.optional = false)
    (h : p.length < d.offset + kindWidth d.kind) : getBySpec f d p = .error (.fault (.fieldAbsent f)) := by
  simp [getBySpec, ho, h]

/-- The optional byte is 0 where the payload ends just before it (45_variants_event_response.md R245). -/
theorem getBySpec_default {f : Field} {d : FieldSpec} {p : Payload} (ho : d.optional = true)
    (h : p.length = d.offset) : getBySpec f d p = .ok (.num 0) := by simp [getBySpec, ho, h]

/-- All that GET can do. -/
theorem getBySpec_cases (f : Field) (d : FieldSpec) (p : Payload) :
    (d.optional = true ∧ p.length = d.offset ∧ getBySpec f d p = .ok (.num 0)) ∨
    (NotReached d p ∧ getBySpec f d p = .error (.fault (.fieldAbsent f))) ∨
    (∃ pre mid post, p = pre ++ mid ++ post ∧ pre.length = d.offset ∧ mid.length = kindWidth d.kind ∧
      getBySpec f d p = .ok (fieldOf d.kind mid)) := by
  unfold getBySpec
  split
  · rename_i h; simp only [Bool.and_eq_true, decide_eq_true_eq] at h; exact .inl ⟨h.1, h.2, rfl⟩
  · rename_i ho
    split
    · exact .inr (.inl ⟨⟨by omega, fun h he => ho (by simp [h, he])⟩, rfl⟩)
    · rename_i h
      refine .inr (.inr ⟨p.take d.offset, (p.drop d.offset).take (kindWidth d.kind),
        (p.drop d.offset).drop (kindWidth d.kind), ?_, ?_, ?_, ?_⟩)
      · rw [List.append_assoc, List.take_append_drop, List.take_append_drop]
      · simp only [List.length_take]; omega
      · simp only [List.length_take, List.length_drop]; omega
      · rw [memRead_within (by omega)]

/-- SET replaces the bytes at the field's offset. -/
theorem setBySpec_split {f : Field} {d : FieldSpec} {pre mid post : Bytes} {v : FieldVal}
    (hr : inRange d.kind v = true) (ho : pre.length = d.offset) (hw : mid.length = kindWidth d.kind)
    (hp : d.optional = false ∨ 0 < mid.length) :
    setBySpec f d (pre ++ mid ++ post) v = .ok (pre ++ fieldBytes d.kind v ++ post) := by
  have h1 : (d.optional && decide ((pre ++ mid ++ post).length = d.offset)) = false := by
    rcases hp with hp | hp
    · simp [hp]
    · simp only [List.length_append, Bool.and_eq_false_iff, decide_eq_false_iff_not]; right; omega
  have h2 : ¬ d.offset + kindWidth d.kind > (pre ++ mid ++ post).length := by
    simp only [List.length_append]; omega
  rw [setBySpec, h1, if_neg (by simp [hr]), if_neg Bool.false_ne_true, if_neg h2, ← ho,
    memWrite_split (by rw [fieldBytes_length hr, hw])]

/-- A value out of range is reported before anything else. -/
theorem setBySpec_range {f : Field} {d : FieldSpec} {p : Payload} {v : FieldVal} (hr : inRange d.kind v = false) :
    setBySpec f d p v = .error (.raise .malformed (.fieldRange f)) := by simp [setBySpec, hr]

theorem setBySpec_absent {f : Field} {d : FieldSpec} {p : Payload} {v : FieldVal} (hr : inRange d.kind v = true)
    (hp : d.optional = false ∨ p.length ≠ d.offset) (h : p.length < d.offset + kindWidth d.kind) :
    setBySpec f d p v = .error (.fault (.fieldAbsent f)) := by
  have : (d.optional && decide (p.length = d.offset)) = false := by rcases hp with hp | hp <;> simp [hp]
  rw [setBySpec, if_neg (by simp [hr]), if_neg (by simp [this]), if_pos h]

/-- The optional byte is appended where the payload ends just before it (R245). -/
theorem setBySpec_append {f : Field} {d : FieldSpec} {p : Payload} {v : FieldVal} (hr : inRange d.kind v = true)
    (ho : d.optional = true) (h : p.length = d.offset) : setBySpec f d p v = .ok (p ++ fieldBytes d.kind v) := by
  simp [setBySpec, hr, ho, h]

/-- All that SET can do. -/
theorem setBySpec_cases (f : Field) (d : FieldSpec) (p : Payload) (v : FieldVal) :
    (inRange d.kind v = false ∧ setBySpec f d p v = .error (.raise .malformed (.fieldRange f))) ∨
    (inRange d.kind v = true ∧ d.optional = true ∧ p.length = d.offset ∧
      setBySpec f d p v = .ok (p ++ fieldBytes d.kind v)) ∨
    (NotReached d p ∧ setBySpec f d p v = .error (.fault (.fieldAbsent f))) ∨
    (inRange d.kind v = true ∧ ∃ pre mid post, p = pre ++ mid ++ post ∧ pre.length = d.offset ∧
      mid.length = kindWidth d.kind ∧ setBySpec f d p v = .ok (pre ++ fieldBytes d.kind v ++ post)) := by
  cases hr : inRange d.kind v with
  | false => exact .inl ⟨rfl, setBySpec_range hr⟩
  | true =>
    by_cases ho : d.optional = true ∧ p.length = d.offset
    · exact .inr (.inl ⟨rfl, ho.1, ho.2, setBySpec_append hr ho.1 ho.2⟩)
    · have ho' : d.optional = false ∨ p.length ≠ d.offset := by
        cases h : d.optional with
        | false => exact .inl rfl
        | true => exact .inr fun he => ho ⟨h, he⟩
      by_cases h : p.length < d.offset + kindWidth d.kind
      · exact .inr (.inr (.inl ⟨⟨h, fun h1 h2 => ho ⟨h1, h2⟩⟩, setBySpec_absent hr ho' h⟩))
      · refine .inr (.inr (.inr ⟨rfl, p.take d.offset, (p.drop d.offset).take (kindWidth d.kind),
          (p.drop d.offset).drop (kindWidth d.kind), ?_, ?_, ?_, ?_⟩))
        · rw [List.append_assoc, List.take_append_drop, List.take_append_drop]
        · simp only [List.length_take]; omega
        · simp only [List.length_take, List.length_drop]; omega
        · have h1 : (d.optional && decide (p.length = d.offset)) = false := by rcases ho' with h | h <;> simp [h]
          rw [setBySpec, if_neg (by simp [hr]), if_neg (by simp [h1]), if_neg h, memWrite, memWrite?,
            if_pos (by rw [fieldBytes_length hr]; omega), fieldBytes_length hr, List.drop_drop]

/-- SET on OK keeps the payload's length, or appends the optional byte. -/
theorem setBySpec_length {f : Field} {d : FieldSpec} {p q : Payload} {v : FieldVal}
    (h : setBySpec f d p v = .ok q) :
    q.length = p.length ∨ (d.optional = true ∧ p.length = d.offset ∧ q.length = p.length + kindWidth d.kind) := by
  obtain ⟨-, h'⟩ | ⟨hr, ho, hl, h'⟩ | ⟨-, h'⟩ | ⟨hr, pre, mid, post, rfl, -, hw, h'⟩ := setBySpec_cases f d p v <;>
    rw [h'] at h <;> cases h
  · exact .inr ⟨ho, hl, by rw [List.length_append, fieldBytes_length hr]⟩
  · left; simp only [List.length_append, fieldBytes_length hr, hw]

/-! BUILD and VIEW over the fields of a row (R199, R197). -/

/-- BUILD ends in OK when every value is within its field's range and none is missing but the optional one; the
payload is the values' bytes in order. -/
theorem buildFields_ok {v : Variant} {ds : List FieldSpec} {xs : List FieldVal}
    (hl : ∀ d, ds[xs.length]? = some d → d.optional = true) (hr : ∀ z ∈ ds.zip xs, inRange z.1.kind z.2 = true) :
    buildFields v ds xs = .ok ((ds.zip xs).flatMap fun z => fieldBytes z.1.kind z.2) := by
  induction ds generalizing xs with
  | nil => cases xs <;> rfl
  | cons d ds ih => cases xs with
    | nil => simp only [buildFields, hl d rfl, if_true]; rfl
    | cons x xs =>
      simp only [List.zip_cons_cons, List.forall_mem_cons] at hr
      simp only [buildFields, hr.1, Bool.true_eq_false, if_false, ih (fun d hd => hl d (by simpa using hd)) hr.2,
        List.zip_cons_cons, List.flatMap_cons]

theorem buildFields_inv {v : Variant} {ds : List FieldSpec} {xs : List FieldVal} {p : Payload}
    (h : buildFields v ds xs = .ok p) :
    (∀ d, ds[xs.length]? = some d → d.optional = true) ∧ (∀ z ∈ ds.zip xs, inRange z.1.kind z.2 = true) ∧
      p = (ds.zip xs).flatMap fun z => fieldBytes z.1.kind z.2 := by
  induction ds generalizing xs p with
  | nil => cases xs <;> (cases h; simp)
  | cons d ds ih => cases xs with
    | nil =>
      simp only [buildFields] at h
      split at h
      · rename_i ho; cases h; exact ⟨fun e he => by cases he; exact ho, by simp, by simp⟩
      · cases h
    | cons x xs =>
      simp only [buildFields] at h
      split at h
      · cases h
      · rename_i hx
        split at h
        · cases h
        · rename_i rest hrest
          cases h
          obtain ⟨h1, h2, rfl⟩ := ih hrest
          refine ⟨fun e he => h1 e (by simpa using he), ?_, by simp⟩
          rw [List.zip_cons_cons, List.forall_mem_cons]
          exact ⟨by simpa using hx, h2⟩

/-- All that BUILD can do when it does not end in OK: the first value out of range, or a value that is missing. -/
theorem buildFields_error {v : Variant} {ds : List FieldSpec} {xs : List FieldVal} {e : Stop}
    (h : buildFields v ds xs = .error e) :
    (∃ z ∈ ds.zip xs, e = .raise .malformed (.fieldRange ⟨.variant v, z.1.name⟩) ∧ inRange z.1.kind z.2 = false) ∨
      ∃ d, ds[xs.length]? = some d ∧ d.optional = false ∧ e = .fault (.noOperand ⟨.variant v, d.name⟩) := by
  induction ds generalizing xs with
  | nil => cases xs <;> cases h
  | cons d ds ih => cases xs with
    | nil =>
      simp only [buildFields] at h
      split at h
      · cases h
      · rename_i ho; cases h; exact .inr ⟨d, rfl, by simpa using ho, rfl⟩
    | cons x xs =>
      simp only [buildFields] at h
      split at h
      · rename_i hx; cases h; exact .inl ⟨(d, x), by simp, rfl, hx⟩
      · split at h
        · rename_i e' he
          cases h
          obtain ⟨z, hz, h1, h2⟩ | ⟨d', hd, h1⟩ := ih he
          · exact .inl ⟨z, by simp [hz], h1, h2⟩
          · exact .inr ⟨d', by simpa using hd, h1⟩
        · cases h

/-- VIEW reads every field of the row, in offset order. -/
theorem viewFields_inv {v : Variant} {p : Payload} {ds : List FieldSpec} {fs : List (Field × FieldVal)}
    (h : viewFields v p ds = .ok fs) :
    fs.map (·.1) = ds.map (fun d => ⟨.variant v, d.name⟩) ∧
      List.Forall₂ (fun d x => getBySpec ⟨.variant v, d.name⟩ d p = .ok x) ds (fs.map (·.2)) := by
  induction ds generalizing fs with
  | nil => cases h; simp
  | cons d ds ih =>
    simp only [viewFields] at h
    split at h
    · cases h
    · rename_i x hx
      split at h
      · cases h
      · rename_i rest hrest
        cases h
        obtain ⟨h1, h2⟩ := ih hrest
        exact ⟨by simp [h1], .cons hx h2⟩

theorem viewFields_ok {v : Variant} {p : Payload} {ds : List FieldSpec} {xs : List FieldVal}
    (h : List.Forall₂ (fun d x => getBySpec ⟨.variant v, d.name⟩ d p = .ok x) ds xs) :
    viewFields v p ds = .ok (List.zipWith (fun d x => (⟨.variant v, d.name⟩, x)) ds xs) := by
  induction h with
  | nil => rfl
  | cons h _ ih => simp [viewFields, h, ih]

/-- A VIEW that does not end in OK ends in FIELD_ABSENT of one of the row's fields. -/
theorem viewFields_error {v : Variant} {p : Payload} {ds : List FieldSpec} {e : Stop}
    (h : viewFields v p ds = .error e) :
    ∃ d ∈ ds, e = .fault (.fieldAbsent ⟨.variant v, d.name⟩) ∧ NotReached d p := by
  induction ds with
  | nil => cases h
  | cons d ds ih =>
    simp only [viewFields] at h
    split at h
    · rename_i e' he
      cases h
      obtain ⟨-, -, h'⟩ | ⟨hn, h'⟩ | ⟨_, _, _, _, _, _, h'⟩ := getBySpec_cases ⟨.variant v, d.name⟩ d p <;>
        rw [h'] at he <;> cases he
      exact ⟨d, by simp, rfl, hn⟩
    · split at h
      · rename_i e' he
        cases h
        obtain ⟨d', hd, h1⟩ := ih he
        exact ⟨d', by simp [hd], h1⟩
      · cases h

end Sys2Proof.Machine
end

