-- ==== Sys2Proof/Laws/Codec.lean ====
section
/-! SUPPORT. What the shared operations of the codec and of type dispatch can do under a legal configuration:
encodeFrame, decodeFrame, lookupType, channelPayload. -/

namespace Sys2Proof.Machine
open Safety

variable {c : Config}

theorem legal_maxPayload (h : ConfigLegal c) : c.maxPayload.toNat = 9 := by rw [h.maxPayload]; rfl
theorem legal_overhead (h : ConfigLegal c) : c.overhead.toNat = 4 := by rw [h.overhead]; rfl
theorem legal_minDecode (h : ConfigLegal c) : c.minDecode.toNat = 5 := by rw [h.minDecode]; rfl

/-! The frame. -/

theorem frameOf_eq_frameBytes (sync t : Byte) (p : Payload) : frameOf sync t p = frameBytes sync t p := by
  simp [frameOf, frameBytes, xor8_eq_foldr, BitVec.xor_assoc]

@[simp] theorem frameOf_length (sync t : Byte) (p : Payload) : (frameOf sync t p).length = p.length + 4 := by
  simp [frameOf]

@[simp] theorem xor8_frameOf (sync t : Byte) (p : Payload) : xor8 (frameOf sync t p) = 0#8 := by
  simp only [frameOf, xor8_append, xor8_cons, xor8_nil, BitVec.xor_zero, BitVec.xor_self]

/-- A frame, as DECODE takes it apart. -/
theorem frameOf_cons (sync t : Byte) (p : Payload) :
    frameOf sync t p = sync :: BitVec.ofNat 8 p.length :: t ::
      (p ++ [sync ^^^ BitVec.ofNat 8 p.length ^^^ t ^^^ p.foldr (· ^^^ ·) 0#8]) := by
  rw [frameOf_eq_frameBytes]; rfl

/-- ENCODE's three outcomes (40_codec_ops.md R132 to R134). -/
theorem encodeFrame_range (h : ConfigLegal c) {t : Int} {p : Payload} (hp : 9 < p.length) :
    encodeFrame c t p = .error (.raise .malformed (.lenRange p.length)) := by
  simp [encodeFrame, legal_maxPayload h, hp]

theorem encodeFrame_type (h : ConfigLegal c) {t : Int} {p : Payload} (hp : p.length ≤ 9) (ht : t < 0 ∨ 255 < t) :
    encodeFrame c t p = .error (.raise .malformed .typeRange) := by
  rw [encodeFrame, legal_maxPayload h, if_neg (by omega), if_pos (by omega), h.errTypeRange]

theorem encodeFrame_ok (h : ConfigLegal c) {t : Byte} {p : Payload} (hp : p.length ≤ 9) :
    encodeFrame c t.toNat p = .ok (frameOf c.sync t p) := by
  have := t.isLt
  rw [encodeFrame, legal_maxPayload h, if_neg (by omega), if_neg (by omega), lo8_byte]

/-- All that ENCODE can do. -/
theorem encodeFrame_cases (h : ConfigLegal c) (t : Int) (p : Payload) :
    (9 < p.length ∧ encodeFrame c t p = .error (.raise .malformed (.lenRange p.length))) ∨
    (p.length ≤ 9 ∧ (t < 0 ∨ 255 < t) ∧ encodeFrame c t p = .error (.raise .malformed .typeRange)) ∨
    ∃ b : Byte, t = b.toNat ∧ p.length ≤ 9 ∧ encodeFrame c t p = .ok (frameOf c.sync b p) := by
  by_cases hp : 9 < p.length
  · exact .inl ⟨hp, encodeFrame_range h hp⟩
  · by_cases ht : t < 0 ∨ 255 < t
    · exact .inr (.inl ⟨by omega, ht, encodeFrame_type h (by omega) ht⟩)
    · obtain ⟨b, rfl⟩ := byte_of_int (v := t) (by omega) (by omega)
      exact .inr (.inr ⟨b, rfl, by omega, encodeFrame_ok h (by omega)⟩)

/-! DECODE. -/

/-- Step 1 (R137). -/
theorem decodeFrame_short (h : ConfigLegal c) {buf : Bytes} (hb : buf.length < 5) :
    decodeFrame c buf = .error (.raise .incomplete .header) := by
  simp [decodeFrame, legal_minDecode h, hb]

theorem decodeBody_cons (h : ConfigLegal c) (sync len t : Byte) (rest : Bytes) :
    decodeBody c (sync :: len :: t :: rest) len.toNat t =
      if rest.length < len.toNat + 1 then .error (.raise .incomplete (.body (len.toNat + 4)))
      else if xor8 (sync :: len :: t :: rest.take (len.toNat + 1)) ≠ 0#8 then
        .error (.raise .corrupted .checksumMismatch)
      else .ok ⟨t, rest.take len.toNat, len.toNat + 4⟩ := by
  rw [decodeBody, legal_overhead h]
  by_cases hb : rest.length < len.toNat + 1
  · rw [if_pos (by simp only [List.length_cons]; omega), if_pos hb]
  · have hget : rest[len.toNat]? = some rest[len.toNat] := List.getElem?_eq_getElem (by omega)
    have h1 : memRead (sync :: len :: t :: rest) 0 (3 + len.toNat) = .ok (sync :: len :: t :: rest.take len.toNat) := by
      rw [memRead_within (by simp only [List.length_cons]; omega)]
      simp [show 3 + len.toNat = len.toNat + 3 by omega]
    have h2 : byteAt (sync :: len :: t :: rest) (len.toNat + 3) = .ok rest[len.toNat] := by
      simp [byteAt, hget]
    have h3 : memRead (sync :: len :: t :: rest) 3 len.toNat = .ok (rest.take len.toNat) := by
      rw [memRead_within (by simp only [List.length_cons]; omega)]; rfl
    have hx : xor8 (sync :: len :: t :: rest.take (len.toNat + 1)) =
        xor8 (sync :: len :: t :: rest.take len.toNat) ^^^ rest[len.toNat] := by
      simp only [List.take_add_one, hget, Option.toList_some, xor8_cons, xor8_append, xor8_nil, BitVec.xor_zero,
        BitVec.xor_assoc]
    rw [if_neg (by simp only [List.length_cons]; omega), if_neg hb, h1, h2, h3, hx]
    have heq : ∀ a b : Byte, (a ^^^ b ≠ 0#8) = (a ≠ b) := fun a b => by simp [BitVec.xor_eq_zero_iff]
    simp only [heq]

/-- Steps 2 to 7 (R138 to R143). -/
theorem decodeFrame_cons (h : ConfigLegal c) {sync len t : Byte} {rest : Bytes} (hr : 2 ≤ rest.length) :
    decodeFrame c (sync :: len :: t :: rest) =
      if sync ≠ c.sync then .error (.raise .corrupted .syncMismatch)
      else if 9 < len.toNat then .error (.raise .malformed (.lenRange len.toNat))
      else if rest.length < len.toNat + 1 then .error (.raise .incomplete (.body (len.toNat + 4)))
      else if xor8 (sync :: len :: t :: rest.take (len.toNat + 1)) ≠ 0#8 then
        .error (.raise .corrupted .checksumMismatch)
      else .ok ⟨t, rest.take len.toNat, len.toNat + 4⟩ := by
  rw [decodeFrame, legal_minDecode h, if_neg (by simp only [List.length_cons]; omega)]
  simp only [byteAt, List.getElem?_cons_zero, List.getElem?_cons_succ, legal_maxPayload h, gt_iff_lt]
  rw [decodeBody_cons h]

/-- A buffer of five bytes or more has a header. -/
theorem exists_header {buf : Bytes} (h : 5 ≤ buf.length) :
    ∃ (sync len t : Byte) (rest : Bytes), buf = sync :: len :: t :: rest ∧ 2 ≤ rest.length := by
  match buf, h with
  | a :: b :: d :: rest, h => exact ⟨a, b, d, rest, rfl, by simpa using h⟩

/-- All that DECODE can do. -/
theorem decodeFrame_cases (h : ConfigLegal c) (buf : Bytes) :
    (buf.length < 5 ∧ decodeFrame c buf = .error (.raise .incomplete .header)) ∨
    decodeFrame c buf = .error (.raise .corrupted .syncMismatch) ∨
    (∃ n, 9 < n ∧ n ≤ 255 ∧ decodeFrame c buf = .error (.raise .malformed (.lenRange n))) ∨
    (∃ n, 6 ≤ n ∧ n ≤ 13 ∧ buf.length < n ∧ decodeFrame c buf = .error (.raise .incomplete (.body n))) ∨
    decodeFrame c buf = .error (.raise .corrupted .checksumMismatch) ∨
    ∃ (t : Byte) (p r : Bytes), p.length ≤ 9 ∧ buf = frameOf c.sync t p ++ r ∧ 1 ≤ p.length + r.length ∧
      decodeFrame c buf = .ok ⟨t, p, p.length + 4⟩ := by
  by_cases hb : buf.length < 5
  · exact .inl ⟨hb, decodeFrame_short h hb⟩
  · obtain ⟨sync, len, t, rest, rfl, hr⟩ := exists_header (buf := buf) (by omega)
    have hlt := len.isLt
    rw [decodeFrame_cons h hr]
    split
    · exact .inr (.inl rfl)
    · rename_i hs
      split
      · exact .inr (.inr (.inl ⟨_, by assumption, by omega, rfl⟩))
      · split
        · refine .inr (.inr (.inr (.inl ⟨_, ?_, ?_, ?_, rfl⟩)))
          · omega
          · omega
          · simp only [List.length_cons]; omega
        · split
          · exact .inr (.inr (.inr (.inr (.inl rfl))))
          · rename_i hn hl hx
            have hlen : (rest.take len.toNat).length = len.toNat := by simp only [List.length_take]; omega
            refine .inr (.inr (.inr (.inr (.inr ⟨t, rest.take len.toNat, rest.drop (len.toNat + 1), ?_, ?_, ?_, ?_⟩))))
            · omega
            · have hget : rest[len.toNat]? = some rest[len.toNat] := List.getElem?_eq_getElem (by omega)
              have hs' : sync = c.sync := by simpa using hs
              simp only [ne_eq, not_not, List.take_add_one, hget, xor8_cons, xor8_append, Option.toList_some,
                xor8_nil, BitVec.xor_zero] at hx
              have hk : rest[len.toNat] = sync ^^^ len ^^^ t ^^^ xor8 (rest.take len.toNat) := by
                rw [← BitVec.xor_assoc, ← BitVec.xor_assoc, ← BitVec.xor_assoc] at hx
                exact (BitVec.xor_eq_zero_iff.mp hx).symm
              rw [frameOf_cons, hlen, ← xor8_eq_foldr, ← hs', BitVec.ofNat_toNat, BitVec.setWidth_eq, ← hk]
              simp only [List.cons_append, List.append_assoc, List.nil_append]
              rw [← List.drop_eq_getElem_cons, List.take_append_drop]
            · rw [hlen, List.length_drop]; omega
            · rw [hlen]

/-- DECODE of a frame with at least one payload byte, or with something after it (R147). -/
theorem decodeFrame_frameOf (h : ConfigLegal c) {t : Byte} {p r : Bytes} (hp : p.length ≤ 9)
    (h1 : 1 ≤ p.length + r.length) :
    decodeFrame c (frameOf c.sync t p ++ r) = .ok ⟨t, p, p.length + 4⟩ := by
  have hn : (BitVec.ofNat 8 p.length).toNat = p.length := by rw [BitVec.toNat_ofNat]; omega
  have hx := xor8_frameOf c.sync t p
  rw [frameOf_cons] at hx ⊢
  simp only [List.cons_append, List.append_assoc, List.nil_append]
  rw [decodeFrame_cons h (by simp only [List.length_append, List.length_cons]; omega), hn, if_neg (by simp),
    if_neg (by omega), if_neg (by simp only [List.length_append, List.length_cons]; omega),
    show ∀ k : Byte, (p ++ k :: r).take (p.length + 1) = p ++ [k] by intro k; simp [List.take_append], if_neg]
  · simp
  · simpa using hx

/-! LOOKUP and CHBUILD. -/

theorem lookupType_of_mem (h : RegistryLegal c.registry) {t : Byte} {v : BitVec 5} (hm : ⟨t, v⟩ ∈ c.registry) :
    lookupType c t = .ok v := by rw [lookupType, registryEntry_of_mem h hm]

theorem lookupType_of_not_mem {t : Byte} (hm : ∀ v : BitVec 5, (⟨t, v⟩ : RegEntry) ∉ c.registry) :
    lookupType c t = .error (.raise .unknownType (.unknownType t)) := by
  rw [lookupType, registryEntry_none.mpr hm]

theorem lookupType_cases (c : Config) (t : Byte) :
    (∃ v, registryEntry c t = some v ∧ lookupType c t = .ok v) ∨
      lookupType c t = .error (.raise .unknownType (.unknownType t)) := by
  unfold lookupType
  cases registryEntry c t with
  | none => exact .inr rfl
  | some v => exact .inl ⟨v, rfl, rfl⟩

theorem channelPayload_ok (h : ConfigLegal c) {chan : Byte} {extra : Bytes} (he : extra.length ≤ 8) :
    channelPayload c chan.toNat extra = .ok (chan :: extra) := by
  have := chan.isLt
  rw [channelPayload, legal_maxPayload h, if_neg (by omega), if_neg (by omega), lo8_byte]

theorem channelPayload_range {chan : Int} {extra : Bytes} (hc : chan < 0 ∨ 255 < chan) :
    channelPayload c chan extra = .error (.raise .malformed (.fieldRange channelField)) := by
  rw [channelPayload, if_pos hc]

theorem channelPayload_length (h : ConfigLegal c) {chan : Byte} {extra : Bytes} (he : 8 < extra.length) :
    channelPayload c chan.toNat extra = .error (.raise .malformed (.lenRange (1 + extra.length))) := by
  have := chan.isLt
  rw [channelPayload, legal_maxPayload h, if_neg (by omega), if_pos (by omega)]

end Sys2Proof.Machine
end

