-- ==== Sys2Proof/Laws/Exec.lean ====
section
/-! SUPPORT. What an operation can do, said once: the shared operation that the meaning of an operation on a variant is,
that every meaning is a finished operation that reads the configuration alone, and all that a step can do. -/

namespace Sys2Proof.Machine
open Safety

/-- The shared operations the meaning of an operation on a variant can be. -/
inductive RowMeaning (v : Variant) : FieldOp → (State → Host.Outcome State Fault Refusal) → Prop where
  | build (xs : List FieldVal) : (v = .systemReset → xs ≠ []) → RowMeaning v (.build xs) (buildOp v xs)
  | buildDefault : v = .systemReset →
      RowMeaning v (.build []) (fun s => buildOp v [.num (numOf s.cfg.sysresetFill)] s)
  | view (p : Payload) : v ≠ .capabilities → v ≠ .systemReset → RowMeaning v (.view p) (viewOp v p)
  | viewNothing (p : Payload) : v = .systemReset → RowMeaning v (.view p) (fun s => fieldsOf s (.ok []))
  | viewCapabilities (p : Payload) : v = .capabilities →
      RowMeaning v (.view p) (fun s => fieldsOf s ((viewRow s.cfg v p).map fun fs =>
        fs ++ [(⟨.variant v, .adv2Present⟩, .flag (decide (5 ≤ p.length)))]))
  | get (n : FieldName) (p : Payload) : RowMeaning v (.get n p) (getOp v n p)
  | set (n : FieldName) (p : Payload) (x : FieldVal) : RowMeaning v (.set n p x) (setOp v n p x)
  | setChannel (p : Payload) (chan : Int) :
      (∃ r, rowOf defaultConfig v = some r ∧ r.scope = .channelScoped) →
      RowMeaning v (.set .channel p (.num chan)) (setChannelOp v p chan)

/-- The configuration lays out what the operation reads. -/
def Accessible (c : Config) (v : Variant) : FieldOp → Prop
  | .build xs => ∃ r, rowOf c v = some r ∧ ∀ d, r.fields[xs.length]? = some d → d.optional = true
  | .view _ => ∃ r, rowOf c v = some r
  | .get n _ => ∃ d, specOf c v n = some d
  | .set n _ _ => ∃ d, specOf c v n = some d

theorem payFits_iff {p : Payload} : payFits p = true ↔ p.length ≤ 9 := by simp [payFits]

theorem exec_channelUnassign (op : ChannelUnassignOp) : RowMeaning .channelUnassign op.access (exec (.channelUnassign op)) := by
  cases op with
  | build a => exact .build [.num a] nofun
  | view p => exact .view p nofun nofun
  | getChannel p => exact .get .channel p
  | setChannel p v => exact .setChannel p v ⟨_, rfl, rfl⟩

theorem accessible_channelUnassign (op : ChannelUnassignOp) : Accessible defaultConfig .channelUnassign op.access := by
  cases op with
  | build => exact ⟨_, rfl, nofun⟩
  | _ => exact ⟨_, rfl⟩

theorem setPayload_channelUnassign {op : ChannelUnassignOp} {n : FieldName} {p : Payload} {x : FieldVal}
    (h : op.access = .set n p x) (hw : op.wf = true) : p.length ≤ 9 := by
  cases op <;> first
    | (cases h; exact payFits_iff.mp (Bool.and_eq_true_iff.mp hw).1)
    | cases h

theorem exec_channelAssign (op : ChannelAssignOp) : RowMeaning .channelAssign op.access (exec (.channelAssign op)) := by
  cases op with
  | build a b c => exact .build [.num a, .num b, .num c] nofun
  | view p => exact .view p nofun nofun
  | getChannel p => exact .get .channel p
  | getChannelType p => exact .get .channelType p
  | getNetworkNumber p => exact .get .networkNumber p
  | setChannel p v => exact .setChannel p v ⟨_, rfl, rfl⟩
  | setChannelType p v => exact .set .channelType p (.num v)
  | setNetworkNumber p v => exact .set .networkNumber p (.num v)

theorem accessible_channelAssign (op : ChannelAssignOp) : Accessible defaultConfig .channelAssign op.access := by
  cases op with
  | build => exact ⟨_, rfl, nofun⟩
  | _ => exact ⟨_, rfl⟩

theorem setPayload_channelAssign {op : ChannelAssignOp} {n : FieldName} {p : Payload} {x : FieldVal}
    (h : op.access = .set n p x) (hw : op.wf = true) : p.length ≤ 9 := by
  cases op <;> first
    | (cases h; exact payFits_iff.mp (Bool.and_eq_true_iff.mp hw).1)
    | cases h

theorem exec_channelID (op : ChannelIDOp) : RowMeaning .channelID op.access (exec (.channelID op)) := by
  cases op with
  | build a b c d => exact .build [.num a, .num b, .num c, .num d] nofun
  | view p => exact .view p nofun nofun
  | getChannel p => exact .get .channel p
  | getDeviceNumber p => exact .get .deviceNumber p
  | getDeviceType p => exact .get .deviceType p
  | getTransmissionType p => exact .get .transmissionType p
  | setChannel p v => exact .setChannel p v ⟨_, rfl, rfl⟩
  | setDeviceNumber p v => exact .set .deviceNumber p (.num v)
  | setDeviceType p v => exact .set .deviceType p (.num v)
  | setTransmissionType p v => exact .set .transmissionType p (.num v)

theorem accessible_channelID (op : ChannelIDOp) : Accessible defaultConfig .channelID op.access := by
  cases op with
  | build => exact ⟨_, rfl, nofun⟩
  | _ => exact ⟨_, rfl⟩

theorem setPayload_channelID {op : ChannelIDOp} {n : FieldName} {p : Payload} {x : FieldVal}
    (h : op.access = .set n p x) (hw : op.wf = true) : p.length ≤ 9 := by
  cases op <;> first
    | (cases h; exact payFits_iff.mp (Bool.and_eq_true_iff.mp hw).1)
    | cases h

theorem exec_channelPeriod (op : ChannelPeriodOp) : RowMeaning .channelPeriod op.access (exec (.channelPeriod op)) := by
  cases op with
  | build a b => exact .build [.num a, .num b] nofun
  | view p => exact .view p nofun nofun
  | getChannel p => exact .get .channel p
  | getPeriod p => exact .get .period p
  | setChannel p v => exact .setChannel p v ⟨_, rfl, rfl⟩
  | setPeriod p v => exact .set .period p (.num v)

theorem accessible_channelPeriod (op : ChannelPeriodOp) : Accessible defaultConfig .channelPeriod op.access := by
  cases op with
  | build => exact ⟨_, rfl, nofun⟩
  | _ => exact ⟨_, rfl⟩

theorem setPayload_channelPeriod {op : ChannelPeriodOp} {n : FieldName} {p : Payload} {x : FieldVal}
    (h : op.access = .set n p x) (hw : op.wf = true) : p.length ≤ 9 := by
  cases op <;> first
    | (cases h; exact payFits_iff.mp (Bool.and_eq_true_iff.mp hw).1)
    | cases h

theorem exec_channelSearchTimeout (op : ChannelSearchTimeoutOp) : RowMeaning .channelSearchTimeout op.access (exec (.channelSearchTimeout op)) := by
  cases op with
  | build a b => exact .build [.num a, .num b] nofun
  | view p => exact .view p nofun nofun
  | getChannel p => exact .get .channel p
  | getTimeout p => exact .get .timeout p
  | setChannel p v => exact .setChannel p v ⟨_, rfl, rfl⟩
  | setTimeout p v => exact .set .timeout p (.num v)

theorem accessible_channelSearchTimeout (op : ChannelSearchTimeoutOp) : Accessible defaultConfig .channelSearchTimeout op.access := by
  cases op with
  | build => exact ⟨_, rfl, nofun⟩
  | _ => exact ⟨_, rfl⟩

theorem setPayload_channelSearchTimeout {op : ChannelSearchTimeoutOp} {n : FieldName} {p : Payload} {x : FieldVal}
    (h : op.access = .set n p x) (hw : op.wf = true) : p.length ≤ 9 := by
  cases op <;> first
    | (cases h; exact payFits_iff.mp (Bool.and_eq_true_iff.mp hw).1)
    | cases h

theorem exec_channelFrequency (op : ChannelFrequencyOp) : RowMeaning .channelFrequency op.access (exec (.channelFrequency op)) := by
  cases op with
  | build a b => exact .build [.num a, .num b] nofun
  | view p => exact .view p nofun nofun
  | getChannel p => exact .get .channel p
  | getFrequency p => exact .get .frequency p
  | setChannel p v => exact .setChannel p v ⟨_, rfl, rfl⟩
  | setFrequency p v => exact .set .frequency p (.num v)

theorem accessible_channelFrequency (op : ChannelFrequencyOp) : Accessible defaultConfig .channelFrequency op.access := by
  cases op with
  | build => exact ⟨_, rfl, nofun⟩
  | _ => exact ⟨_, rfl⟩

theorem setPayload_channelFrequency {op : ChannelFrequencyOp} {n : FieldName} {p : Payload} {x : FieldVal}
    (h : op.access = .set n p x) (hw : op.wf = true) : p.length ≤ 9 := by
  cases op <;> first
    | (cases h; exact payFits_iff.mp (Bool.and_eq_true_iff.mp hw).1)
    | cases h

theorem exec_channelTXPower (op : ChannelTXPowerOp) : RowMeaning .channelTXPower op.access (exec (.channelTXPower op)) := by
  cases op with
  | build a b => exact .build [.num a, .num b] nofun
  | view p => exact .view p nofun nofun
  | getChannel p => exact .get .channel p
  | getPower p => exact .get .power p
  | setChannel p v => exact .setChannel p v ⟨_, rfl, rfl⟩
  | setPower p v => exact .set .power p (.num v)

theorem accessible_channelTXPower (op : ChannelTXPowerOp) : Accessible defaultConfig .channelTXPower op.access := by
  cases op with
  | build => exact ⟨_, rfl, nofun⟩
  | _ => exact ⟨_, rfl⟩

theorem setPayload_channelTXPower {op : ChannelTXPowerOp} {n : FieldName} {p : Payload} {x : FieldVal}
    (h : op.access = .set n p x) (hw : op.wf = true) : p.length ≤ 9 := by
  cases op <;> first
    | (cases h; exact payFits_iff.mp (Bool.and_eq_true_iff.mp hw).1)
    | cases h

theorem exec_networkKey (op : NetworkKeyOp) : RowMeaning .networkKey op.access (exec (.networkKey op)) := by
  cases op with
  | build a b => exact .build [.num a, .str b] nofun
  | view p => exact .view p nofun nofun
  | getNetworkNumber p => exact .get .networkNumber p
  | getKey p => exact .get .key p
  | setNetworkNumber p v => exact .set .networkNumber p (.num v)
  | setKey p v => exact .set .key p (.str v)

theorem accessible_networkKey (op : NetworkKeyOp) : Accessible defaultConfig .networkKey op.access := by
  cases op with
  | build => exact ⟨_, rfl, nofun⟩
  | _ => exact ⟨_, rfl⟩

theorem setPayload_networkKey {op : NetworkKeyOp} {n : FieldName} {p : Payload} {x : FieldVal}
    (h : op.access = .set n p x) (hw : op.wf = true) : p.length ≤ 9 := by
  cases op <;> first
    | (cases h; exact payFits_iff.mp (Bool.and_eq_true_iff.mp hw).1)
    | cases h

theorem exec_txPower (op : TXPowerOp) : RowMeaning .txPower op.access (exec (.txPower op)) := by
  cases op with
  | build a b => exact .build [.num a, .num b] nofun
  | view p => exact .view p nofun nofun
  | getB0 p => exact .get .b0 p
  | getPower p => exact .get .power p
  | setB0 p v => exact .set .b0 p (.num v)
  | setPower p v => exact .set .power p (.num v)

theorem accessible_txPower (op : TXPowerOp) : Accessible defaultConfig .txPower op.access := by
  cases op with
  | build => exact ⟨_, rfl, nofun⟩
  | _ => exact ⟨_, rfl⟩

theorem setPayload_txPower {op : TXPowerOp} {n : FieldName} {p : Payload} {x : FieldVal}
    (h : op.access = .set n p x) (hw : op.wf = true) : p.length ≤ 9 := by
  cases op <;> first
    | (cases h; exact payFits_iff.mp (Bool.and_eq_true_iff.mp hw).1)
    | cases h

theorem exec_systemReset (op : SystemResetOp) : RowMeaning .systemReset op.access (exec (.systemReset op)) := by
  cases op with
  | build fill =>
    cases fill with
    | none => exact .buildDefault rfl
    | some a => exact .build [.num a] (fun _ => nofun)
  | view p => exact .viewNothing p rfl
  | getReserved p => exact .get .reserved p

theorem accessible_systemReset (op : SystemResetOp) (h : op.access ≠ .build []) : Accessible defaultConfig .systemReset op.access := by
  cases op with
  | build fill =>
    cases fill with
    | none => exact absurd rfl h
    | some a => exact ⟨_, rfl, nofun⟩
  | view p => exact ⟨_, rfl⟩
  | getReserved p => exact ⟨_, rfl⟩

theorem exec_channelOpen (op : ChannelOpenOp) : RowMeaning .channelOpen op.access (exec (.channelOpen op)) := by
  cases op with
  | build a => exact .build [.num a] nofun
  | view p => exact .view p nofun nofun
  | getChannel p => exact .get .channel p
  | setChannel p v => exact .setChannel p v ⟨_, rfl, rfl⟩

theorem accessible_channelOpen (op : ChannelOpenOp) : Accessible defaultConfig .channelOpen op.access := by
  cases op with
  | build => exact ⟨_, rfl, nofun⟩
  | _ => exact ⟨_, rfl⟩

theorem setPayload_channelOpen {op : ChannelOpenOp} {n : FieldName} {p : Payload} {x : FieldVal}
    (h : op.access = .set n p x) (hw : op.wf = true) : p.length ≤ 9 := by
  cases op <;> first
    | (cases h; exact payFits_iff.mp (Bool.and_eq_true_iff.mp hw).1)
    | cases h

theorem exec_channelClose (op : ChannelCloseOp) : RowMeaning .channelClose op.access (exec (.channelClose op)) := by
  cases op with
  | build a => exact .build [.num a] nofun
  | view p => exact .view p nofun nofun
  | getChannel p => exact .get .channel p
  | setChannel p v => exact .setChannel p v ⟨_, rfl, rfl⟩

theorem accessible_channelClose (op : ChannelCloseOp) : Accessible defaultConfig .channelClose op.access := by
  cases op with
  | build => exact ⟨_, rfl, nofun⟩
  | _ => exact ⟨_, rfl⟩

theorem setPayload_channelClose {op : ChannelCloseOp} {n : FieldName} {p : Payload} {x : FieldVal}
    (h : op.access = .set n p x) (hw : op.wf = true) : p.length ≤ 9 := by
  cases op <;> first
    | (cases h; exact payFits_iff.mp (Bool.and_eq_true_iff.mp hw).1)
    | cases h

theorem exec_channelRequest (op : ChannelRequestOp) : RowMeaning .channelRequest op.access (exec (.channelRequest op)) := by
  cases op with
  | build a b => exact .build [.num a, .num b] nofun
  | view p => exact .view p nofun nofun
  | getChannel p => exact .get .channel p
  | getRequestedMessageId p => exact .get .requestedMessageId p
  | setChannel p v => exact .setChannel p v ⟨_, rfl, rfl⟩
  | setRequestedMessageId p v => exact .set .requestedMessageId p (.num v)

theorem accessible_channelRequest (op : ChannelRequestOp) : Accessible defaultConfig .channelRequest op.access := by
  cases op with
  | build => exact ⟨_, rfl, nofun⟩
  | _ => exact ⟨_, rfl⟩

theorem setPayload_channelRequest {op : ChannelRequestOp} {n : FieldName} {p : Payload} {x : FieldVal}
    (h : op.access = .set n p x) (hw : op.wf = true) : p.length ≤ 9 := by
  cases op <;> first
    | (cases h; exact payFits_iff.mp (Bool.and_eq_true_iff.mp hw).1)
    | cases h

theorem exec_broadcastData (op : BroadcastDataOp) : RowMeaning .broadcastData op.access (exec (.broadcastData op)) := by
  cases op with
  | build a b => exact .build [.num a, .str b] nofun
  | view p => exact .view p nofun nofun
  | getChannel p => exact .get .channel p
  | getData p => exact .get .data p
  | setChannel p v => exact .setChannel p v ⟨_, rfl, rfl⟩
  | setData p v => exact .set .data p (.str v)

theorem accessible_broadcastData (op : BroadcastDataOp) : Accessible defaultConfig .broadcastData op.access := by
  cases op with
  | build => exact ⟨_, rfl, nofun⟩
  | _ => exact ⟨_, rfl⟩

theorem setPayload_broadcastData {op : BroadcastDataOp} {n : FieldName} {p : Payload} {x : FieldVal}
    (h : op.access = .set n p x) (hw : op.wf = true) : p.length ≤ 9 := by
  cases op <;> first
    | (cases h; exact payFits_iff.mp (Bool.and_eq_true_iff.mp hw).1)
    | cases h

theorem exec_acknowledgedData (op : AcknowledgedDataOp) : RowMeaning .acknowledgedData op.access (exec (.acknowledgedData op)) := by
  cases op with
  | build a b => exact .build [.num a, .str b] nofun
  | view p => exact .view p nofun nofun
  | getChannel p => exact .get .channel p
  | getData p => exact .get .data p
  | setChannel p v => exact .setChannel p v ⟨_, rfl, rfl⟩
  | setData p v => exact .set .data p (.str v)

theorem accessible_acknowledgedData (op : AcknowledgedDataOp) : Accessible defaultConfig .acknowledgedData op.access := by
  cases op with
  | build => exact ⟨_, rfl, nofun⟩
  | _ => exact ⟨_, rfl⟩

theorem setPayload_acknowledgedData {op : AcknowledgedDataOp} {n : FieldName} {p : Payload} {x : FieldVal}
    (h : op.access = .set n p x) (hw : op.wf = true) : p.length ≤ 9 := by
  cases op <;> first
    | (cases h; exact payFits_iff.mp (Bool.and_eq_true_iff.mp hw).1)
    | cases h

theorem exec_burstData (op : BurstDataOp) : RowMeaning .burstData op.access (exec (.burstData op)) := by
  cases op with
  | build a b => exact .build [.num a, .str b] nofun
  | view p => exact .view p nofun nofun
  | getChannel p => exact .get .channel p
  | getData p => exact .get .data p
  | setChannel p v => exact .setChannel p v ⟨_, rfl, rfl⟩
  | setData p v => exact .set .data p (.str v)

theorem accessible_burstData (op : BurstDataOp) : Accessible defaultConfig .burstData op.access := by
  cases op with
  | build => exact ⟨_, rfl, nofun⟩
  | _ => exact ⟨_, rfl⟩

theorem setPayload_burstData {op : BurstDataOp} {n : FieldName} {p : Payload} {x : FieldVal}
    (h : op.access = .set n p x) (hw : op.wf = true) : p.length ≤ 9 := by
  cases op <;> first
    | (cases h; exact payFits_iff.mp (Bool.and_eq_true_iff.mp hw).1)
    | cases h

theorem exec_channelEvent (op : ChannelEventOp) : RowMeaning .channelEvent op.access (exec (.channelEvent op)) := by
  cases op with
  | build a b c => exact .build [.num a, .num b, .num c] nofun
  | view p => exact .view p nofun nofun
  | getChannel p => exact .get .channel p
  | getMessageId p => exact .get .messageId p
  | getMessageCode p => exact .get .messageCode p
  | setChannel p v => exact .setChannel p v ⟨_, rfl, rfl⟩
  | setMessageId p v => exact .set .messageId p (.num v)
  | setMessageCode p v => exact .set .messageCode p (.num v)

theorem accessible_channelEvent (op : ChannelEventOp) : Accessible defaultConfig .channelEvent op.access := by
  cases op with
  | build => exact ⟨_, rfl, nofun⟩
  | _ => exact ⟨_, rfl⟩

theorem setPayload_channelEvent {op : ChannelEventOp} {n : FieldName} {p : Payload} {x : FieldVal}
    (h : op.access = .set n p x) (hw : op.wf = true) : p.length ≤ 9 := by
  cases op <;> first
    | (cases h; exact payFits_iff.mp (Bool.and_eq_true_iff.mp hw).1)
    | cases h

theorem exec_channelStatus (op : ChannelStatusOp) : RowMeaning .channelStatus op.access (exec (.channelStatus op)) := by
  cases op with
  | build a b => exact .build [.num a, .num b] nofun
  | view p => exact .view p nofun nofun
  | getChannel p => exact .get .channel p
  | getStatus p => exact .get .status p
  | setChannel p v => exact .setChannel p v ⟨_, rfl, rfl⟩
  | setStatus p v => exact .set .status p (.num v)

theorem accessible_channelStatus (op : ChannelStatusOp) : Accessible defaultConfig .channelStatus op.access := by
  cases op with
  | build => exact ⟨_, rfl, nofun⟩
  | _ => exact ⟨_, rfl⟩

theorem setPayload_channelStatus {op : ChannelStatusOp} {n : FieldName} {p : Payload} {x : FieldVal}
    (h : op.access = .set n p x) (hw : op.wf = true) : p.length ≤ 9 := by
  cases op <;> first
    | (cases h; exact payFits_iff.mp (Bool.and_eq_true_iff.mp hw).1)
    | cases h

theorem exec_version (op : VersionOp) : RowMeaning .version op.access (exec (.version op)) := by
  cases op with
  | build a => exact .build [.str a] nofun
  | view p => exact .view p nofun nofun
  | getVersion p => exact .get .version p
  | setVersion p v => exact .set .version p (.str v)

theorem accessible_version (op : VersionOp) : Accessible defaultConfig .version op.access := by
  cases op with
  | build => exact ⟨_, rfl, nofun⟩
  | _ => exact ⟨_, rfl⟩

theorem setPayload_version {op : VersionOp} {n : FieldName} {p : Payload} {x : FieldVal}
    (h : op.access = .set n p x) (hw : op.wf = true) : p.length ≤ 9 := by
  cases op <;> first
    | (cases h; exact payFits_iff.mp (Bool.and_eq_true_iff.mp hw).1)
    | cases h

theorem exec_startup (op : StartupOp) : RowMeaning .startup op.access (exec (.startup op)) := by
  cases op with
  | build a => exact .build [.num a] nofun
  | view p => exact .view p nofun nofun
  | getStartupReason p => exact .get .startupReason p
  | setStartupReason p v => exact .set .startupReason p (.num v)

theorem accessible_startup (op : StartupOp) : Accessible defaultConfig .startup op.access := by
  cases op with
  | build => exact ⟨_, rfl, nofun⟩
  | _ => exact ⟨_, rfl⟩

theorem setPayload_startup {op : StartupOp} {n : FieldName} {p : Payload} {x : FieldVal}
    (h : op.access = .set n p x) (hw : op.wf = true) : p.length ≤ 9 := by
  cases op <;> first
    | (cases h; exact payFits_iff.mp (Bool.and_eq_true_iff.mp hw).1)
    | cases h

theorem exec_capabilities (op : CapabilitiesOp) : RowMeaning .capabilities op.access (exec (.capabilities op)) := by
  cases op with
  | build a b c d e =>
    cases e with
    | none => exact .build [.num a, .num b, .num c, .num d] nofun
    | some e => exact .build [.num a, .num b, .num c, .num d, .num e] nofun
  | view p => exact .viewCapabilities p rfl
  | getMaxChannels p => exact .get .maxChannels p
  | getMaxNetworks p => exact .get .maxNetworks p
  | getStdOptions p => exact .get .stdOptions p
  | getAdvOptions p => exact .get .advOptions p
  | getAdvOptions2 p => exact .get .advOptions2 p
  | setMaxChannels p v => exact .set .maxChannels p (.num v)
  | setMaxNetworks p v => exact .set .maxNetworks p (.num v)
  | setStdOptions p v => exact .set .stdOptions p (.num v)
  | setAdvOptions p v => exact .set .advOptions p (.num v)
  | setAdvOptions2 p v => exact .set .advOptions2 p (.num v)

theorem accessible_capabilities (op : CapabilitiesOp) : Accessible defaultConfig .capabilities op.access := by
  cases op with
  | build a b c d e =>
    cases e with
    | none => exact ⟨_, rfl, fun d hd => by cases hd; rfl⟩
    | some e => exact ⟨_, rfl, nofun⟩
  | _ => exact ⟨_, rfl⟩

theorem setPayload_capabilities {op : CapabilitiesOp} {n : FieldName} {p : Payload} {x : FieldVal}
    (h : op.access = .set n p x) (hw : op.wf = true) : p.length ≤ 9 := by
  cases op <;> first
    | (cases h; exact payFits_iff.mp (Bool.and_eq_true_iff.mp hw).1)
    | (rename_i e; cases e <;> cases h)

theorem exec_serialNumber (op : SerialNumberOp) : RowMeaning .serialNumber op.access (exec (.serialNumber op)) := by
  cases op with
  | build a => exact .build [.str a] nofun
  | view p => exact .view p nofun nofun
  | getSerial p => exact .get .serial p
  | setSerial p v => exact .set .serial p (.str v)

theorem accessible_serialNumber (op : SerialNumberOp) : Accessible defaultConfig .serialNumber op.access := by
  cases op with
  | build => exact ⟨_, rfl, nofun⟩
  | _ => exact ⟨_, rfl⟩

theorem setPayload_serialNumber {op : SerialNumberOp} {n : FieldName} {p : Payload} {x : FieldVal}
    (h : op.access = .set n p x) (hw : op.wf = true) : p.length ≤ 9 := by
  cases op <;> first
    | (cases h; exact payFits_iff.mp (Bool.and_eq_true_iff.mp hw).1)
    | cases h

/-- The meaning of an operation on a variant is one of the shared operations. -/
theorem perform_row {o : Operation} {v : Variant} {op : FieldOp} (h : rowOp o = some (v, op)) :
    RowMeaning v op (perform o) := by
  cases o with
  | added k op =>
    cases h
    cases op with
    | build xs => exact .build xs nofun
    | view p => exact .view p nofun nofun
    | get n p => exact .get n p
    | set n p x => exact .set n p x
  | instr i =>
    cases i with
    | encode _ _ => cases h
    | decode _ => cases h
    | resolve _ => cases h
    | cksum _ => cases h
    | lookup _ => cases h
    | chbuild _ _ _ => cases h
    | chview _ => cases h
    | chset _ _ => cases h
    | channelUnassign op => cases h; exact exec_channelUnassign op
    | channelAssign op => cases h; exact exec_channelAssign op
    | channelID op => cases h; exact exec_channelID op
    | channelPeriod op => cases h; exact exec_channelPeriod op
    | channelSearchTimeout op => cases h; exact exec_channelSearchTimeout op
    | channelFrequency op => cases h; exact exec_channelFrequency op
    | channelTXPower op => cases h; exact exec_channelTXPower op
    | networkKey op => cases h; exact exec_networkKey op
    | txPower op => cases h; exact exec_txPower op
    | systemReset op => cases h; exact exec_systemReset op
    | channelOpen op => cases h; exact exec_channelOpen op
    | channelClose op => cases h; exact exec_channelClose op
    | channelRequest op => cases h; exact exec_channelRequest op
    | broadcastData op => cases h; exact exec_broadcastData op
    | acknowledgedData op => cases h; exact exec_acknowledgedData op
    | burstData op => cases h; exact exec_burstData op
    | channelEvent op => cases h; exact exec_channelEvent op
    | channelStatus op => cases h; exact exec_channelStatus op
    | version op => cases h; exact exec_version op
    | startup op => cases h; exact exec_startup op
    | capabilities op => cases h; exact exec_capabilities op
    | serialNumber op => cases h; exact exec_serialNumber op

/-- VIEW of a variant is its VIEW. -/
@[simp] theorem rowOp_viewInstr (v : Variant) (p : Payload) : rowOp (viewInstr v p) = some (v, .view p) := by
  cases v <;> rfl

/-- Every GET is the shared one. -/
theorem perform_get {o : Operation} {v : Variant} {n : FieldName} {p : Payload} (h : rowOp o = some (v, .get n p)) :
    perform o = getOp v n p := by
  have hm := perform_row h
  generalize perform o = m at hm
  cases hm
  rfl

/-- Every SET is the shared one; CHSET writes the field channel. -/
theorem perform_set {o : Operation} {s : State} (hc : ConfigLegal s.cfg) {v : Variant} {n : FieldName} {p : Payload}
    {x : FieldVal} (h : rowOp o = some (v, .set n p x)) : perform o s = setOp v n p x s := by
  have hm := perform_row h
  generalize perform o = m at hm
  cases hm with
  | set _ _ _ => rfl
  | setChannel _ chan hs =>
    obtain ⟨r, hr, hs⟩ := hs
    simp only [setChannelOp, setOp, setRow, specOf_channel hc (rowOf_legal hc hr) hs, setChannelOf]

/-- Under a legal configuration every instruction finds the layout it reads. -/
theorem accessible_instr {c : Config} (hc : ConfigLegal c) {i : Instr} {v : Variant} {op : FieldOp}
    (h : rowOp (.instr i) = some (v, op)) (hn : v = .systemReset → op ≠ .build []) : Accessible c v op := by
  have key : v ∈ variants ∧ Accessible defaultConfig v op := by
    cases i with
    | encode _ _ => cases h
    | decode _ => cases h
    | resolve _ => cases h
    | cksum _ => cases h
    | lookup _ => cases h
    | chbuild _ _ _ => cases h
    | chview _ => cases h
    | chset _ _ => cases h
    | channelUnassign op => cases h; exact ⟨by decide, accessible_channelUnassign op⟩
    | channelAssign op => cases h; exact ⟨by decide, accessible_channelAssign op⟩
    | channelID op => cases h; exact ⟨by decide, accessible_channelID op⟩
    | channelPeriod op => cases h; exact ⟨by decide, accessible_channelPeriod op⟩
    | channelSearchTimeout op => cases h; exact ⟨by decide, accessible_channelSearchTimeout op⟩
    | channelFrequency op => cases h; exact ⟨by decide, accessible_channelFrequency op⟩
    | channelTXPower op => cases h; exact ⟨by decide, accessible_channelTXPower op⟩
    | networkKey op => cases h; exact ⟨by decide, accessible_networkKey op⟩
    | txPower op => cases h; exact ⟨by decide, accessible_txPower op⟩
    | systemReset op => cases h; exact ⟨by decide, accessible_systemReset op (hn rfl)⟩
    | channelOpen op => cases h; exact ⟨by decide, accessible_channelOpen op⟩
    | channelClose op => cases h; exact ⟨by decide, accessible_channelClose op⟩
    | channelRequest op => cases h; exact ⟨by decide, accessible_channelRequest op⟩
    | broadcastData op => cases h; exact ⟨by decide, accessible_broadcastData op⟩
    | acknowledgedData op => cases h; exact ⟨by decide, accessible_acknowledgedData op⟩
    | burstData op => cases h; exact ⟨by decide, accessible_burstData op⟩
    | channelEvent op => cases h; exact ⟨by decide, accessible_channelEvent op⟩
    | channelStatus op => cases h; exact ⟨by decide, accessible_channelStatus op⟩
    | version op => cases h; exact ⟨by decide, accessible_version op⟩
    | startup op => cases h; exact ⟨by decide, accessible_startup op⟩
    | capabilities op => cases h; exact ⟨by decide, accessible_capabilities op⟩
    | serialNumber op => cases h; exact ⟨by decide, accessible_serialNumber op⟩
  obtain ⟨hv, ha⟩ := key
  have hr := rowOf_legal_eq hc hv
  have hs := specOf_legal hc hv
  cases op <;> simpa only [Accessible, hr, hs] using ha

/-- A complete operation of an added variant finds the layout it reads. -/
theorem accessible_added {c : Config} {k : Fin 10} {op : FieldOp}
    (h : (Operation.added k op).complete c = true) : Accessible c (.added k) op := by
  simp only [Operation.complete] at h
  split at h
  · cases h
  · rename_i r hr
    have hs : ∀ n, r.fields.any (fun d => d.name == n) = true → ∃ d, specOf c (.added k) n = some d := by
      intro n hn
      simp only [specOf, hr]
      rw [← Option.isSome_iff_exists, List.find?_isSome]
      simpa using hn
    cases op with
    | build xs =>
      refine ⟨r, hr, fun d hd => ?_⟩
      rw [of_decide_eq_true h] at hd
      simp at hd
    | view p => exact ⟨r, hr⟩
    | get n p => exact hs n h
    | set n p x => exact hs n h

/-- Every complete operation on a variant finds the layout it reads, but for the BUILD of SystemReset that takes the
configured fill. -/
theorem accessible_of_complete {c : Config} (hc : ConfigLegal c) {o : Operation} {v : Variant} {op : FieldOp}
    (h : rowOp o = some (v, op)) (ho : o.complete c = true) (hn : v = .systemReset → op ≠ .build []) :
    Accessible c v op := by
  cases o with
  | instr i => exact accessible_instr hc h hn
  | added k op => cases h; exact accessible_added ho

/-- A well-formed operation is complete. -/
theorem Operation.complete_of_wf {c : Config} {o : Operation} (h : o.wf c = true) : o.complete c = true := by
  cases o with
  | instr i => rfl
  | added k op =>
    simp only [Operation.wf] at h
    simp only [Operation.complete]
    split at h
    · cases h
    · rename_i r hr; exact (Bool.and_eq_true_iff.mp h).1

/-- The payload operand of a well-formed SET fits its port. -/
theorem setPayload_of_wf {c : Config} {o : Operation} {v : Variant} {n : FieldName} {p : Payload} {x : FieldVal}
    (h : rowOp o = some (v, .set n p x)) (hw : o.wf c = true) : p.length ≤ 9 := by
  cases o with
  | added k op =>
    cases h
    simp only [Operation.wf] at hw
    split at hw
    · cases hw
    · exact payFits_iff.mp (Bool.and_eq_true_iff.mp (Bool.and_eq_true_iff.mp hw).2).1
  | instr i =>
    cases i with
    | encode _ _ => cases h
    | decode _ => cases h
    | resolve _ => cases h
    | cksum _ => cases h
    | lookup _ => cases h
    | chbuild _ _ _ => cases h
    | chview _ => cases h
    | chset _ _ => cases h
    | channelUnassign op => injection h with h; injection h with h1 h; exact setPayload_channelUnassign h hw
    | channelAssign op => injection h with h; injection h with h1 h; exact setPayload_channelAssign h hw
    | channelID op => injection h with h; injection h with h1 h; exact setPayload_channelID h hw
    | channelPeriod op => injection h with h; injection h with h1 h; exact setPayload_channelPeriod h hw
    | channelSearchTimeout op => injection h with h; injection h with h1 h; exact setPayload_channelSearchTimeout h hw
    | channelFrequency op => injection h with h; injection h with h1 h; exact setPayload_channelFrequency h hw
    | channelTXPower op => injection h with h; injection h with h1 h; exact setPayload_channelTXPower h hw
    | networkKey op => injection h with h; injection h with h1 h; exact setPayload_networkKey h hw
    | txPower op => injection h with h; injection h with h1 h; exact setPayload_txPower h hw
    | systemReset op =>
      cases op with
      | build fill => cases fill <;> cases h
      | view p => cases h
      | getReserved p => cases h
    | channelOpen op => injection h with h; injection h with h1 h; exact setPayload_channelOpen h hw
    | channelClose op => injection h with h; injection h with h1 h; exact setPayload_channelClose h hw
    | channelRequest op => injection h with h; injection h with h1 h; exact setPayload_channelRequest h hw
    | broadcastData op => injection h with h; injection h with h1 h; exact setPayload_broadcastData h hw
    | acknowledgedData op => injection h with h; injection h with h1 h; exact setPayload_acknowledgedData h hw
    | burstData op => injection h with h; injection h with h1 h; exact setPayload_burstData h hw
    | channelEvent op => injection h with h; injection h with h1 h; exact setPayload_channelEvent h hw
    | channelStatus op => injection h with h; injection h with h1 h; exact setPayload_channelStatus h hw
    | version op => injection h with h; injection h with h1 h; exact setPayload_version h hw
    | startup op => injection h with h; injection h with h1 h; exact setPayload_startup h hw
    | capabilities op => injection h with h; injection h with h1 h; exact setPayload_capabilities h hw
    | serialNumber op => injection h with h; injection h with h1 h; exact setPayload_serialNumber h hw

/-- The meaning of an operation on a variant is a finished operation. -/
theorem RowMeaning.finishes {v : Variant} {op : FieldOp} {m : State → Host.Outcome State Fault Refusal}
    (h : RowMeaning v op m) : ∃ f : Config → Except Stop Results, ∀ s, m s = finish s (f s.cfg) := by
  cases h with
  | build xs _ => exact ⟨fun c => (buildRow c v xs).map _, fun s => payoutOf_eq s _⟩
  | buildDefault _ => exact ⟨fun c => (buildRow c v [.num (numOf c.sysresetFill)]).map _, fun s => payoutOf_eq s _⟩
  | view p _ _ => exact ⟨fun c => (viewRow c v p).map _, fun s => fieldsOf_eq s _⟩
  | viewNothing _ _ => exact ⟨fun _ => (Except.ok []).map _, fun s => fieldsOf_eq s _⟩
  | viewCapabilities p _ => exact ⟨fun c => ((viewRow c v p).map _).map _, fun s => fieldsOf_eq s _⟩
  | get n p => exact ⟨fun c => ((getRow c v n p).map _).map _, fun s => fieldsOf_eq s _⟩
  | set n p x => exact ⟨fun c => (setRow c v n p x).map _, fun s => payoutOf_eq s _⟩
  | setChannel p chan _ => exact ⟨fun _ => (setChannelOf (.variant v) p chan).map _, fun s => payoutOf_eq s _⟩

/-- Every meaning is a finished operation that reads the configuration alone (00_scope.md R21). -/
theorem perform_finishes (o : Operation) : ∃ f : Config → Except Stop Results, ∀ s, perform o s = finish s (f s.cfg) := by
  cases hv : rowOp o with
  | some z => exact (perform_row (v := z.1) (op := z.2) hv).finishes
  | none =>
    cases o with
    | added k op => cases hv
    | instr i =>
      cases i <;> try cases hv
      case none.instr.encode.refl t p => exact ⟨fun c => match encodeFrame c t p with
        | .error e => .error e
        | .ok f => .ok { status := some .ok, frame := some f, frameLen := some (p.length + c.overhead.toNat) },
        fun s => rfl⟩
      case none.instr.decode.refl buf => exact ⟨fun c => match decodeFrame c buf with
        | .error e => .error e
        | .ok d => .ok { status := some .ok, rtype := some d.type, rpay := some d.payload,
                         rlen := some d.payload.length, consumed := some d.consumed }, fun s => rfl⟩
      case none.instr.resolve.refl buf => exact ⟨fun c => match decodeFrame c buf with
        | .error e => .error e
        | .ok d =>
          match lookupType c d.type with
          | .error e => .error e
          | .ok id => .ok { status := some .ok, variant := some id, rtype := some d.type, rpay := some d.payload,
                            rlen := some d.payload.length, consumed := some d.consumed }, fun s => rfl⟩
      case none.instr.cksum.refl b => exact ⟨fun _ => .ok { cksum := some (xor8 b) }, fun s => rfl⟩
      case none.instr.lookup.refl t => exact ⟨fun c => match lookupType c t with
        | .error e => .error e
        | .ok id => .ok { status := some .ok, variant := some id }, fun s => rfl⟩
      case none.instr.chbuild.refl t chan extra => exact ⟨fun c => match channelPayload c chan extra with
        | .error e => .error e
        | .ok p => .ok { status := some .ok, payout := some p, msgType := some t }, fun s => rfl⟩
      case none.instr.chview.refl p => exact ⟨fun _ => Except.map _ _, fun s => fieldsOf_eq s _⟩
      case none.instr.chset.refl p chan =>
        exact ⟨fun _ => (setChannelOf .channelLayer p chan).map _, fun s => payoutOf_eq s _⟩

/-- An operation changes the result ports and nothing else. -/
theorem perform_next {o : Operation} {s t : State} (h : perform o s = .next t) : t = { s with res := t.res } := by
  obtain ⟨f, hf⟩ := perform_finishes o
  rw [hf] at h
  obtain ⟨r, -, rfl⟩ := finish_next h
  rfl

/-- No operation is refused. -/
theorem perform_not_refused {o : Operation} {s : State} {r : Refusal} : perform o s ≠ .refused r := by
  obtain ⟨f, hf⟩ := perform_finishes o
  rw [hf]
  exact finish_not_refused s

theorem exec_finishes (i : Instr) : ∃ f : Config → Except Stop Results, ∀ s, exec i s = finish s (f s.cfg) :=
  perform_finishes (.instr i)

theorem exec_next {i : Instr} {s t : State} (h : exec i s = .next t) : t = { s with res := t.res } :=
  perform_next (o := .instr i) h

theorem exec_not_refused {i : Instr} {s : State} {r : Refusal} : exec i s ≠ .refused r :=
  perform_not_refused (o := .instr i)

/-- All that a step that answers a next state can do: idle, or perform the oldest request and present its outcome. -/
theorem step_next {s t : State} (h : step s = .next t) :
    (s.requests = [] ∧ t = idle s) ∨
    ∃ (r : Request) (rest : List Request) (o : Operation) (u : State), s.requests = r :: rest ∧
      decode s.cfg r = .ok o ∧ perform o { s with requests := rest } = .next u ∧ t = showOutcome u := by
  unfold step at h
  split at h
  · rename_i hs; cases h; exact .inl ⟨hs, rfl⟩
  · rename_i r rest hs
    split at h
    · rename_i o ho
      obtain ⟨u, hu, rfl⟩ := conclude_next h
      exact .inr ⟨r, rest, o, u, hs, ho, hu, rfl⟩
    · cases h

end Sys2Proof.Machine
end

