-- ==== Sys2Proof/Laws/PerInstr.lean ====
section
/-! SUPPORT. A statement per instruction: the layout the encoder gives an instruction that has one is the layout the
decoder reads (30_encoding.md R95, R106, R119). -/

namespace Sys2Proof.Laws.Layout
open Machine

/-- The payload that encodes a well-formed instruction is a payload of 1 to 9 bytes, from which, whatever follows, the
decoder reads the instruction back. -/
def Statement (i : Instr) : Prop :=
  i.wf = true → ∀ (v : Variant) (p rest : Bytes), wordPayload i = some (v, p) →
    1 ≤ p.length ∧ p.length ≤ 9 ∧ decodeFields v (BitVec.ofNat 8 p.length) (p ++ rest) = some i

theorem numOf_lo8 {v : Int} (h : byteFits v = true) : numOf (lo8 v) = v := by
  simp only [byteFits, Bool.and_eq_true, decide_eq_true_eq] at h
  obtain ⟨b, rfl⟩ := byte_of_int h.1 h.2
  rw [lo8_byte]; rfl

theorem le16_lo8_hi8 {v : Int} (h : halfFits v = true) : le16 (lo8 v) (hi8 v) = v := by
  simp only [halfFits, Bool.and_eq_true, decide_eq_true_eq] at h
  simp only [le16, lo8, hi8, BitVec.toNat_ofInt]
  omega

theorem strFits_iff {k : Nat} {s : Bytes} : strFits k s = true ↔ s.length = k := by simp [strFits]

theorem encode (t : Int) (p : Payload) : Statement (.encode t p) := nofun

theorem decode (buf : Bytes) : Statement (.decode buf) := nofun

theorem resolve (buf : Bytes) : Statement (.resolve buf) := nofun

theorem cksum (b : Bytes) : Statement (.cksum b) := nofun

theorem lookup (t : Byte) : Statement (.lookup t) := nofun

theorem chbuild (t : Int) (chan : Int) (extra : Bytes) : Statement (.chbuild t chan extra) := nofun

theorem chview (p : Payload) : Statement (.chview p) := nofun

theorem chset (p : Payload) (chan : Int) : Statement (.chset p chan) := nofun

theorem channelUnassign (op : ChannelUnassignOp) : Statement (.channelUnassign op) := by
  intro hw v p rest hp
  cases op <;> try cases hp
  case build.refl a =>
    simp only [Instr.wf, ChannelUnassignOp.wf] at hw
    simp [decodeFields, numOf_lo8, hw]

theorem channelAssign (op : ChannelAssignOp) : Statement (.channelAssign op) := by
  intro hw v p rest hp
  cases op <;> try cases hp
  case build.refl a b c =>
    simp only [Instr.wf, ChannelAssignOp.wf, Bool.and_eq_true] at hw
    simp [decodeFields, numOf_lo8, hw]

theorem channelID (op : ChannelIDOp) : Statement (.channelID op) := by
  intro hw v p rest hp
  cases op <;> try cases hp
  case build.refl a b c d =>
    simp only [Instr.wf, ChannelIDOp.wf, Bool.and_eq_true] at hw
    simp [decodeFields, numOf_lo8, le16_lo8_hi8, hw]

theorem channelPeriod (op : ChannelPeriodOp) : Statement (.channelPeriod op) := by
  intro hw v p rest hp
  cases op <;> try cases hp
  case build.refl a b =>
    simp only [Instr.wf, ChannelPeriodOp.wf, Bool.and_eq_true] at hw
    simp [decodeFields, numOf_lo8, le16_lo8_hi8, hw]

theorem channelSearchTimeout (op : ChannelSearchTimeoutOp) : Statement (.channelSearchTimeout op) := by
  intro hw v p rest hp
  cases op <;> try cases hp
  case build.refl a b =>
    simp only [Instr.wf, ChannelSearchTimeoutOp.wf, Bool.and_eq_true] at hw
    simp [decodeFields, numOf_lo8, hw]

theorem channelFrequency (op : ChannelFrequencyOp) : Statement (.channelFrequency op) := by
  intro hw v p rest hp
  cases op <;> try cases hp
  case build.refl a b =>
    simp only [Instr.wf, ChannelFrequencyOp.wf, Bool.and_eq_true] at hw
    simp [decodeFields, numOf_lo8, hw]

theorem channelTXPower (op : ChannelTXPowerOp) : Statement (.channelTXPower op) := by
  intro hw v p rest hp
  cases op <;> try cases hp
  case build.refl a b =>
    simp only [Instr.wf, ChannelTXPowerOp.wf, Bool.and_eq_true] at hw
    simp [decodeFields, numOf_lo8, hw]

theorem networkKey (op : NetworkKeyOp) : Statement (.networkKey op) := by
  intro hw v p rest hp
  cases op <;> try cases hp
  case build.refl a b =>
    simp only [Instr.wf, NetworkKeyOp.wf, Bool.and_eq_true, strFits_iff] at hw
    simp [decodeFields, numOf_lo8, hw]

theorem txPower (op : TXPowerOp) : Statement (.txPower op) := by
  intro hw v p rest hp
  cases op <;> try cases hp
  case build.refl a b =>
    simp only [Instr.wf, TXPowerOp.wf, Bool.and_eq_true] at hw
    simp [decodeFields, numOf_lo8, hw]

theorem systemReset (op : SystemResetOp) : Statement (.systemReset op) := by
  intro hw v p rest hp
  cases op <;> try cases hp
  case build fill =>
    cases fill with
    | none => cases hp
    | some a => cases hp; simp [decodeFields, numOf_lo8 hw]

theorem channelOpen (op : ChannelOpenOp) : Statement (.channelOpen op) := by
  intro hw v p rest hp
  cases op <;> try cases hp
  case build.refl a =>
    simp only [Instr.wf, ChannelOpenOp.wf] at hw
    simp [decodeFields, numOf_lo8, hw]

theorem channelClose (op : ChannelCloseOp) : Statement (.channelClose op) := by
  intro hw v p rest hp
  cases op <;> try cases hp
  case build.refl a =>
    simp only [Instr.wf, ChannelCloseOp.wf] at hw
    simp [decodeFields, numOf_lo8, hw]

theorem channelRequest (op : ChannelRequestOp) : Statement (.channelRequest op) := by
  intro hw v p rest hp
  cases op <;> try cases hp
  case build.refl a b =>
    simp only [Instr.wf, ChannelRequestOp.wf, Bool.and_eq_true] at hw
    simp [decodeFields, numOf_lo8, hw]

theorem broadcastData (op : BroadcastDataOp) : Statement (.broadcastData op) := by
  intro hw v p rest hp
  cases op <;> try cases hp
  case build.refl a b =>
    simp only [Instr.wf, BroadcastDataOp.wf, Bool.and_eq_true, strFits_iff] at hw
    simp [decodeFields, numOf_lo8, hw]

theorem acknowledgedData (op : AcknowledgedDataOp) : Statement (.acknowledgedData op) := by
  intro hw v p rest hp
  cases op <;> try cases hp
  case build.refl a b =>
    simp only [Instr.wf, AcknowledgedDataOp.wf, Bool.and_eq_true, strFits_iff] at hw
    simp [decodeFields, numOf_lo8, hw]

theorem burstData (op : BurstDataOp) : Statement (.burstData op) := by
  intro hw v p rest hp
  cases op <;> try cases hp
  case build.refl a b =>
    simp only [Instr.wf, BurstDataOp.wf, Bool.and_eq_true, strFits_iff] at hw
    simp [decodeFields, numOf_lo8, hw]

theorem channelEvent (op : ChannelEventOp) : Statement (.channelEvent op) := by
  intro hw v p rest hp
  cases op <;> try cases hp
  case build.refl a b c =>
    simp only [Instr.wf, ChannelEventOp.wf, Bool.and_eq_true] at hw
    simp [decodeFields, numOf_lo8, hw]

theorem channelStatus (op : ChannelStatusOp) : Statement (.channelStatus op) := by
  intro hw v p rest hp
  cases op <;> try cases hp
  case build.refl a b =>
    simp only [Instr.wf, ChannelStatusOp.wf, Bool.and_eq_true] at hw
    simp [decodeFields, numOf_lo8, hw]

theorem version (op : VersionOp) : Statement (.version op) := by
  intro hw v p rest hp
  cases op <;> try cases hp
  case build.refl =>
    simp only [Instr.wf, VersionOp.wf, strFits_iff] at hw
    simp [decodeFields, hw]

theorem startup (op : StartupOp) : Statement (.startup op) := by
  intro hw v p rest hp
  cases op <;> try cases hp
  case build.refl a =>
    simp only [Instr.wf, StartupOp.wf] at hw
    simp [decodeFields, numOf_lo8, hw]

theorem capabilities (op : CapabilitiesOp) : Statement (.capabilities op) := by
  intro hw v p rest hp
  cases op <;> try cases hp
  case build a b c d e =>
    cases e with
    | none =>
      cases hp
      simp only [Instr.wf, CapabilitiesOp.wf, Bool.and_eq_true] at hw
      simp [decodeFields, numOf_lo8, hw]
    | some e =>
      cases hp
      simp only [Instr.wf, CapabilitiesOp.wf, optByteFits, Bool.and_eq_true] at hw
      simp [decodeFields, numOf_lo8, hw]

theorem serialNumber (op : SerialNumberOp) : Statement (.serialNumber op) := by
  intro hw v p rest hp
  cases op <;> try cases hp
  case build.refl =>
    simp only [Instr.wf, SerialNumberOp.wf, strFits_iff] at hw
    simp [decodeFields, hw]

end Sys2Proof.Laws.Layout
end

