-- ==== Sys2Proof/Tests/Slice0.lean ====
section
/-! SUPPORT. Tests: ill-formed terms that WellFormed refuses, words of the opcode table written out from the spec's
encodings, the worked examples and vectors of the spec (ids V-… of 95_test_vectors.md), and for every statement of
Obligations.lean that has hypotheses a state and operands that meet them, at the boundary values of each clause. -/

namespace Sys2Proof.Tests
open Machine Safety

/-- What a transaction leaves in the result ports of the machine at reset. -/
def ran (i : Instr) : Option Results :=
  match exec i State.reset with
  | .next t => some t.res
  | .fault _ => none
  | .refused _ => none

/-- The fault a transaction ends in. -/
def failed (i : Instr) : Option Fault :=
  match exec i State.reset with
  | .next _ => none
  | .fault f => some f
  | .refused _ => none

/-- What one step leaves in the result ports. -/
def stepped (s : State) : Option Results :=
  match step s with
  | .next t => some t.res
  | .fault _ => none
  | .refused _ => none

/-- Expected results: a payload, field values, an error, a decoded message. -/
def pay (p : Payload) : Option Results := some { status := some .ok, payout := some p }
/-- Field values. -/
def vals (fs : List (Field × FieldVal)) : Option Results := some { status := some .ok, fields := some fs }
/-- An error outcome. -/
def err (c : Status) (i : Info) : Option Results := some { status := some c, info := some i }
/-- A field out of range. -/
def range (v : Variant) (n : FieldName) : Option Results := err .malformed (.fieldRange (fieldIn v n))
/-- A field the payload does not reach. -/
def absent (v : Variant) (n : FieldName) : Option Fault := some (.fieldAbsent (fieldIn v n))
/-- A byte that a transaction of CKSUM has returned. -/
def summed (b : Byte) : Option Results := some { status := some .ok, cksum := some b }
/-- A message built by CHBUILD. -/
def built (t : Int) (p : Payload) : Option Results := some { status := some .ok, payout := some p, msgType := some t }
/-- `n` equal bytes. -/
def fill (n : Nat) (b : Byte) : Bytes := List.replicate n b
/-- A frame. -/
def framed (f : Bytes) : Option Results := some { status := some .ok, frame := some f, frameLen := some f.length }
/-- A decoded message. -/
def message (t : Byte) (p : Payload) (k : Nat) : Option Results :=
  some { status := some .ok, rtype := some t, rpay := some p, rlen := some p.length, consumed := some k }
/-- A resolved message. -/
def resolved (v : BitVec 5) (t : Byte) (p : Payload) (k : Nat) : Option Results :=
  some { status := some .ok, variant := some v, rtype := some t, rpay := some p, rlen := some p.length, consumed := some k }

/-- What an operation leaves in the result ports, after reset with a configuration. -/
def performed (c : Config) (o : Operation) : Option Results :=
  match perform o (State.resetWith c) with
  | .next t => some t.res
  | .fault _ => none
  | .refused _ => none

/-- The fault an operation ends in, after reset with a configuration. -/
def stopped (c : Config) (o : Operation) : Option Fault :=
  match perform o (State.resetWith c) with
  | .next _ => none
  | .fault f => some f
  | .refused _ => none

/-- What a pseudo-operation leaves in the result ports. -/
def portsOf : Host.Outcome State Fault Refusal → Option Results
  | .next t => some t.res
  | .fault _ => none
  | .refused _ => none

/-- A configuration that adds two variants (41_dispatch.md R163): a channel-scoped one with a half-word and a byte, under
code 0x70, and one with a byte string that fills a payload, with the last id, under code 0x71. -/
def extended : Config :=
  { defaultConfig with
    registry := defaultRegistry ++ [⟨0x70#8, 22#5⟩, ⟨0x71#8, 31#5⟩]
    vtab := defaultVtab ++
      [⟨22#5, .channelScoped, 4, [channelSpec, ⟨.added 0, 1, .half, false⟩, ⟨.added 1, 3, .byte, false⟩]⟩,
       ⟨31#5, .nonChannel, 9, [⟨.added 0, 0, .str 9, false⟩]⟩] }

theorem test_reset_legal : ConfigLegal State.reset.cfg where
  maxPayload := rfl
  overhead := rfl
  minDecode := rfl
  errTypeRange := rfl
  registry := by constructor <;> decide
  vtab.catalogue := List.prefix_rfl
  vtab.ids := by decide
  vtab.rows r hr := by fin_cases hr <;> constructor <;> decide
  layouts := by decide

theorem test_reset_inv : Inv State.reset := ⟨⟨test_reset_legal, fun _ h => h⟩, nofun, .empty⟩

theorem test_extended_admitted : ConfigAdmitted extended where
  extendsDefault e he := List.mem_append_left _ he
  legal :=
    { maxPayload := rfl
      overhead := rfl
      minDecode := rfl
      errTypeRange := rfl
      registry := by constructor <;> decide
      layouts := by decide
      vtab :=
        { catalogue := List.prefix_append _ _
          ids := by decide
          rows := fun r hr => by
            rcases List.mem_append.mp hr with h | h
            · exact test_reset_legal.vtab.rows r h
            · fin_cases h <;> constructor <;> decide } }

/-! Well-formedness: for each check, a term it refuses, beside a boundary term it accepts. -/

theorem test_wf_public :
    (Instr.encode 256 []).wf = false ∧
    (Instr.encode (-1) []).wf = false ∧
    (Instr.encode 255 (fill 15 0x00#8)).wf = true ∧
    (Instr.encode 0 (fill 16 0x00#8)).wf = false := by
  and_intros <;> decide

theorem test_wf_channel_layer :
    (Instr.chbuild 256 0 []).wf = false ∧
    (Instr.chbuild 0 256 []).wf = false ∧
    (Instr.chbuild 255 255 (fill 16 0x00#8)).wf = false ∧
    (Instr.chview (fill 9 0x00#8)).wf = true ∧
    (Instr.chview (fill 10 0x00#8)).wf = false ∧
    (Instr.chset (fill 10 0x00#8) 0).wf = false ∧
    (Instr.chset [] 256).wf = false ∧
    (Instr.chset [] 255).wf = true := by
  and_intros <;> decide

theorem test_wf_channelUnassign :
    (Instr.channelUnassign (.build 255)).wf = true ∧
    (Instr.channelUnassign (.build 256)).wf = false ∧
    (Instr.channelUnassign (.view (fill 9 0x00#8))).wf = true ∧
    (Instr.channelUnassign (.view (fill 10 0x00#8))).wf = false ∧
    (Instr.channelUnassign (.getChannel (fill 10 0x00#8))).wf = false ∧
    (Instr.channelUnassign (.setChannel (fill 10 0x00#8) 255)).wf = false ∧
    (Instr.channelUnassign (.setChannel [] 256)).wf = false := by
  and_intros <;> decide

theorem test_wf_channelAssign :
    (Instr.channelAssign (.build 255 255 255)).wf = true ∧
    (Instr.channelAssign (.build 256 255 255)).wf = false ∧
    (Instr.channelAssign (.build 255 256 255)).wf = false ∧
    (Instr.channelAssign (.build 255 255 256)).wf = false ∧
    (Instr.channelAssign (.view (fill 9 0x00#8))).wf = true ∧
    (Instr.channelAssign (.view (fill 10 0x00#8))).wf = false ∧
    (Instr.channelAssign (.getChannel (fill 10 0x00#8))).wf = false ∧
    (Instr.channelAssign (.setChannel (fill 10 0x00#8) 255)).wf = false ∧
    (Instr.channelAssign (.setChannel [] 256)).wf = false ∧
    (Instr.channelAssign (.getChannelType (fill 10 0x00#8))).wf = false ∧
    (Instr.channelAssign (.setChannelType (fill 10 0x00#8) 255)).wf = false ∧
    (Instr.channelAssign (.setChannelType [] 256)).wf = false ∧
    (Instr.channelAssign (.getNetworkNumber (fill 10 0x00#8))).wf = false ∧
    (Instr.channelAssign (.setNetworkNumber (fill 10 0x00#8) 255)).wf = false ∧
    (Instr.channelAssign (.setNetworkNumber [] 256)).wf = false := by
  and_intros <;> decide

theorem test_wf_channelID :
    (Instr.channelID (.build 255 65535 255 255)).wf = true ∧
    (Instr.channelID (.build 256 65535 255 255)).wf = false ∧
    (Instr.channelID (.build 255 65536 255 255)).wf = false ∧
    (Instr.channelID (.build 255 65535 256 255)).wf = false ∧
    (Instr.channelID (.build 255 65535 255 256)).wf = false ∧
    (Instr.channelID (.view (fill 9 0x00#8))).wf = true ∧
    (Instr.channelID (.view (fill 10 0x00#8))).wf = false ∧
    (Instr.channelID (.getChannel (fill 10 0x00#8))).wf = false ∧
    (Instr.channelID (.setChannel (fill 10 0x00#8) 255)).wf = false ∧
    (Instr.channelID (.setChannel [] 256)).wf = false ∧
    (Instr.channelID (.getDeviceNumber (fill 10 0x00#8))).wf = false ∧
    (Instr.channelID (.setDeviceNumber (fill 10 0x00#8) 65535)).wf = false ∧
    (Instr.channelID (.setDeviceNumber [] 65536)).wf = false ∧
    (Instr.channelID (.getDeviceType (fill 10 0x00#8))).wf = false ∧
    (Instr.channelID (.setDeviceType (fill 10 0x00#8) 255)).wf = false ∧
    (Instr.channelID (.setDeviceType [] 256)).wf = false ∧
    (Instr.channelID (.getTransmissionType (fill 10 0x00#8))).wf = false ∧
    (Instr.channelID (.setTransmissionType (fill 10 0x00#8) 255)).wf = false ∧
    (Instr.channelID (.setTransmissionType [] 256)).wf = false := by
  and_intros <;> decide

theorem test_wf_channelPeriod :
    (Instr.channelPeriod (.build 255 65535)).wf = true ∧
    (Instr.channelPeriod (.build 256 65535)).wf = false ∧
    (Instr.channelPeriod (.build 255 65536)).wf = false ∧
    (Instr.channelPeriod (.view (fill 9 0x00#8))).wf = true ∧
    (Instr.channelPeriod (.view (fill 10 0x00#8))).wf = false ∧
    (Instr.channelPeriod (.getChannel (fill 10 0x00#8))).wf = false ∧
    (Instr.channelPeriod (.setChannel (fill 10 0x00#8) 255)).wf = false ∧
    (Instr.channelPeriod (.setChannel [] 256)).wf = false ∧
    (Instr.channelPeriod (.getPeriod (fill 10 0x00#8))).wf = false ∧
    (Instr.channelPeriod (.setPeriod (fill 10 0x00#8) 65535)).wf = false ∧
    (Instr.channelPeriod (.setPeriod [] 65536)).wf = false := by
  and_intros <;> decide

theorem test_wf_channelSearchTimeout :
    (Instr.channelSearchTimeout (.build 255 255)).wf = true ∧
    (Instr.channelSearchTimeout (.build 256 255)).wf = false ∧
    (Instr.channelSearchTimeout (.build 255 256)).wf = false ∧
    (Instr.channelSearchTimeout (.view (fill 9 0x00#8))).wf = true ∧
    (Instr.channelSearchTimeout (.view (fill 10 0x00#8))).wf = false ∧
    (Instr.channelSearchTimeout (.getChannel (fill 10 0x00#8))).wf = false ∧
    (Instr.channelSearchTimeout (.setChannel (fill 10 0x00#8) 255)).wf = false ∧
    (Instr.channelSearchTimeout (.setChannel [] 256)).wf = false ∧
    (Instr.channelSearchTimeout (.getTimeout (fill 10 0x00#8))).wf = false ∧
    (Instr.channelSearchTimeout (.setTimeout (fill 10 0x00#8) 255)).wf = false ∧
    (Instr.channelSearchTimeout (.setTimeout [] 256)).wf = false := by
  and_intros <;> decide

theorem test_wf_channelFrequency :
    (Instr.channelFrequency (.build 255 255)).wf = true ∧
    (Instr.channelFrequency (.build 256 255)).wf = false ∧
    (Instr.channelFrequency (.build 255 256)).wf = false ∧
    (Instr.channelFrequency (.view (fill 9 0x00#8))).wf = true ∧
    (Instr.channelFrequency (.view (fill 10 0x00#8))).wf = false ∧
    (Instr.channelFrequency (.getChannel (fill 10 0x00#8))).wf = false ∧
    (Instr.channelFrequency (.setChannel (fill 10 0x00#8) 255)).wf = false ∧
    (Instr.channelFrequency (.setChannel [] 256)).wf = false ∧
    (Instr.channelFrequency (.getFrequency (fill 10 0x00#8))).wf = false ∧
    (Instr.channelFrequency (.setFrequency (fill 10 0x00#8) 255)).wf = false ∧
    (Instr.channelFrequency (.setFrequency [] 256)).wf = false := by
  and_intros <;> decide

theorem test_wf_channelTXPower :
    (Instr.channelTXPower (.build 255 255)).wf = true ∧
    (Instr.channelTXPower (.build 256 255)).wf = false ∧
    (Instr.channelTXPower (.build 255 256)).wf = false ∧
    (Instr.channelTXPower (.view (fill 9 0x00#8))).wf = true ∧
    (Instr.channelTXPower (.view (fill 10 0x00#8))).wf = false ∧
    (Instr.channelTXPower (.getChannel (fill 10 0x00#8))).wf = false ∧
    (Instr.channelTXPower (.setChannel (fill 10 0x00#8) 255)).wf = false ∧
    (Instr.channelTXPower (.setChannel [] 256)).wf = false ∧
    (Instr.channelTXPower (.getPower (fill 10 0x00#8))).wf = false ∧
    (Instr.channelTXPower (.setPower (fill 10 0x00#8) 255)).wf = false ∧
    (Instr.channelTXPower (.setPower [] 256)).wf = false := by
  and_intros <;> decide

theorem test_wf_networkKey :
    (Instr.networkKey (.build 255 (fill 8 0xFF#8))).wf = true ∧
    (Instr.networkKey (.build 256 (fill 8 0xFF#8))).wf = false ∧
    (Instr.networkKey (.build 255 (fill 7 0x00#8))).wf = false ∧
    (Instr.networkKey (.view (fill 9 0x00#8))).wf = true ∧
    (Instr.networkKey (.view (fill 10 0x00#8))).wf = false ∧
    (Instr.networkKey (.getNetworkNumber (fill 10 0x00#8))).wf = false ∧
    (Instr.networkKey (.setNetworkNumber (fill 10 0x00#8) 255)).wf = false ∧
    (Instr.networkKey (.setNetworkNumber [] 256)).wf = false ∧
    (Instr.networkKey (.getKey (fill 10 0x00#8))).wf = false ∧
    (Instr.networkKey (.setKey (fill 10 0x00#8) (fill 8 0xFF#8))).wf = false ∧
    (Instr.networkKey (.setKey [] (fill 7 0x00#8))).wf = false := by
  and_intros <;> decide

theorem test_wf_txPower :
    (Instr.txPower (.build 255 255)).wf = true ∧
    (Instr.txPower (.build 256 255)).wf = false ∧
    (Instr.txPower (.build 255 256)).wf = false ∧
    (Instr.txPower (.view (fill 9 0x00#8))).wf = true ∧
    (Instr.txPower (.view (fill 10 0x00#8))).wf = false ∧
    (Instr.txPower (.getB0 (fill 10 0x00#8))).wf = false ∧
    (Instr.txPower (.setB0 (fill 10 0x00#8) 255)).wf = false ∧
    (Instr.txPower (.setB0 [] 256)).wf = false ∧
    (Instr.txPower (.getPower (fill 10 0x00#8))).wf = false ∧
    (Instr.txPower (.setPower (fill 10 0x00#8) 255)).wf = false ∧
    (Instr.txPower (.setPower [] 256)).wf = false := by
  and_intros <;> decide

theorem test_wf_systemReset :
    (Instr.systemReset (.build (some 255))).wf = true ∧
    (Instr.systemReset (.build (some 256))).wf = false ∧
    (Instr.systemReset (.build none)).wf = true ∧
    (Instr.systemReset (.view (fill 10 0x00#8))).wf = false ∧
    (Instr.systemReset (.getReserved (fill 10 0x00#8))).wf = false := by
  and_intros <;> decide

theorem test_wf_channelOpen :
    (Instr.channelOpen (.build 255)).wf = true ∧
    (Instr.channelOpen (.build 256)).wf = false ∧
    (Instr.channelOpen (.view (fill 9 0x00#8))).wf = true ∧
    (Instr.channelOpen (.view (fill 10 0x00#8))).wf = false ∧
    (Instr.channelOpen (.getChannel (fill 10 0x00#8))).wf = false ∧
    (Instr.channelOpen (.setChannel (fill 10 0x00#8) 255)).wf = false ∧
    (Instr.channelOpen (.setChannel [] 256)).wf = false := by
  and_intros <;> decide

theorem test_wf_channelClose :
    (Instr.channelClose (.build 255)).wf = true ∧
    (Instr.channelClose (.build 256)).wf = false ∧
    (Instr.channelClose (.view (fill 9 0x00#8))).wf = true ∧
    (Instr.channelClose (.view (fill 10 0x00#8))).wf = false ∧
    (Instr.channelClose (.getChannel (fill 10 0x00#8))).wf = false ∧
    (Instr.channelClose (.setChannel (fill 10 0x00#8) 255)).wf = false ∧
    (Instr.channelClose (.setChannel [] 256)).wf = false := by
  and_intros <;> decide

theorem test_wf_channelRequest :
    (Instr.channelRequest (.build 255 255)).wf = true ∧
    (Instr.channelRequest (.build 256 255)).wf = false ∧
    (Instr.channelRequest (.build 255 256)).wf = false ∧
    (Instr.channelRequest (.view (fill 9 0x00#8))).wf = true ∧
    (Instr.channelRequest (.view (fill 10 0x00#8))).wf = false ∧
    (Instr.channelRequest (.getChannel (fill 10 0x00#8))).wf = false ∧
    (Instr.channelRequest (.setChannel (fill 10 0x00#8) 255)).wf = false ∧
    (Instr.channelRequest (.setChannel [] 256)).wf = false ∧
    (Instr.channelRequest (.getRequestedMessageId (fill 10 0x00#8))).wf = false ∧
    (Instr.channelRequest (.setRequestedMessageId (fill 10 0x00#8) 255)).wf = false ∧
    (Instr.channelRequest (.setRequestedMessageId [] 256)).wf = false := by
  and_intros <;> decide

theorem test_wf_broadcastData :
    (Instr.broadcastData (.build 255 (fill 7 0xFF#8))).wf = true ∧
    (Instr.broadcastData (.build 256 (fill 7 0xFF#8))).wf = false ∧
    (Instr.broadcastData (.build 255 (fill 6 0x00#8))).wf = false ∧
    (Instr.broadcastData (.view (fill 9 0x00#8))).wf = true ∧
    (Instr.broadcastData (.view (fill 10 0x00#8))).wf = false ∧
    (Instr.broadcastData (.getChannel (fill 10 0x00#8))).wf = false ∧
    (Instr.broadcastData (.setChannel (fill 10 0x00#8) 255)).wf = false ∧
    (Instr.broadcastData (.setChannel [] 256)).wf = false ∧
    (Instr.broadcastData (.getData (fill 10 0x00#8))).wf = false ∧
    (Instr.broadcastData (.setData (fill 10 0x00#8) (fill 7 0xFF#8))).wf = false ∧
    (Instr.broadcastData (.setData [] (fill 6 0x00#8))).wf = false := by
  and_intros <;> decide

theorem test_wf_acknowledgedData :
    (Instr.acknowledgedData (.build 255 (fill 7 0xFF#8))).wf = true ∧
    (Instr.acknowledgedData (.build 256 (fill 7 0xFF#8))).wf = false ∧
    (Instr.acknowledgedData (.build 255 (fill 6 0x00#8))).wf = false ∧
    (Instr.acknowledgedData (.view (fill 9 0x00#8))).wf = true ∧
    (Instr.acknowledgedData (.view (fill 10 0x00#8))).wf = false ∧
    (Instr.acknowledgedData (.getChannel (fill 10 0x00#8))).wf = false ∧
    (Instr.acknowledgedData (.setChannel (fill 10 0x00#8) 255)).wf = false ∧
    (Instr.acknowledgedData (.setChannel [] 256)).wf = false ∧
    (Instr.acknowledgedData (.getData (fill 10 0x00#8))).wf = false ∧
    (Instr.acknowledgedData (.setData (fill 10 0x00#8) (fill 7 0xFF#8))).wf = false ∧
    (Instr.acknowledgedData (.setData [] (fill 6 0x00#8))).wf = false := by
  and_intros <;> decide

theorem test_wf_burstData :
    (Instr.burstData (.build 255 (fill 7 0xFF#8))).wf = true ∧
    (Instr.burstData (.build 256 (fill 7 0xFF#8))).wf = false ∧
    (Instr.burstData (.build 255 (fill 6 0x00#8))).wf = false ∧
    (Instr.burstData (.view (fill 9 0x00#8))).wf = true ∧
    (Instr.burstData (.view (fill 10 0x00#8))).wf = false ∧
    (Instr.burstData (.getChannel (fill 10 0x00#8))).wf = false ∧
    (Instr.burstData (.setChannel (fill 10 0x00#8) 255)).wf = false ∧
    (Instr.burstData (.setChannel [] 256)).wf = false ∧
    (Instr.burstData (.getData (fill 10 0x00#8))).wf = false ∧
    (Instr.burstData (.setData (fill 10 0x00#8) (fill 7 0xFF#8))).wf = false ∧
    (Instr.burstData (.setData [] (fill 6 0x00#8))).wf = false := by
  and_intros <;> decide

theorem test_wf_channelEvent :
    (Instr.channelEvent (.build 255 255 255)).wf = true ∧
    (Instr.channelEvent (.build 256 255 255)).wf = false ∧
    (Instr.channelEvent (.build 255 256 255)).wf = false ∧
    (Instr.channelEvent (.build 255 255 256)).wf = false ∧
    (Instr.channelEvent (.view (fill 9 0x00#8))).wf = true ∧
    (Instr.channelEvent (.view (fill 10 0x00#8))).wf = false ∧
    (Instr.channelEvent (.getChannel (fill 10 0x00#8))).wf = false ∧
    (Instr.channelEvent (.setChannel (fill 10 0x00#8) 255)).wf = false ∧
    (Instr.channelEvent (.setChannel [] 256)).wf = false ∧
    (Instr.channelEvent (.getMessageId (fill 10 0x00#8))).wf = false ∧
    (Instr.channelEvent (.setMessageId (fill 10 0x00#8) 255)).wf = false ∧
    (Instr.channelEvent (.setMessageId [] 256)).wf = false ∧
    (Instr.channelEvent (.getMessageCode (fill 10 0x00#8))).wf = false ∧
    (Instr.channelEvent (.setMessageCode (fill 10 0x00#8) 255)).wf = false ∧
    (Instr.channelEvent (.setMessageCode [] 256)).wf = false := by
  and_intros <;> decide

theorem test_wf_channelStatus :
    (Instr.channelStatus (.build 255 255)).wf = true ∧
    (Instr.channelStatus (.build 256 255)).wf = false ∧
    (Instr.channelStatus (.build 255 256)).wf = false ∧
    (Instr.channelStatus (.view (fill 9 0x00#8))).wf = true ∧
    (Instr.channelStatus (.view (fill 10 0x00#8))).wf = false ∧
    (Instr.channelStatus (.getChannel (fill 10 0x00#8))).wf = false ∧
    (Instr.channelStatus (.setChannel (fill 10 0x00#8) 255)).wf = false ∧
    (Instr.channelStatus (.setChannel [] 256)).wf = false ∧
    (Instr.channelStatus (.getStatus (fill 10 0x00#8))).wf = false ∧
    (Instr.channelStatus (.setStatus (fill 10 0x00#8) 255)).wf = false ∧
    (Instr.channelStatus (.setStatus [] 256)).wf = false := by
  and_intros <;> decide

theorem test_wf_version :
    (Instr.version (.build (fill 9 0xFF#8))).wf = true ∧
    (Instr.version (.build (fill 8 0x00#8))).wf = false ∧
    (Instr.version (.view (fill 9 0x00#8))).wf = true ∧
    (Instr.version (.view (fill 10 0x00#8))).wf = false ∧
    (Instr.version (.getVersion (fill 10 0x00#8))).wf = false ∧
    (Instr.version (.setVersion (fill 10 0x00#8) (fill 9 0xFF#8))).wf = false ∧
    (Instr.version (.setVersion [] (fill 8 0x00#8))).wf = false := by
  and_intros <;> decide

theorem test_wf_startup :
    (Instr.startup (.build 255)).wf = true ∧
    (Instr.startup (.build 256)).wf = false ∧
    (Instr.startup (.view (fill 9 0x00#8))).wf = true ∧
    (Instr.startup (.view (fill 10 0x00#8))).wf = false ∧
    (Instr.startup (.getStartupReason (fill 10 0x00#8))).wf = false ∧
    (Instr.startup (.setStartupReason (fill 10 0x00#8) 255)).wf = false ∧
    (Instr.startup (.setStartupReason [] 256)).wf = false := by
  and_intros <;> decide

theorem test_wf_capabilities :
    (Instr.capabilities (.build 255 255 255 255 (some 255))).wf = true ∧
    (Instr.capabilities (.build 256 255 255 255 (some 255))).wf = false ∧
    (Instr.capabilities (.build 255 256 255 255 (some 255))).wf = false ∧
    (Instr.capabilities (.build 255 255 256 255 (some 255))).wf = false ∧
    (Instr.capabilities (.build 255 255 255 256 (some 255))).wf = false ∧
    (Instr.capabilities (.build 255 255 255 255 (some 256))).wf = false ∧
    (Instr.capabilities (.view (fill 9 0x00#8))).wf = true ∧
    (Instr.capabilities (.view (fill 10 0x00#8))).wf = false ∧
    (Instr.capabilities (.getMaxChannels (fill 10 0x00#8))).wf = false ∧
    (Instr.capabilities (.setMaxChannels (fill 10 0x00#8) 255)).wf = false ∧
    (Instr.capabilities (.setMaxChannels [] 256)).wf = false ∧
    (Instr.capabilities (.getMaxNetworks (fill 10 0x00#8))).wf = false ∧
    (Instr.capabilities (.setMaxNetworks (fill 10 0x00#8) 255)).wf = false ∧
    (Instr.capabilities (.setMaxNetworks [] 256)).wf = false ∧
    (Instr.capabilities (.getStdOptions (fill 10 0x00#8))).wf = false ∧
    (Instr.capabilities (.setStdOptions (fill 10 0x00#8) 255)).wf = false ∧
    (Instr.capabilities (.setStdOptions [] 256)).wf = false ∧
    (Instr.capabilities (.getAdvOptions (fill 10 0x00#8))).wf = false ∧
    (Instr.capabilities (.setAdvOptions (fill 10 0x00#8) 255)).wf = false ∧
    (Instr.capabilities (.setAdvOptions [] 256)).wf = false ∧
    (Instr.capabilities (.getAdvOptions2 (fill 10 0x00#8))).wf = false ∧
    (Instr.capabilities (.setAdvOptions2 (fill 10 0x00#8) 255)).wf = false ∧
    (Instr.capabilities (.setAdvOptions2 [] 256)).wf = false := by
  and_intros <;> decide

theorem test_wf_serialNumber :
    (Instr.serialNumber (.build (fill 4 0xFF#8))).wf = true ∧
    (Instr.serialNumber (.build (fill 3 0x00#8))).wf = false ∧
    (Instr.serialNumber (.view (fill 9 0x00#8))).wf = true ∧
    (Instr.serialNumber (.view (fill 10 0x00#8))).wf = false ∧
    (Instr.serialNumber (.getSerial (fill 10 0x00#8))).wf = false ∧
    (Instr.serialNumber (.setSerial (fill 10 0x00#8) (fill 4 0xFF#8))).wf = false ∧
    (Instr.serialNumber (.setSerial [] (fill 3 0x00#8))).wf = false := by
  and_intros <;> decide

/-! Words of the opcode table, written out from the spec's encodings (30_encoding.md R90, R91, R116, R119): the
frame's bytes, byte 0 in bits 7..0. The frames are the worked examples of each variant's rule. -/

/-- The 2-bit selector OP (R116). -/
theorem test_word_selector :
    decodeTableWord 8 0 = some (.encode 0 []) ∧
    decodeTableWord 8 1 = some (.decode []) ∧
    decodeTableWord 8 2 = some (.resolve []) ∧
    decodeTableWord 8 3 = none := by
  and_intros <;> decide

/-- V-VAR-00a: A4 01 41 01 E5. -/
theorem test_word_channelUnassign :
    decodeTableWord 40 0xE5014101A4 = some (.channelUnassign (.build 1)) := by decide

/-- V-VAR-01a: A4 03 42 00 10 00 F5. -/
theorem test_word_channelAssign :
    decodeTableWord 56 0xF50010004203A4 = some (.channelAssign (.build 0 0x10 0)) := by decide

/-- V-VAR-02a: A4 05 51 00 E8 03 05 01 1F. -/
theorem test_word_channelID :
    decodeTableWord 72 0x1F010503E8005105A4 = some (.channelID (.build 0 1000 5 1)) := by decide

/-- V-VAR-03a: A4 03 43 00 86 1F 7D. -/
theorem test_word_channelPeriod :
    decodeTableWord 56 0x7D1F86004303A4 = some (.channelPeriod (.build 0 8070)) := by decide

/-- V-VAR-04a: A4 02 44 00 FF 1D. -/
theorem test_word_channelSearchTimeout :
    decodeTableWord 48 0x1DFF004402A4 = some (.channelSearchTimeout (.build 0 255)) := by decide

/-- V-VAR-05a: A4 02 45 00 39 DA. -/
theorem test_word_channelFrequency :
    decodeTableWord 48 0xDA39004502A4 = some (.channelFrequency (.build 0 57)) := by decide

/-- V-VAR-06a: A4 02 60 02 03 C7. -/
theorem test_word_channelTXPower :
    decodeTableWord 48 0xC703026002A4 = some (.channelTXPower (.build 2 3)) := by decide

/-- V-VAR-07b: A4 09 46 00 01 02 03 04 05 06 07 08 E3. -/
theorem test_word_networkKey :
    decodeTableWord 104 0xE30807060504030201004609A4 = some (.networkKey (.build 0 [0x01#8, 0x02#8, 0x03#8, 0x04#8,
      0x05#8, 0x06#8, 0x07#8, 0x08#8])) := by decide

/-- V-VAR-08b: A4 02 47 7F 04 9A. -/
theorem test_word_txPower :
    decodeTableWord 48 0x9A047F4702A4 = some (.txPower (.build 0x7F 4)) := by decide

/-- V-VAR-09b: A4 01 4A 5A B5. -/
theorem test_word_systemReset :
    decodeTableWord 40 0xB55A4A01A4 = some (.systemReset (.build (some 0x5A))) := by decide

/-- V-VAR-10a: A4 01 4B 03 ED. -/
theorem test_word_channelOpen :
    decodeTableWord 40 0xED034B01A4 = some (.channelOpen (.build 3)) := by decide

/-- V-VAR-11a: A4 01 4C 03 EA. -/
theorem test_word_channelClose :
    decodeTableWord 40 0xEA034C01A4 = some (.channelClose (.build 3)) := by decide

/-- V-VAR-12b: A4 02 4D 03 52 BA. -/
theorem test_word_channelRequest :
    decodeTableWord 48 0xBA52034D02A4 = some (.channelRequest (.build 3 0x52)) := by decide

/-- V-VAR-13a: A4 08 4E 01 01 02 03 04 05 06 07 E3. -/
theorem test_word_broadcastData :
    decodeTableWord 96 0xE307060504030201014E08A4 = some (.broadcastData (.build 1 [0x01#8, 0x02#8, 0x03#8, 0x04#8,
      0x05#8, 0x06#8, 0x07#8])) := by decide

/-- V-VAR-14a: A4 08 4F 01 01 02 03 04 05 06 07 E2. -/
theorem test_word_acknowledgedData :
    decodeTableWord 96 0xE207060504030201014F08A4 = some (.acknowledgedData (.build 1 [0x01#8, 0x02#8, 0x03#8,
      0x04#8, 0x05#8, 0x06#8, 0x07#8])) := by decide

/-- V-VAR-15a: A4 08 50 01 01 02 03 04 05 06 07 FD. -/
theorem test_word_burstData :
    decodeTableWord 96 0xFD07060504030201015008A4 = some (.burstData (.build 1 [0x01#8, 0x02#8, 0x03#8, 0x04#8,
      0x05#8, 0x06#8, 0x07#8])) := by decide

/-- V-VAR-16a: A4 03 40 01 01 03 E4. -/
theorem test_word_channelEvent :
    decodeTableWord 56 0xE40301014003A4 = some (.channelEvent (.build 1 1 3)) := by decide

/-- V-VAR-17a: A4 02 52 00 02 F6. -/
theorem test_word_channelStatus :
    decodeTableWord 48 0xF602005202A4 = some (.channelStatus (.build 0 2)) := by decide

/-- V-VAR-18a: A4 09 3E 41 42 43 44 45 46 47 48 00 9B. -/
theorem test_word_version :
    decodeTableWord 104 0x9B0048474645444342413E09A4 = some (.version (.build [0x41#8, 0x42#8, 0x43#8, 0x44#8,
      0x45#8, 0x46#8, 0x47#8, 0x48#8, 0x00#8])) := by decide

/-- V-VAR-19a: A4 01 6F 20 EA. -/
theorem test_word_startup :
    decodeTableWord 40 0xEA206F01A4 = some (.startup (.build 0x20)) := by decide

/-- V-VAR-20b: A4 05 54 08 03 00 BA 06 42. -/
theorem test_word_capabilities :
    decodeTableWord 72 0x4206BA0003085405A4 = some (.capabilities (.build 8 3 0 0xBA (some 6))) ∧
    decodeTableWord 64 0x45BA0003085404A4 = some (.capabilities (.build 8 3 0 0xBA none)) := by
  and_intros <;> decide

/-- V-VAR-21a: A4 04 61 78 56 34 12 C9. -/
theorem test_word_serialNumber :
    decodeTableWord 64 0xC9123456786104A4 = some (.serialNumber (.build [0x78#8, 0x56#8, 0x34#8, 0x12#8])) := by
      decide

/-- A machine with one request waiting. -/
def waiting (r : Request) : State := present State.reset r

/-- Bytes that are no word of the table have the outcomes of R109, in the order of R267. -/
theorem test_word_outcomes :
    stepped (waiting (.word [0xA4#8, 0x01#8])) = err .incomplete .header ∧
    stepped (waiting (.word [0xA5#8, 0x01#8, 0x4B#8, 0x03#8, 0xEC#8])) = err .corrupted .syncMismatch ∧
    stepped (waiting (.word [0xA4#8, 0x0A#8, 0x4B#8, 0x03#8, 0xED#8])) = err .malformed (.lenRange 10) ∧
    stepped (waiting (.word [0xA4#8, 0x09#8, 0x46#8, 0x00#8, 0x01#8])) = err .incomplete (.body 13) ∧
    stepped (waiting (.word [0xA4#8, 0x02#8, 0x99#8, 0x01#8, 0x02#8, 0x3C#8])) = err .unknownType (.unknownType
      0x99#8) ∧
    stepped (waiting (.word [0xA4#8, 0x02#8, 0x99#8, 0x01#8, 0x02#8, 0x3D#8])) = err .corrupted .checksumMismatch :=
      by
  and_intros <;> decide

/-- Each reason why bytes are no word, by name, and the one request that is no operation (R109, R116, R163). -/
theorem test_word_errors :
    decodeWord defaultConfig [0xA5#8, 0x01#8, 0x4B#8, 0x03#8, 0xEC#8] = .error .syncMismatch ∧
    decodeWord defaultConfig [0xA4#8, 0x0A#8, 0x4B#8, 0x03#8, 0xED#8] = .error (.illegalLength 0x0A#8) ∧
    decodeWord defaultConfig [0xA4#8, 0x02#8, 0x99#8, 0x01#8, 0x02#8, 0x3C#8] = .error (.unknownCode 0x99#8) ∧
    decodeWord defaultConfig [0xA4#8, 0x01#8] = .error .truncated ∧
    decodeWord defaultConfig [0xA4#8, 0x09#8, 0x46#8, 0x00#8, 0x01#8] = .error .truncated ∧
    decodeWord { defaultConfig with registry := [⟨0x70#8, 22#5⟩] } [0xA4#8, 0x00#8, 0x70#8, 0xD4#8] = .error
      (.noLayout (.added 0)) ∧
    decode defaultConfig (.word [0xA4#8, 0x01#8]) = .ok (.instr (.resolve [0xA4#8, 0x01#8])) ∧
    decode defaultConfig (.select 3#2 {}) = .error .undefinedSelector := by
  and_intros <;> decide

/-- V-VAR-10a, V-VAR-02a, V-VAR-20a, and two operations with no frame. -/
theorem test_encode_words :
    encode defaultConfig (.channelOpen (.build 3)) = .word [0xA4#8, 0x01#8, 0x4B#8, 0x03#8, 0xED#8] ∧
    encode defaultConfig (.channelID (.build 0 1000 5 1)) = .word [0xA4#8, 0x05#8, 0x51#8, 0x00#8, 0xE8#8, 0x03#8,
      0x05#8, 0x01#8, 0x1F#8] ∧
    encode defaultConfig (.capabilities (.build 8 3 0 0xBA none)) = .word [0xA4#8, 0x04#8, 0x54#8, 0x08#8, 0x03#8,
      0x00#8, 0xBA#8, 0x45#8] ∧
    encode defaultConfig (.channelOpen (.view [])) = .call (.instr (.channelOpen (.view []))) ∧
    encode defaultConfig (.decode []) = .select 1#2 {} := by
  and_intros <;> decide

/-- A word of the table is the very next step's instruction (V-ENC-05, V-DEC-01, V-VAR-10). -/
theorem test_first_step_after_reset :
    stepped (State.reset.withFetchWord 8 0) = framed [0xA4#8, 0x00#8, 0x00#8, 0xA4#8] ∧
    stepped (State.reset.withFetchWord 8 1) = err .incomplete .header ∧
    stepped (State.reset.withFetchWord 8 2) = err .incomplete .header ∧
    stepped (State.reset.withFetchWord 24 0x4B01A4) = pay [0x00#8] ∧
    stepped (State.reset.withFetchWord 40 0xED034B01A4) = pay [0x03#8] ∧
    stepped State.reset = some {} := by
  and_intros <;> decide

/-! The codec, dispatch and the channel layer: vectors of 95_test_vectors.md. -/

/-- V-CK-01, 02, 06, 03. -/
theorem test_cksum :
    ran (.cksum []) = some { cksum := some 0x00#8 } ∧
    ran (.cksum [0xA4#8, 0x01#8, 0x4B#8, 0x03#8]) = some { cksum := some 0xED#8 } ∧
    ran (.cksum [0x03#8, 0x4B#8, 0x01#8, 0xA4#8]) = some { cksum := some 0xED#8 } ∧
    ran (.cksum [0xA4#8, 0x01#8, 0x4B#8, 0x03#8, 0xED#8]) = some { cksum := some 0x00#8 } := by
  and_intros <;> decide

/-- V-ENC-01, 03, 08. -/
theorem test_encode_frames :
    ran (.encode 0x4B [0x03#8]) = framed [0xA4#8, 0x01#8, 0x4B#8, 0x03#8, 0xED#8] ∧
    ran (.encode 0x4E [0x01#8, 0x02#8, 0x03#8, 0x04#8, 0x05#8, 0x06#8, 0x07#8, 0x08#8, 0x09#8]) = framed [0xA4#8,
      0x09#8, 0x4E#8, 0x01#8, 0x02#8, 0x03#8, 0x04#8, 0x05#8, 0x06#8, 0x07#8, 0x08#8, 0x09#8, 0xE2#8] ∧
    ran (.encode 0x99 [0x01#8, 0x02#8]) = framed [0xA4#8, 0x02#8, 0x99#8, 0x01#8, 0x02#8, 0x3C#8] := by
  and_intros <;> decide

/-- V-ENC-04, 10, 11. -/
theorem test_encode_rejects :
    ran (.encode 0x4E [0x00#8, 0x01#8, 0x02#8, 0x03#8, 0x04#8, 0x05#8, 0x06#8, 0x07#8, 0x08#8, 0x09#8]) = err
      .malformed (.lenRange 10) ∧
    ran (.encode 300 [0x03#8]) = err .malformed .typeRange ∧
    ran (.encode 300 [0x00#8, 0x01#8, 0x02#8, 0x03#8, 0x04#8, 0x05#8, 0x06#8, 0x07#8, 0x08#8, 0x09#8]) = err
      .malformed (.lenRange 10) := by
  and_intros <;> decide

/-- V-DEC-05, 06, 07, 10, 12. -/
theorem test_decode_priority :
    ran (.decode [0x00#8, 0xFF#8, 0x00#8, 0x00#8]) = err .incomplete .header ∧
    ran (.decode [0x00#8, 0x0A#8, 0x00#8, 0x00#8, 0x00#8]) = err .corrupted .syncMismatch ∧
    ran (.decode [0xA4#8, 0x0A#8, 0x00#8, 0x00#8, 0x00#8]) = err .malformed (.lenRange 10) ∧
    ran (.decode [0xA4#8, 0x09#8, 0x00#8, 0x00#8, 0x00#8]) = err .incomplete (.body 13) ∧
    ran (.decode [0xA4#8, 0x01#8, 0x4B#8, 0x03#8, 0xEC#8]) = err .corrupted .checksumMismatch := by
  and_intros <;> decide

/-- V-DEC-15, 04, 16; V-FLIP-6. -/
theorem test_decode_messages :
    ran (.decode [0xA4#8, 0x01#8, 0x4B#8, 0x03#8, 0xED#8, 0xFF#8, 0xFF#8]) = message 0x4B#8 [0x03#8] 5 ∧
    ran (.decode [0xA4#8, 0x00#8, 0x4A#8, 0xEE#8, 0x00#8]) = message 0x4A#8 [] 4 ∧
    ran (.decode [0xA4#8, 0x09#8, 0x4E#8, 0x01#8, 0x02#8, 0x03#8, 0x04#8, 0x05#8, 0x06#8, 0x07#8, 0x08#8, 0x09#8,
      0xE2#8]) = message 0x4E#8 [0x01#8, 0x02#8, 0x03#8, 0x04#8, 0x05#8, 0x06#8, 0x07#8, 0x08#8, 0x09#8] 13 ∧
    ran (.decode [0xA4#8, 0x00#8, 0x4B#8, 0xEF#8, 0x01#8]) = message 0x4B#8 [] 4 := by
  and_intros <;> decide

/-- V-RES-01, 02, 03. -/
theorem test_lookup :
    ran (.lookup 0x4B#8) = some { status := some .ok, variant := some 10#5 } ∧
    ran (.lookup 0x3E#8) = some { status := some .ok, variant := some 18#5 } ∧
    ran (.lookup 0x6F#8) = some { status := some .ok, variant := some 19#5 } ∧
    ran (.lookup 0x00#8) = err .unknownType (.unknownType 0x00#8) ∧
    ran (.lookup 0xFF#8) = err .unknownType (.unknownType 0xFF#8) := by
  and_intros <;> decide

/-- V-RES-04, 11, 12. -/
theorem test_resolve_messages :
    ran (.resolve [0xA4#8, 0x01#8, 0x4B#8, 0x03#8, 0xED#8]) = resolved 10#5 0x4B#8 [0x03#8] 5 ∧
    ran (.resolve [0xA4#8, 0x00#8, 0x4A#8, 0xEE#8, 0x00#8]) = resolved 9#5 0x4A#8 [] 4 ∧
    ran (.resolve [0xA4#8, 0x02#8, 0x51#8, 0x00#8, 0xE8#8, 0x1F#8]) = resolved 2#5 0x51#8 [0x00#8, 0xE8#8] 6 := by
  and_intros <;> decide

/-- V-RES-06, 07, 08, 10. -/
theorem test_resolve_errors :
    ran (.resolve [0xA4#8, 0x02#8, 0x99#8, 0x01#8, 0x02#8, 0x3C#8]) = err .unknownType (.unknownType 0x99#8) ∧
    ran (.resolve [0xA4#8, 0x02#8, 0x99#8, 0x01#8, 0x02#8, 0x3D#8]) = err .corrupted .checksumMismatch ∧
    ran (.resolve [0xA4#8, 0x02#8, 0x99#8, 0x01#8, 0x02#8]) = err .incomplete (.body 6) ∧
    ran (.resolve [0xA4#8, 0x00#8, 0x4A#8, 0xEE#8]) = err .incomplete .header := by
  and_intros <;> decide

/-- V-CH-01, 03, 04, 05. -/
theorem test_chbuild :
    ran (.chbuild 0x4B 3 []) = built 0x4B [0x03#8] ∧
    ran (.chbuild 0x4E 1 [0x01#8, 0x02#8, 0x03#8, 0x04#8, 0x05#8, 0x06#8, 0x07#8, 0x08#8]) = built 0x4E [0x01#8,
      0x01#8, 0x02#8, 0x03#8, 0x04#8, 0x05#8, 0x06#8, 0x07#8, 0x08#8] ∧
    ran (.chbuild 0x4E 1 [0x01#8, 0x02#8, 0x03#8, 0x04#8, 0x05#8, 0x06#8, 0x07#8, 0x08#8, 0x09#8]) = err .malformed
      (.lenRange 10) ∧
    ran (.chbuild 0x4B 256 []) = err .malformed (.fieldRange channelField) := by
  and_intros <;> decide

/-- V-CH-06, 07, 08. -/
theorem test_chview :
    ran (.chview [0x00#8, 0xE8#8, 0x03#8, 0x05#8, 0x01#8]) = vals [(channelField, .num 0), (⟨.channelLayer, .extra⟩,
      .str [0xE8#8, 0x03#8, 0x05#8, 0x01#8])] ∧
    ran (.chview [0xFF#8]) = vals [(channelField, .num 255), (⟨.channelLayer, .extra⟩, .str [])] ∧
    failed (.chview []) = some (.fieldAbsent channelField) := by
  and_intros <;> decide

/-- V-CH-10, 11, 12. -/
theorem test_chset :
    ran (.chset [0x00#8, 0xE8#8, 0x03#8, 0x05#8, 0x01#8] 255) = pay [0xFF#8, 0xE8#8, 0x03#8, 0x05#8, 0x01#8] ∧
    failed (.chset [] 7) = some (.fieldAbsent channelField) ∧
    ran (.chset [] 256) = err .malformed (.fieldRange channelField) := by
  and_intros <;> decide

/-! The variants: the worked example of each rule, and vectors of SET, GET and FIELD_ABSENT. -/

/-- V-VAR-00a, V-VAR-00b. -/
theorem test_run_channelUnassign :
    ran (.channelUnassign (.build 1)) = pay [0x01#8] ∧
    ran (.channelUnassign (.view [0x01#8])) = vals [(fieldIn .channelUnassign .channel, .num 1)] ∧
    ran (.channelUnassign (.build 255)) = pay [0xFF#8] := by
  and_intros <;> decide

/-- V-VAR-01a, V-SET-09, V-PRI-08. -/
theorem test_run_channelAssign :
    ran (.channelAssign (.build 0 0x10 0)) = pay [0x00#8, 0x10#8, 0x00#8] ∧
    ran (.channelAssign (.view [0x00#8, 0x10#8, 0x00#8])) = vals [(fieldIn .channelAssign .channel, .num 0), (fieldIn
      .channelAssign .channelType, .num 0x10), (fieldIn .channelAssign .networkNumber, .num 0)] ∧
    ran (.channelAssign (.setNetworkNumber [0x00#8, 0x10#8, 0x00#8] 256)) = range .channelAssign .networkNumber ∧
    ran (.channelAssign (.build 0 256 256)) = range .channelAssign .channelType := by
  and_intros <;> decide

/-- V-VAR-02a, V-SET-01, 02, V-FA-02, 03. -/
theorem test_run_channelID :
    ran (.channelID (.build 0 1000 5 1)) = pay [0x00#8, 0xE8#8, 0x03#8, 0x05#8, 0x01#8] ∧
    ran (.channelID (.view [0x00#8, 0xE8#8, 0x03#8, 0x05#8, 0x01#8])) = vals [(fieldIn .channelID .channel, .num 0),
      (fieldIn .channelID .deviceNumber, .num 1000), (fieldIn .channelID .deviceType, .num 5), (fieldIn .channelID
        .transmissionType, .num 1)] ∧
    ran (.channelID (.setDeviceNumber [0x00#8, 0xE8#8, 0x03#8, 0x05#8, 0x01#8] 65535)) = pay [0x00#8, 0xFF#8, 0xFF#8,
      0x05#8, 0x01#8] ∧
    ran (.channelID (.setDeviceNumber [0x00#8, 0xE8#8, 0x03#8, 0x05#8, 0x01#8] 65536)) = range .channelID
      .deviceNumber ∧
    failed (.channelID (.view [0x00#8, 0xE8#8])) = absent .channelID .deviceNumber ∧
    failed (.channelID (.setTransmissionType [0x00#8, 0xE8#8] 1)) = absent .channelID .transmissionType := by
  and_intros <;> decide

/-- V-VAR-03a, V-SET-05, 14. -/
theorem test_run_channelPeriod :
    ran (.channelPeriod (.build 0 8070)) = pay [0x00#8, 0x86#8, 0x1F#8] ∧
    ran (.channelPeriod (.view [0x00#8, 0x86#8, 0x1F#8])) = vals [(fieldIn .channelPeriod .channel, .num 0), (fieldIn
      .channelPeriod .period, .num 8070)] ∧
    ran (.channelPeriod (.setPeriod [0x00#8, 0x86#8, 0x1F#8] 8192)) = pay [0x00#8, 0x00#8, 0x20#8] ∧
    ran (.channelPeriod (.getPeriod [0x00#8, 0xFF#8, 0xFF#8])) = vals [(fieldIn .channelPeriod .period, .num 65535)]
      := by
  and_intros <;> decide

/-- V-VAR-04a, V-VAR-04b. -/
theorem test_run_channelSearchTimeout :
    ran (.channelSearchTimeout (.build 0 255)) = pay [0x00#8, 0xFF#8] ∧
    ran (.channelSearchTimeout (.view [0x00#8, 0xFF#8])) = vals [(fieldIn .channelSearchTimeout .channel, .num 0),
      (fieldIn .channelSearchTimeout .timeout, .num 255)] ∧
    ran (.channelSearchTimeout (.build 0 0)) = pay [0x00#8, 0x00#8] := by
  and_intros <;> decide

/-- V-VAR-05a, V-VAR-05b. -/
theorem test_run_channelFrequency :
    ran (.channelFrequency (.build 0 57)) = pay [0x00#8, 0x39#8] ∧
    ran (.channelFrequency (.view [0x00#8, 0x39#8])) = vals [(fieldIn .channelFrequency .channel, .num 0), (fieldIn
      .channelFrequency .frequency, .num 57)] ∧
    ran (.channelFrequency (.build 1 66)) = pay [0x01#8, 0x42#8] := by
  and_intros <;> decide

/-- V-VAR-06a, V-VAR-06b. -/
theorem test_run_channelTXPower :
    ran (.channelTXPower (.build 2 3)) = pay [0x02#8, 0x03#8] ∧
    ran (.channelTXPower (.view [0x02#8, 0x03#8])) = vals [(fieldIn .channelTXPower .channel, .num 2), (fieldIn
      .channelTXPower .power, .num 3)] ∧
    ran (.channelTXPower (.build 0 0)) = pay [0x00#8, 0x00#8] := by
  and_intros <;> decide

/-- V-VAR-07b, V-SET-07, 08, V-FA-06. -/
theorem test_run_networkKey :
    ran (.networkKey (.build 0 [0x01#8, 0x02#8, 0x03#8, 0x04#8, 0x05#8, 0x06#8, 0x07#8, 0x08#8])) = pay [0x00#8,
      0x01#8, 0x02#8, 0x03#8, 0x04#8, 0x05#8, 0x06#8, 0x07#8, 0x08#8] ∧
    ran (.networkKey (.view [0x00#8, 0x01#8, 0x02#8, 0x03#8, 0x04#8, 0x05#8, 0x06#8, 0x07#8, 0x08#8])) = vals
      [(fieldIn .networkKey .networkNumber, .num 0), (fieldIn .networkKey .key, .str [0x01#8, 0x02#8, 0x03#8, 0x04#8,
        0x05#8, 0x06#8, 0x07#8, 0x08#8])] ∧
    ran (.networkKey (.setKey ([0x02#8] ++ fill 8 0xFF#8) [0x01#8, 0x02#8, 0x03#8, 0x04#8, 0x05#8, 0x06#8, 0x07#8,
      0x08#8])) = pay [0x02#8, 0x01#8, 0x02#8, 0x03#8, 0x04#8, 0x05#8, 0x06#8, 0x07#8, 0x08#8] ∧
    ran (.networkKey (.setKey ([0x02#8] ++ fill 8 0xFF#8) [0x01#8, 0x02#8, 0x03#8])) = range .networkKey .key ∧
    failed (.networkKey (.view [0x02#8, 0xFF#8, 0xFF#8, 0xFF#8])) = absent .networkKey .key := by
  and_intros <;> decide

/-- V-VAR-08b, V-SET-10. -/
theorem test_run_txPower :
    ran (.txPower (.build 0x7F 4)) = pay [0x7F#8, 0x04#8] ∧
    ran (.txPower (.view [0x7F#8, 0x04#8])) = vals [(fieldIn .txPower .b0, .num 0x7F), (fieldIn .txPower .power, .num
      4)] ∧
    ran (.txPower (.setPower [0x00#8, 0x03#8] 4)) = pay [0x00#8, 0x04#8] := by
  and_intros <;> decide

/-- V-VAR-10a, V-VAR-10b, V-FA-01. -/
theorem test_run_channelOpen :
    ran (.channelOpen (.build 3)) = pay [0x03#8] ∧
    ran (.channelOpen (.view [0x03#8])) = vals [(fieldIn .channelOpen .channel, .num 3)] ∧
    ran (.channelOpen (.build 255)) = pay [0xFF#8] ∧
    failed (.channelOpen (.view [])) = absent .channelOpen .channel := by
  and_intros <;> decide

/-- V-VAR-11a, V-VAR-11b. -/
theorem test_run_channelClose :
    ran (.channelClose (.build 3)) = pay [0x03#8] ∧
    ran (.channelClose (.view [0x03#8])) = vals [(fieldIn .channelClose .channel, .num 3)] ∧
    ran (.channelClose (.build 0)) = pay [0x00#8] := by
  and_intros <;> decide

/-- V-VAR-12b, V-VAR-12a. -/
theorem test_run_channelRequest :
    ran (.channelRequest (.build 3 0x52)) = pay [0x03#8, 0x52#8] ∧
    ran (.channelRequest (.view [0x03#8, 0x52#8])) = vals [(fieldIn .channelRequest .channel, .num 3), (fieldIn
      .channelRequest .requestedMessageId, .num 0x52)] ∧
    ran (.channelRequest (.build 0 0x54)) = pay [0x00#8, 0x54#8] := by
  and_intros <;> decide

/-- V-VAR-13a, V-SET-11, 12, V-RES-13. -/
theorem test_run_broadcastData :
    ran (.broadcastData (.build 1 [0x01#8, 0x02#8, 0x03#8, 0x04#8, 0x05#8, 0x06#8, 0x07#8])) = pay [0x01#8, 0x01#8,
      0x02#8, 0x03#8, 0x04#8, 0x05#8, 0x06#8, 0x07#8] ∧
    ran (.broadcastData (.view [0x01#8, 0x01#8, 0x02#8, 0x03#8, 0x04#8, 0x05#8, 0x06#8, 0x07#8])) = vals [(fieldIn
      .broadcastData .channel, .num 1), (fieldIn .broadcastData .data, .str [0x01#8, 0x02#8, 0x03#8, 0x04#8, 0x05#8,
        0x06#8, 0x07#8])] ∧
    ran (.broadcastData (.setData [0x01#8, 0x01#8, 0x02#8, 0x03#8, 0x04#8, 0x05#8, 0x06#8, 0x07#8] (fill 7 0xAA#8)))
      = pay ([0x01#8] ++ fill 7 0xAA#8) ∧
    ran (.broadcastData (.setData [0x01#8, 0x01#8, 0x02#8, 0x03#8, 0x04#8, 0x05#8, 0x06#8, 0x07#8] (fill 8 0xAA#8)))
      = range .broadcastData .data ∧
    ran (.broadcastData (.view [0x01#8, 0x01#8, 0x02#8, 0x03#8, 0x04#8, 0x05#8, 0x06#8, 0x07#8, 0x08#8])) = vals
      [(fieldIn .broadcastData .channel, .num 1), (fieldIn .broadcastData .data, .str [0x01#8, 0x02#8, 0x03#8,
        0x04#8, 0x05#8, 0x06#8, 0x07#8])] := by
  and_intros <;> decide

/-- V-VAR-14a. -/
theorem test_run_acknowledgedData :
    ran (.acknowledgedData (.build 1 [0x01#8, 0x02#8, 0x03#8, 0x04#8, 0x05#8, 0x06#8, 0x07#8])) = pay [0x01#8,
      0x01#8, 0x02#8, 0x03#8, 0x04#8, 0x05#8, 0x06#8, 0x07#8] ∧
    ran (.acknowledgedData (.view [0x01#8, 0x01#8, 0x02#8, 0x03#8, 0x04#8, 0x05#8, 0x06#8, 0x07#8])) = vals [(fieldIn
      .acknowledgedData .channel, .num 1), (fieldIn .acknowledgedData .data, .str [0x01#8, 0x02#8, 0x03#8, 0x04#8,
        0x05#8, 0x06#8, 0x07#8])] := by
  and_intros <;> decide

/-- V-VAR-15a, V-VAR-15b. -/
theorem test_run_burstData :
    ran (.burstData (.build 1 [0x01#8, 0x02#8, 0x03#8, 0x04#8, 0x05#8, 0x06#8, 0x07#8])) = pay [0x01#8, 0x01#8,
      0x02#8, 0x03#8, 0x04#8, 0x05#8, 0x06#8, 0x07#8] ∧
    ran (.burstData (.view [0x01#8, 0x01#8, 0x02#8, 0x03#8, 0x04#8, 0x05#8, 0x06#8, 0x07#8])) = vals [(fieldIn
      .burstData .channel, .num 1), (fieldIn .burstData .data, .str [0x01#8, 0x02#8, 0x03#8, 0x04#8, 0x05#8, 0x06#8,
        0x07#8])] ∧
    ran (.burstData (.build 0x21 (fill 7 0x00#8))) = pay ([0x21#8] ++ fill 7 0x00#8) := by
  and_intros <;> decide

/-- V-VAR-16a, V-VAR-16b. -/
theorem test_run_channelEvent :
    ran (.channelEvent (.build 1 1 3)) = pay [0x01#8, 0x01#8, 0x03#8] ∧
    ran (.channelEvent (.view [0x01#8, 0x01#8, 0x03#8])) = vals [(fieldIn .channelEvent .channel, .num 1), (fieldIn
      .channelEvent .messageId, .num 1), (fieldIn .channelEvent .messageCode, .num 3)] ∧
    ran (.channelEvent (.build 0 1 0)) = pay [0x00#8, 0x01#8, 0x00#8] := by
  and_intros <;> decide

/-- V-VAR-17a, V-VAR-17b. -/
theorem test_run_channelStatus :
    ran (.channelStatus (.build 0 2)) = pay [0x00#8, 0x02#8] ∧
    ran (.channelStatus (.view [0x00#8, 0x02#8])) = vals [(fieldIn .channelStatus .channel, .num 0), (fieldIn
      .channelStatus .status, .num 2)] ∧
    ran (.channelStatus (.build 3 255)) = pay [0x03#8, 0xFF#8] := by
  and_intros <;> decide

/-- V-VAR-18a, V-FA-07. -/
theorem test_run_version :
    ran (.version (.build [0x41#8, 0x42#8, 0x43#8, 0x44#8, 0x45#8, 0x46#8, 0x47#8, 0x48#8, 0x00#8])) = pay [0x41#8,
      0x42#8, 0x43#8, 0x44#8, 0x45#8, 0x46#8, 0x47#8, 0x48#8, 0x00#8] ∧
    ran (.version (.view [0x41#8, 0x42#8, 0x43#8, 0x44#8, 0x45#8, 0x46#8, 0x47#8, 0x48#8, 0x00#8])) = vals [(fieldIn
      .version .version, .str [0x41#8, 0x42#8, 0x43#8, 0x44#8, 0x45#8, 0x46#8, 0x47#8, 0x48#8, 0x00#8])] ∧
    failed (.version (.view [0x41#8, 0x42#8, 0x43#8])) = absent .version .version := by
  and_intros <;> decide

/-- V-VAR-19a, V-VAR-19b. -/
theorem test_run_startup :
    ran (.startup (.build 0x20)) = pay [0x20#8] ∧
    ran (.startup (.view [0x20#8])) = vals [(fieldIn .startup .startupReason, .num 0x20)] ∧
    ran (.startup (.build 0)) = pay [0x00#8] := by
  and_intros <;> decide

/-- V-VAR-21a, V-VAR-21b. -/
theorem test_run_serialNumber :
    ran (.serialNumber (.build [0x78#8, 0x56#8, 0x34#8, 0x12#8])) = pay [0x78#8, 0x56#8, 0x34#8, 0x12#8] ∧
    ran (.serialNumber (.view [0x78#8, 0x56#8, 0x34#8, 0x12#8])) = vals [(fieldIn .serialNumber .serial, .str
      [0x78#8, 0x56#8, 0x34#8, 0x12#8])] ∧
    ran (.serialNumber (.build [0x00#8, 0x00#8, 0x00#8, 0x01#8])) = pay [0x00#8, 0x00#8, 0x00#8, 0x01#8] := by
  and_intros <;> decide

/-- V-VAR-09a, 09b, V-FA-05, V-SET-15. -/
theorem test_run_systemReset :
    ran (.systemReset (.build none)) = pay [0x00#8] ∧
    ran (.systemReset (.build (some 0x5A))) = pay [0x5A#8] ∧
    ran (.systemReset (.view [])) = vals [] ∧
    ran (.systemReset (.getReserved [0x5A#8])) = vals [(fieldIn .systemReset .reserved, .num 0x5A)] ∧
    failed (.systemReset (.getReserved [])) = absent .systemReset .reserved := by
  and_intros <;> decide

/-- V-CAP-01, 03, 06, 05, 07, 08. -/
theorem test_run_capabilities :
    ran (.capabilities (.view [0x08#8, 0x03#8, 0x00#8, 0xBA#8])) = vals [(fieldIn .capabilities .maxChannels, .num
      8), (fieldIn .capabilities .maxNetworks, .num 3), (fieldIn .capabilities .stdOptions, .num 0), (fieldIn
        .capabilities .advOptions, .num 0xBA), (fieldIn .capabilities .advOptions2, .num 0), (fieldIn .capabilities
          .adv2Present, .flag false)] ∧
    ran (.capabilities (.view [0x08#8, 0x03#8, 0x00#8, 0xBA#8, 0x00#8])) = vals [(fieldIn .capabilities .maxChannels,
      .num 8), (fieldIn .capabilities .maxNetworks, .num 3), (fieldIn .capabilities .stdOptions, .num 0), (fieldIn
        .capabilities .advOptions, .num 0xBA), (fieldIn .capabilities .advOptions2, .num 0), (fieldIn .capabilities
          .adv2Present, .flag true)] ∧
    ran (.capabilities (.setAdvOptions2 [0x08#8, 0x03#8, 0x00#8, 0xBA#8] 0)) = pay [0x08#8, 0x03#8, 0x00#8, 0xBA#8,
      0x00#8] ∧
    ran (.capabilities (.setAdvOptions2 [0x08#8, 0x03#8, 0x00#8, 0xBA#8, 0x06#8] 7)) = pay [0x08#8, 0x03#8, 0x00#8,
      0xBA#8, 0x07#8] ∧
    ran (.capabilities (.setMaxChannels [0x08#8, 0x03#8, 0x00#8, 0xBA#8] 4)) = pay [0x04#8, 0x03#8, 0x00#8, 0xBA#8] ∧
    failed (.capabilities (.view [0x08#8, 0x03#8, 0x00#8])) = absent .capabilities .advOptions ∧
    failed (.capabilities (.getAdvOptions2 [0x08#8, 0x03#8, 0x00#8])) = absent .capabilities .advOptions2 := by
  and_intros <;> decide

/-! Variants a configuration adds (41_dispatch.md R163), by the rules all variants have in common (43_variants_config.md
R196 to R199). -/

theorem test_wf_added :
    (Operation.added 0 (.build [.num 255, .num 65535, .num 255])).wf extended = true ∧
    (Operation.added 0 (.build [.num 256, .num 0, .num 0])).wf extended = false ∧
    (Operation.added 0 (.build [.num 0, .num 65536, .num 0])).wf extended = false ∧
    (Operation.added 0 (.build [.num 0, .num 0])).wf extended = false ∧
    (Operation.added 0 (.build [.num 0, .num 0, .num 0, .num 0])).wf extended = false ∧
    (Operation.added 0 (.build [.str [], .num 0, .num 0])).wf extended = false ∧
    (Operation.added 0 (.view (fill 9 0x00#8))).wf extended = true ∧
    (Operation.added 0 (.view (fill 10 0x00#8))).wf extended = false ∧
    (Operation.added 0 (.get (.added 1) [])).wf extended = true ∧
    (Operation.added 0 (.get (.added 2) [])).wf extended = false ∧
    (Operation.added 0 (.get .channel (fill 10 0x00#8))).wf extended = false ∧
    (Operation.added 0 (.set (.added 1) [] (.num 255))).wf extended = true ∧
    (Operation.added 0 (.set (.added 1) [] (.num 256))).wf extended = false ∧
    (Operation.added 0 (.set (.added 2) [] (.num 0))).wf extended = false ∧
    (Operation.added 0 (.set .channel (fill 10 0x00#8) (.num 0))).wf extended = false ∧
    (Operation.added 9 (.build [.str (fill 9 0x00#8)])).wf extended = true ∧
    (Operation.added 9 (.build [.str (fill 8 0x00#8)])).wf extended = false ∧
    (Operation.added 1 (.view [])).wf extended = false ∧
    (Operation.instr (.chview [])).wf extended = true := by
  and_intros <;> decide

theorem test_wf_request :
    requestWf extended (.call (.added 0 (.view []))) = true ∧
    requestWf extended (.call (.added 1 (.view []))) = false ∧
    requestWf extended (.select 0#2 { type := 256 }) = false ∧
    requestWf extended (.select 0#2 { txpay := fill 16 0x00#8 }) = false ∧
    requestWf extended (.select 0#2 { type := 255, txpay := fill 15 0x00#8 }) = true := by
  and_intros <;> decide

/-- R196 to R199 over a configured layout (R163). -/
theorem test_run_added :
    performed extended (.added 0 (.build [.num 1, .num 0x1234, .num 5])) = pay [0x01#8, 0x34#8, 0x12#8, 0x05#8] ∧
    performed extended (.added 0 (.build [.num 0, .num 65536, .num 256])) = range (.added 0) (.added 0) ∧
    performed extended (.added 0 (.view [0x01#8, 0x34#8, 0x12#8, 0x05#8])) = vals [(fieldIn (.added 0) .channel, .num
      1), (fieldIn (.added 0) (.added 0), .num 0x1234), (fieldIn (.added 0) (.added 1), .num 5)] ∧
    stopped extended (.added 0 (.view [0x01#8, 0x34#8])) = absent (.added 0) (.added 0) ∧
    performed extended (.added 0 (.get (.added 0) [0x01#8, 0x34#8, 0x12#8, 0x05#8])) = vals [(fieldIn (.added 0)
      (.added 0), .num 0x1234)] ∧
    stopped extended (.added 0 (.get (.added 1) [0x01#8, 0x34#8, 0x12#8])) = absent (.added 0) (.added 1) ∧
    performed extended (.added 0 (.set (.added 0) [0x01#8, 0x34#8, 0x12#8, 0x05#8] (.num 0xABCD))) = pay [0x01#8,
      0xCD#8, 0xAB#8, 0x05#8] ∧
    performed extended (.added 0 (.set .channel [] (.num 256))) = range (.added 0) .channel ∧
    stopped extended (.added 0 (.set .channel [] (.num 255))) = absent (.added 0) .channel ∧
    performed extended (.added 9 (.build [.str (fill 9 0xFF#8)])) = pay (fill 9 0xFF#8) ∧
    stopped extended (.added 0 (.build [.num 1, .num 2])) = some (.noOperand (fieldIn (.added 0) (.added 1))) ∧
    stopped extended (.added 1 (.view [])) = some (.noLayout (.added 1)) := by
  and_intros <;> decide

/-- The added variant in LOOKUP, RESOLVE, the pseudo-operations of R117, its word and the step. -/
theorem test_dispatch_added :
    performed extended (.instr (.lookup 0x70#8)) = some { status := some .ok, variant := some 22#5 } ∧
    performed extended (.instr (.lookup 0x4B#8)) = some { status := some .ok, variant := some 10#5 } ∧
    performed extended (.instr (.resolve [0xA4#8, 0x04#8, 0x70#8, 0x01#8, 0x34#8, 0x12#8, 0x05#8, 0xF2#8])) =
      resolved 22#5 0x70#8 [0x01#8, 0x34#8, 0x12#8, 0x05#8] 8 ∧
    portsOf (resolveView [0xA4#8, 0x04#8, 0x70#8, 0x01#8, 0x34#8, 0x12#8, 0x05#8, 0xF2#8] (State.resetWith extended))
      = vals [(fieldIn (.added 0) .channel, .num 1), (fieldIn (.added 0) (.added 0), .num 0x1234), (fieldIn (.added
        0) (.added 1), .num 5)] ∧
    portsOf (encodeVariant (.added 0 (.build [.num 1, .num 0x1234, .num 5])) rfl (State.resetWith extended)) = framed
      [0xA4#8, 0x04#8, 0x70#8, 0x01#8, 0x34#8, 0x12#8, 0x05#8, 0xF2#8] ∧
    decode extended (.word [0xA4#8, 0x04#8, 0x70#8, 0x01#8, 0x34#8, 0x12#8, 0x05#8, 0xF2#8]) = .ok (.added 0 (.build
      [.num 1, .num 0x1234, .num 5])) ∧
    encodeOperation extended (.added 0 (.build [.num 1, .num 0x1234, .num 5])) = .word [0xA4#8, 0x04#8, 0x70#8,
      0x01#8, 0x34#8, 0x12#8, 0x05#8, 0xF2#8] ∧
    stepped (present (State.resetWith extended) (.word [0xA4#8, 0x04#8, 0x70#8, 0x01#8, 0x34#8, 0x12#8, 0x05#8,
      0xF2#8])) = pay [0x01#8, 0x34#8, 0x12#8, 0x05#8] ∧
    decodeWord extended [0xA4#8, 0x04#8, 0x70#8, 0x01#8] = .error .truncated := by
  and_intros <;> decide

/-! Numeric codes (60_exceptions.md R261, R262). -/

theorem test_status_codes :
    [Status.ok, .incomplete, .corrupted, .malformed, .unknownType, .fieldAbsent].map statusCode = [0#3, 1#3, 2#3,
      3#3, 4#3, 5#3] ∧
    [Info.header, .body 9, .syncMismatch, .checksumMismatch, .lenRange 10, .typeRange, .fieldRange channelField].map
      subCause = [some 0#3, some 1#3, some 0#3, some 1#3, some 0#3, some 1#3, some 2#3] ∧
    faultStatus (.fieldAbsent channelField) = some .fieldAbsent := by
  and_intros <;> decide

/-! Witnesses: for every statement with hypotheses, values that meet them, each clause at a boundary value, with what
the machine answers there. -/

theorem test_witness_ChannelUnassignOperations :
    ConfigLegal State.reset.cfg ∧
    ran (.channelUnassign (.build 255)) = pay [0xFF#8] ∧
    ((256 : Int) < 0 ∨ 255 < (256 : Int)) ∧ ran (.channelUnassign (.build 256)) = range .channelUnassign .channel ∧
    (((-1) : Int) < 0 ∨ 255 < ((-1) : Int)) ∧ ran (.channelUnassign (.build (-1))) = range .channelUnassign .channel ∧
    ran (.channelUnassign (.view [0xFF#8, 0x01#8])) = vals [(fieldIn .channelUnassign .channel, .num 255)] ∧
    ([] : Bytes).length < 1 ∧ 0 ≤ ([] : Bytes).length ∧ failed (.channelUnassign (.view [])) = absent
      .channelUnassign .channel ∧
    ran (.channelUnassign (.getChannel [0xFF#8])) = vals [(fieldIn .channelUnassign .channel, .num 255)] ∧
    failed (.channelUnassign (.getChannel [])) = absent .channelUnassign .channel ∧
    ran (.channelUnassign (.setChannel [0x00#8, 0x01#8] 255)) = pay [0xFF#8, 0x01#8] ∧
    failed (.channelUnassign (.setChannel [] 255)) = absent .channelUnassign .channel ∧
    ran (.channelUnassign (.setChannel [] 256)) = range .channelUnassign .channel :=
  ⟨test_reset_legal, by and_intros <;> decide⟩

theorem test_witness_ChannelAssignOperations :
    ConfigLegal State.reset.cfg ∧
    ran (.channelAssign (.build 255 255 255)) = pay [0xFF#8, 0xFF#8, 0xFF#8] ∧
    ((256 : Int) < 0 ∨ 255 < (256 : Int)) ∧ ran (.channelAssign (.build 256 255 255)) = range .channelAssign .channel
      ∧
    (((-1) : Int) < 0 ∨ 255 < ((-1) : Int)) ∧ ran (.channelAssign (.build (-1) 255 255)) = range .channelAssign
      .channel ∧
    ((0 : Int) ≤ 255 ∧ (255 : Int) ≤ 255) ∧ ((256 : Int) < 0 ∨ 255 < (256 : Int)) ∧ ran (.channelAssign (.build 255
      256 255)) = range .channelAssign .channelType ∧
    (((-1) : Int) < 0 ∨ 255 < ((-1) : Int)) ∧ ran (.channelAssign (.build 255 (-1) 255)) = range .channelAssign
      .channelType ∧
    ((0 : Int) ≤ 255 ∧ (255 : Int) ≤ 255) ∧ ((256 : Int) < 0 ∨ 255 < (256 : Int)) ∧ ran (.channelAssign (.build 255
      255 256)) = range .channelAssign .networkNumber ∧
    (((-1) : Int) < 0 ∨ 255 < ((-1) : Int)) ∧ ran (.channelAssign (.build 255 255 (-1))) = range .channelAssign
      .networkNumber ∧
    ran (.channelAssign (.view [0xFF#8, 0xFF#8, 0xFF#8, 0x01#8])) = vals [(fieldIn .channelAssign .channel, .num
      255), (fieldIn .channelAssign .channelType, .num 255), (fieldIn .channelAssign .networkNumber, .num 255)] ∧
    ([] : Bytes).length < 1 ∧ 0 ≤ ([] : Bytes).length ∧ failed (.channelAssign (.view [])) = absent .channelAssign
      .channel ∧
    ran (.channelAssign (.getChannel [0xFF#8])) = vals [(fieldIn .channelAssign .channel, .num 255)] ∧
    failed (.channelAssign (.getChannel [])) = absent .channelAssign .channel ∧
    ran (.channelAssign (.setChannel [0x00#8, 0x01#8] 255)) = pay [0xFF#8, 0x01#8] ∧
    failed (.channelAssign (.setChannel [] 255)) = absent .channelAssign .channel ∧
    ran (.channelAssign (.setChannel [] 256)) = range .channelAssign .channel ∧
    ([0x00#8] : Bytes).length < 2 ∧ 1 ≤ ([0x00#8] : Bytes).length ∧ failed (.channelAssign (.view [0x00#8])) = absent
      .channelAssign .channelType ∧
    ran (.channelAssign (.getChannelType [0x00#8, 0xFF#8])) = vals [(fieldIn .channelAssign .channelType, .num 255)] ∧
    failed (.channelAssign (.getChannelType [0x00#8])) = absent .channelAssign .channelType ∧
    ran (.channelAssign (.setChannelType [0x00#8, 0x00#8, 0x01#8] 255)) = pay [0x00#8, 0xFF#8, 0x01#8] ∧
    failed (.channelAssign (.setChannelType [0x00#8] 255)) = absent .channelAssign .channelType ∧
    ran (.channelAssign (.setChannelType [] 256)) = range .channelAssign .channelType ∧
    ([0x00#8, 0x00#8] : Bytes).length < 3 ∧ 2 ≤ ([0x00#8, 0x00#8] : Bytes).length ∧ failed (.channelAssign (.view
      [0x00#8, 0x00#8])) = absent .channelAssign .networkNumber ∧
    ran (.channelAssign (.getNetworkNumber [0x00#8, 0x00#8, 0xFF#8])) = vals [(fieldIn .channelAssign .networkNumber,
      .num 255)] ∧
    failed (.channelAssign (.getNetworkNumber [0x00#8, 0x00#8])) = absent .channelAssign .networkNumber ∧
    ran (.channelAssign (.setNetworkNumber [0x00#8, 0x00#8, 0x00#8, 0x01#8] 255)) = pay [0x00#8, 0x00#8, 0xFF#8,
      0x01#8] ∧
    failed (.channelAssign (.setNetworkNumber [0x00#8, 0x00#8] 255)) = absent .channelAssign .networkNumber ∧
    ran (.channelAssign (.setNetworkNumber [] 256)) = range .channelAssign .networkNumber :=
  ⟨test_reset_legal, by and_intros <;> decide⟩

theorem test_witness_ChannelIDOperations :
    ConfigLegal State.reset.cfg ∧
    ran (.channelID (.build 255 65535 255 255)) = pay (fill 5 0xFF#8) ∧
    ((256 : Int) < 0 ∨ 255 < (256 : Int)) ∧ ran (.channelID (.build 256 65535 255 255)) = range .channelID .channel ∧
    (((-1) : Int) < 0 ∨ 255 < ((-1) : Int)) ∧ ran (.channelID (.build (-1) 65535 255 255)) = range .channelID
      .channel ∧
    ((0 : Int) ≤ 255 ∧ (255 : Int) ≤ 255) ∧ ((65536 : Int) < 0 ∨ 65535 < (65536 : Int)) ∧ ran (.channelID (.build 255
      65536 255 255)) = range .channelID .deviceNumber ∧
    (((-1) : Int) < 0 ∨ 65535 < ((-1) : Int)) ∧ ran (.channelID (.build 255 (-1) 255 255)) = range .channelID
      .deviceNumber ∧
    ((0 : Int) ≤ 255 ∧ (255 : Int) ≤ 255) ∧ ((256 : Int) < 0 ∨ 255 < (256 : Int)) ∧ ran (.channelID (.build 255 65535
      256 255)) = range .channelID .deviceType ∧
    (((-1) : Int) < 0 ∨ 255 < ((-1) : Int)) ∧ ran (.channelID (.build 255 65535 (-1) 255)) = range .channelID
      .deviceType ∧
    ((0 : Int) ≤ 255 ∧ (255 : Int) ≤ 255) ∧ ((256 : Int) < 0 ∨ 255 < (256 : Int)) ∧ ran (.channelID (.build 255 65535
      255 256)) = range .channelID .transmissionType ∧
    (((-1) : Int) < 0 ∨ 255 < ((-1) : Int)) ∧ ran (.channelID (.build 255 65535 255 (-1))) = range .channelID
      .transmissionType ∧
    ran (.channelID (.view (fill 5 0xFF#8 ++ [0x01#8]))) = vals [(fieldIn .channelID .channel, .num 255), (fieldIn
      .channelID .deviceNumber, .num 65535), (fieldIn .channelID .deviceType, .num 255), (fieldIn .channelID
        .transmissionType, .num 255)] ∧
    ([] : Bytes).length < 1 ∧ 0 ≤ ([] : Bytes).length ∧ failed (.channelID (.view [])) = absent .channelID .channel ∧
    ran (.channelID (.getChannel [0xFF#8])) = vals [(fieldIn .channelID .channel, .num 255)] ∧
    failed (.channelID (.getChannel [])) = absent .channelID .channel ∧
    ran (.channelID (.setChannel [0x00#8, 0x01#8] 255)) = pay [0xFF#8, 0x01#8] ∧
    failed (.channelID (.setChannel [] 255)) = absent .channelID .channel ∧
    ran (.channelID (.setChannel [] 256)) = range .channelID .channel ∧
    ([0x00#8, 0x00#8] : Bytes).length < 3 ∧ 1 ≤ ([0x00#8, 0x00#8] : Bytes).length ∧ failed (.channelID (.view
      [0x00#8, 0x00#8])) = absent .channelID .deviceNumber ∧
    ran (.channelID (.getDeviceNumber [0x00#8, 0xFF#8, 0xFF#8])) = vals [(fieldIn .channelID .deviceNumber, .num
      65535)] ∧
    failed (.channelID (.getDeviceNumber [0x00#8, 0x00#8])) = absent .channelID .deviceNumber ∧
    ran (.channelID (.setDeviceNumber [0x00#8, 0x00#8, 0x00#8, 0x01#8] 65535)) = pay [0x00#8, 0xFF#8, 0xFF#8, 0x01#8]
      ∧
    failed (.channelID (.setDeviceNumber [0x00#8, 0x00#8] 65535)) = absent .channelID .deviceNumber ∧
    ran (.channelID (.setDeviceNumber [] 65536)) = range .channelID .deviceNumber ∧
    ((fill 3 0x00#8) : Bytes).length < 4 ∧ 3 ≤ ((fill 3 0x00#8) : Bytes).length ∧ failed (.channelID (.view (fill 3
      0x00#8))) = absent .channelID .deviceType ∧
    ran (.channelID (.getDeviceType [0x00#8, 0x00#8, 0x00#8, 0xFF#8])) = vals [(fieldIn .channelID .deviceType, .num
      255)] ∧
    failed (.channelID (.getDeviceType (fill 3 0x00#8))) = absent .channelID .deviceType ∧
    ran (.channelID (.setDeviceType (fill 4 0x00#8 ++ [0x01#8]) 255)) = pay [0x00#8, 0x00#8, 0x00#8, 0xFF#8, 0x01#8] ∧
    failed (.channelID (.setDeviceType (fill 3 0x00#8) 255)) = absent .channelID .deviceType ∧
    ran (.channelID (.setDeviceType [] 256)) = range .channelID .deviceType ∧
    ((fill 4 0x00#8) : Bytes).length < 5 ∧ 4 ≤ ((fill 4 0x00#8) : Bytes).length ∧ failed (.channelID (.view (fill 4
      0x00#8))) = absent .channelID .transmissionType ∧
    ran (.channelID (.getTransmissionType (fill 4 0x00#8 ++ [0xFF#8]))) = vals [(fieldIn .channelID
      .transmissionType, .num 255)] ∧
    failed (.channelID (.getTransmissionType (fill 4 0x00#8))) = absent .channelID .transmissionType ∧
    ran (.channelID (.setTransmissionType (fill 5 0x00#8 ++ [0x01#8]) 255)) = pay (fill 4 0x00#8 ++ [0xFF#8, 0x01#8])
      ∧
    failed (.channelID (.setTransmissionType (fill 4 0x00#8) 255)) = absent .channelID .transmissionType ∧
    ran (.channelID (.setTransmissionType [] 256)) = range .channelID .transmissionType :=
  ⟨test_reset_legal, by and_intros <;> decide⟩

theorem test_witness_ChannelPeriodOperations :
    ConfigLegal State.reset.cfg ∧
    ran (.channelPeriod (.build 255 65535)) = pay [0xFF#8, 0xFF#8, 0xFF#8] ∧
    ((256 : Int) < 0 ∨ 255 < (256 : Int)) ∧ ran (.channelPeriod (.build 256 65535)) = range .channelPeriod .channel ∧
    (((-1) : Int) < 0 ∨ 255 < ((-1) : Int)) ∧ ran (.channelPeriod (.build (-1) 65535)) = range .channelPeriod
      .channel ∧
    ((0 : Int) ≤ 255 ∧ (255 : Int) ≤ 255) ∧ ((65536 : Int) < 0 ∨ 65535 < (65536 : Int)) ∧ ran (.channelPeriod (.build
      255 65536)) = range .channelPeriod .period ∧
    (((-1) : Int) < 0 ∨ 65535 < ((-1) : Int)) ∧ ran (.channelPeriod (.build 255 (-1))) = range .channelPeriod .period
      ∧
    ran (.channelPeriod (.view [0xFF#8, 0xFF#8, 0xFF#8, 0x01#8])) = vals [(fieldIn .channelPeriod .channel, .num
      255), (fieldIn .channelPeriod .period, .num 65535)] ∧
    ([] : Bytes).length < 1 ∧ 0 ≤ ([] : Bytes).length ∧ failed (.channelPeriod (.view [])) = absent .channelPeriod
      .channel ∧
    ran (.channelPeriod (.getChannel [0xFF#8])) = vals [(fieldIn .channelPeriod .channel, .num 255)] ∧
    failed (.channelPeriod (.getChannel [])) = absent .channelPeriod .channel ∧
    ran (.channelPeriod (.setChannel [0x00#8, 0x01#8] 255)) = pay [0xFF#8, 0x01#8] ∧
    failed (.channelPeriod (.setChannel [] 255)) = absent .channelPeriod .channel ∧
    ran (.channelPeriod (.setChannel [] 256)) = range .channelPeriod .channel ∧
    ([0x00#8, 0x00#8] : Bytes).length < 3 ∧ 1 ≤ ([0x00#8, 0x00#8] : Bytes).length ∧ failed (.channelPeriod (.view
      [0x00#8, 0x00#8])) = absent .channelPeriod .period ∧
    ran (.channelPeriod (.getPeriod [0x00#8, 0xFF#8, 0xFF#8])) = vals [(fieldIn .channelPeriod .period, .num 65535)] ∧
    failed (.channelPeriod (.getPeriod [0x00#8, 0x00#8])) = absent .channelPeriod .period ∧
    ran (.channelPeriod (.setPeriod [0x00#8, 0x00#8, 0x00#8, 0x01#8] 65535)) = pay [0x00#8, 0xFF#8, 0xFF#8, 0x01#8] ∧
    failed (.channelPeriod (.setPeriod [0x00#8, 0x00#8] 65535)) = absent .channelPeriod .period ∧
    ran (.channelPeriod (.setPeriod [] 65536)) = range .channelPeriod .period :=
  ⟨test_reset_legal, by and_intros <;> decide⟩

theorem test_witness_ChannelSearchTimeoutOperations :
    ConfigLegal State.reset.cfg ∧
    ran (.channelSearchTimeout (.build 255 255)) = pay [0xFF#8, 0xFF#8] ∧
    ((256 : Int) < 0 ∨ 255 < (256 : Int)) ∧ ran (.channelSearchTimeout (.build 256 255)) = range
      .channelSearchTimeout .channel ∧
    (((-1) : Int) < 0 ∨ 255 < ((-1) : Int)) ∧ ran (.channelSearchTimeout (.build (-1) 255)) = range
      .channelSearchTimeout .channel ∧
    ((0 : Int) ≤ 255 ∧ (255 : Int) ≤ 255) ∧ ((256 : Int) < 0 ∨ 255 < (256 : Int)) ∧ ran (.channelSearchTimeout
      (.build 255 256)) = range .channelSearchTimeout .timeout ∧
    (((-1) : Int) < 0 ∨ 255 < ((-1) : Int)) ∧ ran (.channelSearchTimeout (.build 255 (-1))) = range
      .channelSearchTimeout .timeout ∧
    ran (.channelSearchTimeout (.view [0xFF#8, 0xFF#8, 0x01#8])) = vals [(fieldIn .channelSearchTimeout .channel,
      .num 255), (fieldIn .channelSearchTimeout .timeout, .num 255)] ∧
    ([] : Bytes).length < 1 ∧ 0 ≤ ([] : Bytes).length ∧ failed (.channelSearchTimeout (.view [])) = absent
      .channelSearchTimeout .channel ∧
    ran (.channelSearchTimeout (.getChannel [0xFF#8])) = vals [(fieldIn .channelSearchTimeout .channel, .num 255)] ∧
    failed (.channelSearchTimeout (.getChannel [])) = absent .channelSearchTimeout .channel ∧
    ran (.channelSearchTimeout (.setChannel [0x00#8, 0x01#8] 255)) = pay [0xFF#8, 0x01#8] ∧
    failed (.channelSearchTimeout (.setChannel [] 255)) = absent .channelSearchTimeout .channel ∧
    ran (.channelSearchTimeout (.setChannel [] 256)) = range .channelSearchTimeout .channel ∧
    ([0x00#8] : Bytes).length < 2 ∧ 1 ≤ ([0x00#8] : Bytes).length ∧ failed (.channelSearchTimeout (.view [0x00#8])) =
      absent .channelSearchTimeout .timeout ∧
    ran (.channelSearchTimeout (.getTimeout [0x00#8, 0xFF#8])) = vals [(fieldIn .channelSearchTimeout .timeout, .num
      255)] ∧
    failed (.channelSearchTimeout (.getTimeout [0x00#8])) = absent .channelSearchTimeout .timeout ∧
    ran (.channelSearchTimeout (.setTimeout [0x00#8, 0x00#8, 0x01#8] 255)) = pay [0x00#8, 0xFF#8, 0x01#8] ∧
    failed (.channelSearchTimeout (.setTimeout [0x00#8] 255)) = absent .channelSearchTimeout .timeout ∧
    ran (.channelSearchTimeout (.setTimeout [] 256)) = range .channelSearchTimeout .timeout :=
  ⟨test_reset_legal, by and_intros <;> decide⟩

theorem test_witness_ChannelFrequencyOperations :
    ConfigLegal State.reset.cfg ∧
    ran (.channelFrequency (.build 255 255)) = pay [0xFF#8, 0xFF#8] ∧
    ((256 : Int) < 0 ∨ 255 < (256 : Int)) ∧ ran (.channelFrequency (.build 256 255)) = range .channelFrequency
      .channel ∧
    (((-1) : Int) < 0 ∨ 255 < ((-1) : Int)) ∧ ran (.channelFrequency (.build (-1) 255)) = range .channelFrequency
      .channel ∧
    ((0 : Int) ≤ 255 ∧ (255 : Int) ≤ 255) ∧ ((256 : Int) < 0 ∨ 255 < (256 : Int)) ∧ ran (.channelFrequency (.build
      255 256)) = range .channelFrequency .frequency ∧
    (((-1) : Int) < 0 ∨ 255 < ((-1) : Int)) ∧ ran (.channelFrequency (.build 255 (-1))) = range .channelFrequency
      .frequency ∧
    ran (.channelFrequency (.view [0xFF#8, 0xFF#8, 0x01#8])) = vals [(fieldIn .channelFrequency .channel, .num 255),
      (fieldIn .channelFrequency .frequency, .num 255)] ∧
    ([] : Bytes).length < 1 ∧ 0 ≤ ([] : Bytes).length ∧ failed (.channelFrequency (.view [])) = absent
      .channelFrequency .channel ∧
    ran (.channelFrequency (.getChannel [0xFF#8])) = vals [(fieldIn .channelFrequency .channel, .num 255)] ∧
    failed (.channelFrequency (.getChannel [])) = absent .channelFrequency .channel ∧
    ran (.channelFrequency (.setChannel [0x00#8, 0x01#8] 255)) = pay [0xFF#8, 0x01#8] ∧
    failed (.channelFrequency (.setChannel [] 255)) = absent .channelFrequency .channel ∧
    ran (.channelFrequency (.setChannel [] 256)) = range .channelFrequency .channel ∧
    ([0x00#8] : Bytes).length < 2 ∧ 1 ≤ ([0x00#8] : Bytes).length ∧ failed (.channelFrequency (.view [0x00#8])) =
      absent .channelFrequency .frequency ∧
    ran (.channelFrequency (.getFrequency [0x00#8, 0xFF#8])) = vals [(fieldIn .channelFrequency .frequency, .num
      255)] ∧
    failed (.channelFrequency (.getFrequency [0x00#8])) = absent .channelFrequency .frequency ∧
    ran (.channelFrequency (.setFrequency [0x00#8, 0x00#8, 0x01#8] 255)) = pay [0x00#8, 0xFF#8, 0x01#8] ∧
    failed (.channelFrequency (.setFrequency [0x00#8] 255)) = absent .channelFrequency .frequency ∧
    ran (.channelFrequency (.setFrequency [] 256)) = range .channelFrequency .frequency :=
  ⟨test_reset_legal, by and_intros <;> decide⟩

theorem test_witness_ChannelTXPowerOperations :
    ConfigLegal State.reset.cfg ∧
    ran (.channelTXPower (.build 255 255)) = pay [0xFF#8, 0xFF#8] ∧
    ((256 : Int) < 0 ∨ 255 < (256 : Int)) ∧ ran (.channelTXPower (.build 256 255)) = range .channelTXPower .channel ∧
    (((-1) : Int) < 0 ∨ 255 < ((-1) : Int)) ∧ ran (.channelTXPower (.build (-1) 255)) = range .channelTXPower
      .channel ∧
    ((0 : Int) ≤ 255 ∧ (255 : Int) ≤ 255) ∧ ((256 : Int) < 0 ∨ 255 < (256 : Int)) ∧ ran (.channelTXPower (.build 255
      256)) = range .channelTXPower .power ∧
    (((-1) : Int) < 0 ∨ 255 < ((-1) : Int)) ∧ ran (.channelTXPower (.build 255 (-1))) = range .channelTXPower .power ∧
    ran (.channelTXPower (.view [0xFF#8, 0xFF#8, 0x01#8])) = vals [(fieldIn .channelTXPower .channel, .num 255),
      (fieldIn .channelTXPower .power, .num 255)] ∧
    ([] : Bytes).length < 1 ∧ 0 ≤ ([] : Bytes).length ∧ failed (.channelTXPower (.view [])) = absent .channelTXPower
      .channel ∧
    ran (.channelTXPower (.getChannel [0xFF#8])) = vals [(fieldIn .channelTXPower .channel, .num 255)] ∧
    failed (.channelTXPower (.getChannel [])) = absent .channelTXPower .channel ∧
    ran (.channelTXPower (.setChannel [0x00#8, 0x01#8] 255)) = pay [0xFF#8, 0x01#8] ∧
    failed (.channelTXPower (.setChannel [] 255)) = absent .channelTXPower .channel ∧
    ran (.channelTXPower (.setChannel [] 256)) = range .channelTXPower .channel ∧
    ([0x00#8] : Bytes).length < 2 ∧ 1 ≤ ([0x00#8] : Bytes).length ∧ failed (.channelTXPower (.view [0x00#8])) =
      absent .channelTXPower .power ∧
    ran (.channelTXPower (.getPower [0x00#8, 0xFF#8])) = vals [(fieldIn .channelTXPower .power, .num 255)] ∧
    failed (.channelTXPower (.getPower [0x00#8])) = absent .channelTXPower .power ∧
    ran (.channelTXPower (.setPower [0x00#8, 0x00#8, 0x01#8] 255)) = pay [0x00#8, 0xFF#8, 0x01#8] ∧
    failed (.channelTXPower (.setPower [0x00#8] 255)) = absent .channelTXPower .power ∧
    ran (.channelTXPower (.setPower [] 256)) = range .channelTXPower .power :=
  ⟨test_reset_legal, by and_intros <;> decide⟩

theorem test_witness_NetworkKeyOperations :
    ConfigLegal State.reset.cfg ∧
    ran (.networkKey (.build 255 (fill 8 0xFF#8))) = pay (fill 9 0xFF#8) ∧
    ((256 : Int) < 0 ∨ 255 < (256 : Int)) ∧ ran (.networkKey (.build 256 (fill 8 0xFF#8))) = range .networkKey
      .networkNumber ∧
    (((-1) : Int) < 0 ∨ 255 < ((-1) : Int)) ∧ ran (.networkKey (.build (-1) (fill 8 0xFF#8))) = range .networkKey
      .networkNumber ∧
    ((0 : Int) ≤ 255 ∧ (255 : Int) ≤ 255) ∧ ((fill 7 0x00#8) : Bytes).length ≠ 8 ∧ ran (.networkKey (.build 255 (fill
      7 0x00#8))) = range .networkKey .key ∧
    ((fill 9 0x00#8) : Bytes).length ≠ 8 ∧ ran (.networkKey (.build 255 (fill 9 0x00#8))) = range .networkKey .key ∧
    ran (.networkKey (.view (fill 9 0xFF#8 ++ [0x01#8]))) = vals [(fieldIn .networkKey .networkNumber, .num 255),
      (fieldIn .networkKey .key, .str (fill 8 0xFF#8))] ∧
    ([] : Bytes).length < 1 ∧ 0 ≤ ([] : Bytes).length ∧ failed (.networkKey (.view [])) = absent .networkKey
      .networkNumber ∧
    ran (.networkKey (.getNetworkNumber [0xFF#8])) = vals [(fieldIn .networkKey .networkNumber, .num 255)] ∧
    failed (.networkKey (.getNetworkNumber [])) = absent .networkKey .networkNumber ∧
    ran (.networkKey (.setNetworkNumber [0x00#8, 0x01#8] 255)) = pay [0xFF#8, 0x01#8] ∧
    failed (.networkKey (.setNetworkNumber [] 255)) = absent .networkKey .networkNumber ∧
    ran (.networkKey (.setNetworkNumber [] 256)) = range .networkKey .networkNumber ∧
    ((fill 8 0x00#8) : Bytes).length < 9 ∧ 1 ≤ ((fill 8 0x00#8) : Bytes).length ∧ failed (.networkKey (.view (fill 8
      0x00#8))) = absent .networkKey .key ∧
    ran (.networkKey (.getKey ([0x00#8] ++ fill 8 0xFF#8))) = vals [(fieldIn .networkKey .key, .str (fill 8 0xFF#8))]
      ∧
    failed (.networkKey (.getKey (fill 8 0x00#8))) = absent .networkKey .key ∧
    ran (.networkKey (.setKey (fill 9 0x00#8 ++ [0x01#8]) (fill 8 0xFF#8))) = pay ([0x00#8] ++ fill 8 0xFF#8 ++
      [0x01#8]) ∧
    failed (.networkKey (.setKey (fill 8 0x00#8) (fill 8 0xFF#8))) = absent .networkKey .key ∧
    ran (.networkKey (.setKey [] (fill 7 0x00#8))) = range .networkKey .key :=
  ⟨test_reset_legal, by and_intros <;> decide⟩

theorem test_witness_TXPowerOperations :
    ConfigLegal State.reset.cfg ∧
    ran (.txPower (.build 255 255)) = pay [0xFF#8, 0xFF#8] ∧
    ((256 : Int) < 0 ∨ 255 < (256 : Int)) ∧ ran (.txPower (.build 256 255)) = range .txPower .b0 ∧
    (((-1) : Int) < 0 ∨ 255 < ((-1) : Int)) ∧ ran (.txPower (.build (-1) 255)) = range .txPower .b0 ∧
    ((0 : Int) ≤ 255 ∧ (255 : Int) ≤ 255) ∧ ((256 : Int) < 0 ∨ 255 < (256 : Int)) ∧ ran (.txPower (.build 255 256)) =
      range .txPower .power ∧
    (((-1) : Int) < 0 ∨ 255 < ((-1) : Int)) ∧ ran (.txPower (.build 255 (-1))) = range .txPower .power ∧
    ran (.txPower (.view [0xFF#8, 0xFF#8, 0x01#8])) = vals [(fieldIn .txPower .b0, .num 255), (fieldIn .txPower
      .power, .num 255)] ∧
    ([] : Bytes).length < 1 ∧ 0 ≤ ([] : Bytes).length ∧ failed (.txPower (.view [])) = absent .txPower .b0 ∧
    ran (.txPower (.getB0 [0xFF#8])) = vals [(fieldIn .txPower .b0, .num 255)] ∧
    failed (.txPower (.getB0 [])) = absent .txPower .b0 ∧
    ran (.txPower (.setB0 [0x00#8, 0x01#8] 255)) = pay [0xFF#8, 0x01#8] ∧
    failed (.txPower (.setB0 [] 255)) = absent .txPower .b0 ∧
    ran (.txPower (.setB0 [] 256)) = range .txPower .b0 ∧
    ([0x00#8] : Bytes).length < 2 ∧ 1 ≤ ([0x00#8] : Bytes).length ∧ failed (.txPower (.view [0x00#8])) = absent
      .txPower .power ∧
    ran (.txPower (.getPower [0x00#8, 0xFF#8])) = vals [(fieldIn .txPower .power, .num 255)] ∧
    failed (.txPower (.getPower [0x00#8])) = absent .txPower .power ∧
    ran (.txPower (.setPower [0x00#8, 0x00#8, 0x01#8] 255)) = pay [0x00#8, 0xFF#8, 0x01#8] ∧
    failed (.txPower (.setPower [0x00#8] 255)) = absent .txPower .power ∧
    ran (.txPower (.setPower [] 256)) = range .txPower .power :=
  ⟨test_reset_legal, by and_intros <;> decide⟩

theorem test_witness_SystemResetOperations :
    ConfigLegal State.reset.cfg ∧
    ran (.systemReset (.build (some 255))) = pay [0xFF#8] ∧
    ((256 : Int) < 0 ∨ 255 < (256 : Int)) ∧ ran (.systemReset (.build (some 256))) = range .systemReset .reserved ∧
    ran (.systemReset (.build (some (-1)))) = range .systemReset .reserved ∧
    ran (.systemReset (.getReserved [0xFF#8, 0x01#8])) = vals [(fieldIn .systemReset .reserved, .num 255)] ∧
    ([] : Bytes).length ≤ 0 ∧ failed (.systemReset (.getReserved [])) = absent .systemReset .reserved :=
  ⟨test_reset_legal, by and_intros <;> decide⟩

theorem test_witness_ChannelOpenOperations :
    ConfigLegal State.reset.cfg ∧
    ran (.channelOpen (.build 255)) = pay [0xFF#8] ∧
    ((256 : Int) < 0 ∨ 255 < (256 : Int)) ∧ ran (.channelOpen (.build 256)) = range .channelOpen .channel ∧
    (((-1) : Int) < 0 ∨ 255 < ((-1) : Int)) ∧ ran (.channelOpen (.build (-1))) = range .channelOpen .channel ∧
    ran (.channelOpen (.view [0xFF#8, 0x01#8])) = vals [(fieldIn .channelOpen .channel, .num 255)] ∧
    ([] : Bytes).length < 1 ∧ 0 ≤ ([] : Bytes).length ∧ failed (.channelOpen (.view [])) = absent .channelOpen
      .channel ∧
    ran (.channelOpen (.getChannel [0xFF#8])) = vals [(fieldIn .channelOpen .channel, .num 255)] ∧
    failed (.channelOpen (.getChannel [])) = absent .channelOpen .channel ∧
    ran (.channelOpen (.setChannel [0x00#8, 0x01#8] 255)) = pay [0xFF#8, 0x01#8] ∧
    failed (.channelOpen (.setChannel [] 255)) = absent .channelOpen .channel ∧
    ran (.channelOpen (.setChannel [] 256)) = range .channelOpen .channel :=
  ⟨test_reset_legal, by and_intros <;> decide⟩

theorem test_witness_ChannelCloseOperations :
    ConfigLegal State.reset.cfg ∧
    ran (.channelClose (.build 255)) = pay [0xFF#8] ∧
    ((256 : Int) < 0 ∨ 255 < (256 : Int)) ∧ ran (.channelClose (.build 256)) = range .channelClose .channel ∧
    (((-1) : Int) < 0 ∨ 255 < ((-1) : Int)) ∧ ran (.channelClose (.build (-1))) = range .channelClose .channel ∧
    ran (.channelClose (.view [0xFF#8, 0x01#8])) = vals [(fieldIn .channelClose .channel, .num 255)] ∧
    ([] : Bytes).length < 1 ∧ 0 ≤ ([] : Bytes).length ∧ failed (.channelClose (.view [])) = absent .channelClose
      .channel ∧
    ran (.channelClose (.getChannel [0xFF#8])) = vals [(fieldIn .channelClose .channel, .num 255)] ∧
    failed (.channelClose (.getChannel [])) = absent .channelClose .channel ∧
    ran (.channelClose (.setChannel [0x00#8, 0x01#8] 255)) = pay [0xFF#8, 0x01#8] ∧
    failed (.channelClose (.setChannel [] 255)) = absent .channelClose .channel ∧
    ran (.channelClose (.setChannel [] 256)) = range .channelClose .channel :=
  ⟨test_reset_legal, by and_intros <;> decide⟩

theorem test_witness_ChannelRequestOperations :
    ConfigLegal State.reset.cfg ∧
    ran (.channelRequest (.build 255 255)) = pay [0xFF#8, 0xFF#8] ∧
    ((256 : Int) < 0 ∨ 255 < (256 : Int)) ∧ ran (.channelRequest (.build 256 255)) = range .channelRequest .channel ∧
    (((-1) : Int) < 0 ∨ 255 < ((-1) : Int)) ∧ ran (.channelRequest (.build (-1) 255)) = range .channelRequest
      .channel ∧
    ((0 : Int) ≤ 255 ∧ (255 : Int) ≤ 255) ∧ ((256 : Int) < 0 ∨ 255 < (256 : Int)) ∧ ran (.channelRequest (.build 255
      256)) = range .channelRequest .requestedMessageId ∧
    (((-1) : Int) < 0 ∨ 255 < ((-1) : Int)) ∧ ran (.channelRequest (.build 255 (-1))) = range .channelRequest
      .requestedMessageId ∧
    ran (.channelRequest (.view [0xFF#8, 0xFF#8, 0x01#8])) = vals [(fieldIn .channelRequest .channel, .num 255),
      (fieldIn .channelRequest .requestedMessageId, .num 255)] ∧
    ([] : Bytes).length < 1 ∧ 0 ≤ ([] : Bytes).length ∧ failed (.channelRequest (.view [])) = absent .channelRequest
      .channel ∧
    ran (.channelRequest (.getChannel [0xFF#8])) = vals [(fieldIn .channelRequest .channel, .num 255)] ∧
    failed (.channelRequest (.getChannel [])) = absent .channelRequest .channel ∧
    ran (.channelRequest (.setChannel [0x00#8, 0x01#8] 255)) = pay [0xFF#8, 0x01#8] ∧
    failed (.channelRequest (.setChannel [] 255)) = absent .channelRequest .channel ∧
    ran (.channelRequest (.setChannel [] 256)) = range .channelRequest .channel ∧
    ([0x00#8] : Bytes).length < 2 ∧ 1 ≤ ([0x00#8] : Bytes).length ∧ failed (.channelRequest (.view [0x00#8])) =
      absent .channelRequest .requestedMessageId ∧
    ran (.channelRequest (.getRequestedMessageId [0x00#8, 0xFF#8])) = vals [(fieldIn .channelRequest
      .requestedMessageId, .num 255)] ∧
    failed (.channelRequest (.getRequestedMessageId [0x00#8])) = absent .channelRequest .requestedMessageId ∧
    ran (.channelRequest (.setRequestedMessageId [0x00#8, 0x00#8, 0x01#8] 255)) = pay [0x00#8, 0xFF#8, 0x01#8] ∧
    failed (.channelRequest (.setRequestedMessageId [0x00#8] 255)) = absent .channelRequest .requestedMessageId ∧
    ran (.channelRequest (.setRequestedMessageId [] 256)) = range .channelRequest .requestedMessageId :=
  ⟨test_reset_legal, by and_intros <;> decide⟩

theorem test_witness_BroadcastDataOperations :
    ConfigLegal State.reset.cfg ∧
    ran (.broadcastData (.build 255 (fill 7 0xFF#8))) = pay (fill 8 0xFF#8) ∧
    ((256 : Int) < 0 ∨ 255 < (256 : Int)) ∧ ran (.broadcastData (.build 256 (fill 7 0xFF#8))) = range .broadcastData
      .channel ∧
    (((-1) : Int) < 0 ∨ 255 < ((-1) : Int)) ∧ ran (.broadcastData (.build (-1) (fill 7 0xFF#8))) = range
      .broadcastData .channel ∧
    ((0 : Int) ≤ 255 ∧ (255 : Int) ≤ 255) ∧ ((fill 6 0x00#8) : Bytes).length ≠ 7 ∧ ran (.broadcastData (.build 255
      (fill 6 0x00#8))) = range .broadcastData .data ∧
    ((fill 8 0x00#8) : Bytes).length ≠ 7 ∧ ran (.broadcastData (.build 255 (fill 8 0x00#8))) = range .broadcastData
      .data ∧
    ran (.broadcastData (.view (fill 8 0xFF#8 ++ [0x01#8]))) = vals [(fieldIn .broadcastData .channel, .num 255),
      (fieldIn .broadcastData .data, .str (fill 7 0xFF#8))] ∧
    ([] : Bytes).length < 1 ∧ 0 ≤ ([] : Bytes).length ∧ failed (.broadcastData (.view [])) = absent .broadcastData
      .channel ∧
    ran (.broadcastData (.getChannel [0xFF#8])) = vals [(fieldIn .broadcastData .channel, .num 255)] ∧
    failed (.broadcastData (.getChannel [])) = absent .broadcastData .channel ∧
    ran (.broadcastData (.setChannel [0x00#8, 0x01#8] 255)) = pay [0xFF#8, 0x01#8] ∧
    failed (.broadcastData (.setChannel [] 255)) = absent .broadcastData .channel ∧
    ran (.broadcastData (.setChannel [] 256)) = range .broadcastData .channel ∧
    ((fill 7 0x00#8) : Bytes).length < 8 ∧ 1 ≤ ((fill 7 0x00#8) : Bytes).length ∧ failed (.broadcastData (.view (fill
      7 0x00#8))) = absent .broadcastData .data ∧
    ran (.broadcastData (.getData ([0x00#8] ++ fill 7 0xFF#8))) = vals [(fieldIn .broadcastData .data, .str (fill 7
      0xFF#8))] ∧
    failed (.broadcastData (.getData (fill 7 0x00#8))) = absent .broadcastData .data ∧
    ran (.broadcastData (.setData (fill 8 0x00#8 ++ [0x01#8]) (fill 7 0xFF#8))) = pay ([0x00#8] ++ fill 7 0xFF#8 ++
      [0x01#8]) ∧
    failed (.broadcastData (.setData (fill 7 0x00#8) (fill 7 0xFF#8))) = absent .broadcastData .data ∧
    ran (.broadcastData (.setData [] (fill 6 0x00#8))) = range .broadcastData .data :=
  ⟨test_reset_legal, by and_intros <;> decide⟩

theorem test_witness_AcknowledgedDataOperations :
    ConfigLegal State.reset.cfg ∧
    ran (.acknowledgedData (.build 255 (fill 7 0xFF#8))) = pay (fill 8 0xFF#8) ∧
    ((256 : Int) < 0 ∨ 255 < (256 : Int)) ∧ ran (.acknowledgedData (.build 256 (fill 7 0xFF#8))) = range
      .acknowledgedData .channel ∧
    (((-1) : Int) < 0 ∨ 255 < ((-1) : Int)) ∧ ran (.acknowledgedData (.build (-1) (fill 7 0xFF#8))) = range
      .acknowledgedData .channel ∧
    ((0 : Int) ≤ 255 ∧ (255 : Int) ≤ 255) ∧ ((fill 6 0x00#8) : Bytes).length ≠ 7 ∧ ran (.acknowledgedData (.build 255
      (fill 6 0x00#8))) = range .acknowledgedData .data ∧
    ((fill 8 0x00#8) : Bytes).length ≠ 7 ∧ ran (.acknowledgedData (.build 255 (fill 8 0x00#8))) = range
      .acknowledgedData .data ∧
    ran (.acknowledgedData (.view (fill 8 0xFF#8 ++ [0x01#8]))) = vals [(fieldIn .acknowledgedData .channel, .num
      255), (fieldIn .acknowledgedData .data, .str (fill 7 0xFF#8))] ∧
    ([] : Bytes).length < 1 ∧ 0 ≤ ([] : Bytes).length ∧ failed (.acknowledgedData (.view [])) = absent
      .acknowledgedData .channel ∧
    ran (.acknowledgedData (.getChannel [0xFF#8])) = vals [(fieldIn .acknowledgedData .channel, .num 255)] ∧
    failed (.acknowledgedData (.getChannel [])) = absent .acknowledgedData .channel ∧
    ran (.acknowledgedData (.setChannel [0x00#8, 0x01#8] 255)) = pay [0xFF#8, 0x01#8] ∧
    failed (.acknowledgedData (.setChannel [] 255)) = absent .acknowledgedData .channel ∧
    ran (.acknowledgedData (.setChannel [] 256)) = range .acknowledgedData .channel ∧
    ((fill 7 0x00#8) : Bytes).length < 8 ∧ 1 ≤ ((fill 7 0x00#8) : Bytes).length ∧ failed (.acknowledgedData (.view
      (fill 7 0x00#8))) = absent .acknowledgedData .data ∧
    ran (.acknowledgedData (.getData ([0x00#8] ++ fill 7 0xFF#8))) = vals [(fieldIn .acknowledgedData .data, .str
      (fill 7 0xFF#8))] ∧
    failed (.acknowledgedData (.getData (fill 7 0x00#8))) = absent .acknowledgedData .data ∧
    ran (.acknowledgedData (.setData (fill 8 0x00#8 ++ [0x01#8]) (fill 7 0xFF#8))) = pay ([0x00#8] ++ fill 7 0xFF#8
      ++ [0x01#8]) ∧
    failed (.acknowledgedData (.setData (fill 7 0x00#8) (fill 7 0xFF#8))) = absent .acknowledgedData .data ∧
    ran (.acknowledgedData (.setData [] (fill 6 0x00#8))) = range .acknowledgedData .data :=
  ⟨test_reset_legal, by and_intros <;> decide⟩

theorem test_witness_BurstDataOperations :
    ConfigLegal State.reset.cfg ∧
    ran (.burstData (.build 255 (fill 7 0xFF#8))) = pay (fill 8 0xFF#8) ∧
    ((256 : Int) < 0 ∨ 255 < (256 : Int)) ∧ ran (.burstData (.build 256 (fill 7 0xFF#8))) = range .burstData .channel
      ∧
    (((-1) : Int) < 0 ∨ 255 < ((-1) : Int)) ∧ ran (.burstData (.build (-1) (fill 7 0xFF#8))) = range .burstData
      .channel ∧
    ((0 : Int) ≤ 255 ∧ (255 : Int) ≤ 255) ∧ ((fill 6 0x00#8) : Bytes).length ≠ 7 ∧ ran (.burstData (.build 255 (fill
      6 0x00#8))) = range .burstData .data ∧
    ((fill 8 0x00#8) : Bytes).length ≠ 7 ∧ ran (.burstData (.build 255 (fill 8 0x00#8))) = range .burstData .data ∧
    ran (.burstData (.view (fill 8 0xFF#8 ++ [0x01#8]))) = vals [(fieldIn .burstData .channel, .num 255), (fieldIn
      .burstData .data, .str (fill 7 0xFF#8))] ∧
    ([] : Bytes).length < 1 ∧ 0 ≤ ([] : Bytes).length ∧ failed (.burstData (.view [])) = absent .burstData .channel ∧
    ran (.burstData (.getChannel [0xFF#8])) = vals [(fieldIn .burstData .channel, .num 255)] ∧
    failed (.burstData (.getChannel [])) = absent .burstData .channel ∧
    ran (.burstData (.setChannel [0x00#8, 0x01#8] 255)) = pay [0xFF#8, 0x01#8] ∧
    failed (.burstData (.setChannel [] 255)) = absent .burstData .channel ∧
    ran (.burstData (.setChannel [] 256)) = range .burstData .channel ∧
    ((fill 7 0x00#8) : Bytes).length < 8 ∧ 1 ≤ ((fill 7 0x00#8) : Bytes).length ∧ failed (.burstData (.view (fill 7
      0x00#8))) = absent .burstData .data ∧
    ran (.burstData (.getData ([0x00#8] ++ fill 7 0xFF#8))) = vals [(fieldIn .burstData .data, .str (fill 7 0xFF#8))]
      ∧
    failed (.burstData (.getData (fill 7 0x00#8))) = absent .burstData .data ∧
    ran (.burstData (.setData (fill 8 0x00#8 ++ [0x01#8]) (fill 7 0xFF#8))) = pay ([0x00#8] ++ fill 7 0xFF#8 ++
      [0x01#8]) ∧
    failed (.burstData (.setData (fill 7 0x00#8) (fill 7 0xFF#8))) = absent .burstData .data ∧
    ran (.burstData (.setData [] (fill 6 0x00#8))) = range .burstData .data :=
  ⟨test_reset_legal, by and_intros <;> decide⟩

theorem test_witness_ChannelEventOperations :
    ConfigLegal State.reset.cfg ∧
    ran (.channelEvent (.build 255 255 255)) = pay [0xFF#8, 0xFF#8, 0xFF#8] ∧
    ((256 : Int) < 0 ∨ 255 < (256 : Int)) ∧ ran (.channelEvent (.build 256 255 255)) = range .channelEvent .channel ∧
    (((-1) : Int) < 0 ∨ 255 < ((-1) : Int)) ∧ ran (.channelEvent (.build (-1) 255 255)) = range .channelEvent
      .channel ∧
    ((0 : Int) ≤ 255 ∧ (255 : Int) ≤ 255) ∧ ((256 : Int) < 0 ∨ 255 < (256 : Int)) ∧ ran (.channelEvent (.build 255
      256 255)) = range .channelEvent .messageId ∧
    (((-1) : Int) < 0 ∨ 255 < ((-1) : Int)) ∧ ran (.channelEvent (.build 255 (-1) 255)) = range .channelEvent
      .messageId ∧
    ((0 : Int) ≤ 255 ∧ (255 : Int) ≤ 255) ∧ ((256 : Int) < 0 ∨ 255 < (256 : Int)) ∧ ran (.channelEvent (.build 255
      255 256)) = range .channelEvent .messageCode ∧
    (((-1) : Int) < 0 ∨ 255 < ((-1) : Int)) ∧ ran (.channelEvent (.build 255 255 (-1))) = range .channelEvent
      .messageCode ∧
    ran (.channelEvent (.view [0xFF#8, 0xFF#8, 0xFF#8, 0x01#8])) = vals [(fieldIn .channelEvent .channel, .num 255),
      (fieldIn .channelEvent .messageId, .num 255), (fieldIn .channelEvent .messageCode, .num 255)] ∧
    ([] : Bytes).length < 1 ∧ 0 ≤ ([] : Bytes).length ∧ failed (.channelEvent (.view [])) = absent .channelEvent
      .channel ∧
    ran (.channelEvent (.getChannel [0xFF#8])) = vals [(fieldIn .channelEvent .channel, .num 255)] ∧
    failed (.channelEvent (.getChannel [])) = absent .channelEvent .channel ∧
    ran (.channelEvent (.setChannel [0x00#8, 0x01#8] 255)) = pay [0xFF#8, 0x01#8] ∧
    failed (.channelEvent (.setChannel [] 255)) = absent .channelEvent .channel ∧
    ran (.channelEvent (.setChannel [] 256)) = range .channelEvent .channel ∧
    ([0x00#8] : Bytes).length < 2 ∧ 1 ≤ ([0x00#8] : Bytes).length ∧ failed (.channelEvent (.view [0x00#8])) = absent
      .channelEvent .messageId ∧
    ran (.channelEvent (.getMessageId [0x00#8, 0xFF#8])) = vals [(fieldIn .channelEvent .messageId, .num 255)] ∧
    failed (.channelEvent (.getMessageId [0x00#8])) = absent .channelEvent .messageId ∧
    ran (.channelEvent (.setMessageId [0x00#8, 0x00#8, 0x01#8] 255)) = pay [0x00#8, 0xFF#8, 0x01#8] ∧
    failed (.channelEvent (.setMessageId [0x00#8] 255)) = absent .channelEvent .messageId ∧
    ran (.channelEvent (.setMessageId [] 256)) = range .channelEvent .messageId ∧
    ([0x00#8, 0x00#8] : Bytes).length < 3 ∧ 2 ≤ ([0x00#8, 0x00#8] : Bytes).length ∧ failed (.channelEvent (.view
      [0x00#8, 0x00#8])) = absent .channelEvent .messageCode ∧
    ran (.channelEvent (.getMessageCode [0x00#8, 0x00#8, 0xFF#8])) = vals [(fieldIn .channelEvent .messageCode, .num
      255)] ∧
    failed (.channelEvent (.getMessageCode [0x00#8, 0x00#8])) = absent .channelEvent .messageCode ∧
    ran (.channelEvent (.setMessageCode [0x00#8, 0x00#8, 0x00#8, 0x01#8] 255)) = pay [0x00#8, 0x00#8, 0xFF#8, 0x01#8]
      ∧
    failed (.channelEvent (.setMessageCode [0x00#8, 0x00#8] 255)) = absent .channelEvent .messageCode ∧
    ran (.channelEvent (.setMessageCode [] 256)) = range .channelEvent .messageCode :=
  ⟨test_reset_legal, by and_intros <;> decide⟩

theorem test_witness_ChannelStatusOperations :
    ConfigLegal State.reset.cfg ∧
    ran (.channelStatus (.build 255 255)) = pay [0xFF#8, 0xFF#8] ∧
    ((256 : Int) < 0 ∨ 255 < (256 : Int)) ∧ ran (.channelStatus (.build 256 255)) = range .channelStatus .channel ∧
    (((-1) : Int) < 0 ∨ 255 < ((-1) : Int)) ∧ ran (.channelStatus (.build (-1) 255)) = range .channelStatus .channel ∧
    ((0 : Int) ≤ 255 ∧ (255 : Int) ≤ 255) ∧ ((256 : Int) < 0 ∨ 255 < (256 : Int)) ∧ ran (.channelStatus (.build 255
      256)) = range .channelStatus .status ∧
    (((-1) : Int) < 0 ∨ 255 < ((-1) : Int)) ∧ ran (.channelStatus (.build 255 (-1))) = range .channelStatus .status ∧
    ran (.channelStatus (.view [0xFF#8, 0xFF#8, 0x01#8])) = vals [(fieldIn .channelStatus .channel, .num 255),
      (fieldIn .channelStatus .status, .num 255)] ∧
    ([] : Bytes).length < 1 ∧ 0 ≤ ([] : Bytes).length ∧ failed (.channelStatus (.view [])) = absent .channelStatus
      .channel ∧
    ran (.channelStatus (.getChannel [0xFF#8])) = vals [(fieldIn .channelStatus .channel, .num 255)] ∧
    failed (.channelStatus (.getChannel [])) = absent .channelStatus .channel ∧
    ran (.channelStatus (.setChannel [0x00#8, 0x01#8] 255)) = pay [0xFF#8, 0x01#8] ∧
    failed (.channelStatus (.setChannel [] 255)) = absent .channelStatus .channel ∧
    ran (.channelStatus (.setChannel [] 256)) = range .channelStatus .channel ∧
    ([0x00#8] : Bytes).length < 2 ∧ 1 ≤ ([0x00#8] : Bytes).length ∧ failed (.channelStatus (.view [0x00#8])) = absent
      .channelStatus .status ∧
    ran (.channelStatus (.getStatus [0x00#8, 0xFF#8])) = vals [(fieldIn .channelStatus .status, .num 255)] ∧
    failed (.channelStatus (.getStatus [0x00#8])) = absent .channelStatus .status ∧
    ran (.channelStatus (.setStatus [0x00#8, 0x00#8, 0x01#8] 255)) = pay [0x00#8, 0xFF#8, 0x01#8] ∧
    failed (.channelStatus (.setStatus [0x00#8] 255)) = absent .channelStatus .status ∧
    ran (.channelStatus (.setStatus [] 256)) = range .channelStatus .status :=
  ⟨test_reset_legal, by and_intros <;> decide⟩

theorem test_witness_VersionOperations :
    ConfigLegal State.reset.cfg ∧
    ran (.version (.build (fill 9 0xFF#8))) = pay (fill 9 0xFF#8) ∧
    ((fill 8 0x00#8) : Bytes).length ≠ 9 ∧ ran (.version (.build (fill 8 0x00#8))) = range .version .version ∧
    ((fill 10 0x00#8) : Bytes).length ≠ 9 ∧ ran (.version (.build (fill 10 0x00#8))) = range .version .version ∧
    ran (.version (.view (fill 9 0xFF#8 ++ [0x01#8]))) = vals [(fieldIn .version .version, .str (fill 9 0xFF#8))] ∧
    ((fill 8 0x00#8) : Bytes).length < 9 ∧ 0 ≤ ((fill 8 0x00#8) : Bytes).length ∧ failed (.version (.view (fill 8
      0x00#8))) = absent .version .version ∧
    ran (.version (.getVersion (fill 9 0xFF#8))) = vals [(fieldIn .version .version, .str (fill 9 0xFF#8))] ∧
    failed (.version (.getVersion (fill 8 0x00#8))) = absent .version .version ∧
    ran (.version (.setVersion (fill 9 0x00#8 ++ [0x01#8]) (fill 9 0xFF#8))) = pay (fill 9 0xFF#8 ++ [0x01#8]) ∧
    failed (.version (.setVersion (fill 8 0x00#8) (fill 9 0xFF#8))) = absent .version .version ∧
    ran (.version (.setVersion [] (fill 8 0x00#8))) = range .version .version :=
  ⟨test_reset_legal, by and_intros <;> decide⟩

theorem test_witness_StartupOperations :
    ConfigLegal State.reset.cfg ∧
    ran (.startup (.build 255)) = pay [0xFF#8] ∧
    ((256 : Int) < 0 ∨ 255 < (256 : Int)) ∧ ran (.startup (.build 256)) = range .startup .startupReason ∧
    (((-1) : Int) < 0 ∨ 255 < ((-1) : Int)) ∧ ran (.startup (.build (-1))) = range .startup .startupReason ∧
    ran (.startup (.view [0xFF#8, 0x01#8])) = vals [(fieldIn .startup .startupReason, .num 255)] ∧
    ([] : Bytes).length < 1 ∧ 0 ≤ ([] : Bytes).length ∧ failed (.startup (.view [])) = absent .startup .startupReason
      ∧
    ran (.startup (.getStartupReason [0xFF#8])) = vals [(fieldIn .startup .startupReason, .num 255)] ∧
    failed (.startup (.getStartupReason [])) = absent .startup .startupReason ∧
    ran (.startup (.setStartupReason [0x00#8, 0x01#8] 255)) = pay [0xFF#8, 0x01#8] ∧
    failed (.startup (.setStartupReason [] 255)) = absent .startup .startupReason ∧
    ran (.startup (.setStartupReason [] 256)) = range .startup .startupReason :=
  ⟨test_reset_legal, by and_intros <;> decide⟩

theorem test_witness_CapabilitiesOperations :
    ConfigLegal State.reset.cfg ∧
    ran (.capabilities (.build 255 255 255 255 (some 255))) = pay (fill 5 0xFF#8) ∧
    ran (.capabilities (.build 255 255 255 255 none)) = pay (fill 4 0xFF#8) ∧
    ((256 : Int) < 0 ∨ 255 < (256 : Int)) ∧ ran (.capabilities (.build 256 255 255 255 (some 255))) = range
      .capabilities .maxChannels ∧
    (((-1) : Int) < 0 ∨ 255 < ((-1) : Int)) ∧ ran (.capabilities (.build (-1) 255 255 255 (some 255))) = range
      .capabilities .maxChannels ∧
    ((0 : Int) ≤ 255 ∧ (255 : Int) ≤ 255) ∧ ((256 : Int) < 0 ∨ 255 < (256 : Int)) ∧ ran (.capabilities (.build 255
      256 255 255 (some 255))) = range .capabilities .maxNetworks ∧
    (((-1) : Int) < 0 ∨ 255 < ((-1) : Int)) ∧ ran (.capabilities (.build 255 (-1) 255 255 (some 255))) = range
      .capabilities .maxNetworks ∧
    ((0 : Int) ≤ 255 ∧ (255 : Int) ≤ 255) ∧ ((256 : Int) < 0 ∨ 255 < (256 : Int)) ∧ ran (.capabilities (.build 255
      255 256 255 (some 255))) = range .capabilities .stdOptions ∧
    (((-1) : Int) < 0 ∨ 255 < ((-1) : Int)) ∧ ran (.capabilities (.build 255 255 (-1) 255 (some 255))) = range
      .capabilities .stdOptions ∧
    ((0 : Int) ≤ 255 ∧ (255 : Int) ≤ 255) ∧ ((256 : Int) < 0 ∨ 255 < (256 : Int)) ∧ ran (.capabilities (.build 255
      255 255 256 (some 255))) = range .capabilities .advOptions ∧
    (((-1) : Int) < 0 ∨ 255 < ((-1) : Int)) ∧ ran (.capabilities (.build 255 255 255 (-1) (some 255))) = range
      .capabilities .advOptions ∧
    ((0 : Int) ≤ 255 ∧ (255 : Int) ≤ 255) ∧ ((256 : Int) < 0 ∨ 255 < (256 : Int)) ∧ ran (.capabilities (.build 255
      255 255 255 (some 256))) = range .capabilities .advOptions2 ∧
    (((-1) : Int) < 0 ∨ 255 < ((-1) : Int)) ∧ ran (.capabilities (.build 255 255 255 255 (some (-1)))) = range
      .capabilities .advOptions2 ∧
    ([] : Bytes).length < 1 ∧ 0 ≤ ([] : Bytes).length ∧ failed (.capabilities (.view [])) = absent .capabilities
      .maxChannels ∧
    ran (.capabilities (.getMaxChannels [0xFF#8])) = vals [(fieldIn .capabilities .maxChannels, .num 255)] ∧
    failed (.capabilities (.getMaxChannels [])) = absent .capabilities .maxChannels ∧
    ran (.capabilities (.setMaxChannels [0x00#8, 0x01#8] 255)) = pay [0xFF#8, 0x01#8] ∧
    failed (.capabilities (.setMaxChannels [] 255)) = absent .capabilities .maxChannels ∧
    ran (.capabilities (.setMaxChannels [] 256)) = range .capabilities .maxChannels ∧
    ([0x00#8] : Bytes).length < 2 ∧ 1 ≤ ([0x00#8] : Bytes).length ∧ failed (.capabilities (.view [0x00#8])) = absent
      .capabilities .maxNetworks ∧
    ran (.capabilities (.getMaxNetworks [0x00#8, 0xFF#8])) = vals [(fieldIn .capabilities .maxNetworks, .num 255)] ∧
    failed (.capabilities (.getMaxNetworks [0x00#8])) = absent .capabilities .maxNetworks ∧
    ran (.capabilities (.setMaxNetworks [0x00#8, 0x00#8, 0x01#8] 255)) = pay [0x00#8, 0xFF#8, 0x01#8] ∧
    failed (.capabilities (.setMaxNetworks [0x00#8] 255)) = absent .capabilities .maxNetworks ∧
    ran (.capabilities (.setMaxNetworks [] 256)) = range .capabilities .maxNetworks ∧
    ([0x00#8, 0x00#8] : Bytes).length < 3 ∧ 2 ≤ ([0x00#8, 0x00#8] : Bytes).length ∧ failed (.capabilities (.view
      [0x00#8, 0x00#8])) = absent .capabilities .stdOptions ∧
    ran (.capabilities (.getStdOptions [0x00#8, 0x00#8, 0xFF#8])) = vals [(fieldIn .capabilities .stdOptions, .num
      255)] ∧
    failed (.capabilities (.getStdOptions [0x00#8, 0x00#8])) = absent .capabilities .stdOptions ∧
    ran (.capabilities (.setStdOptions [0x00#8, 0x00#8, 0x00#8, 0x01#8] 255)) = pay [0x00#8, 0x00#8, 0xFF#8, 0x01#8] ∧
    failed (.capabilities (.setStdOptions [0x00#8, 0x00#8] 255)) = absent .capabilities .stdOptions ∧
    ran (.capabilities (.setStdOptions [] 256)) = range .capabilities .stdOptions ∧
    ((fill 3 0x00#8) : Bytes).length < 4 ∧ 3 ≤ ((fill 3 0x00#8) : Bytes).length ∧ failed (.capabilities (.view (fill
      3 0x00#8))) = absent .capabilities .advOptions ∧
    ran (.capabilities (.getAdvOptions [0x00#8, 0x00#8, 0x00#8, 0xFF#8])) = vals [(fieldIn .capabilities .advOptions,
      .num 255)] ∧
    failed (.capabilities (.getAdvOptions (fill 3 0x00#8))) = absent .capabilities .advOptions ∧
    ran (.capabilities (.setAdvOptions (fill 4 0x00#8 ++ [0x01#8]) 255)) = pay [0x00#8, 0x00#8, 0x00#8, 0xFF#8,
      0x01#8] ∧
    failed (.capabilities (.setAdvOptions (fill 3 0x00#8) 255)) = absent .capabilities .advOptions ∧
    ran (.capabilities (.setAdvOptions [] 256)) = range .capabilities .advOptions ∧
    ran (.capabilities (.getAdvOptions2 (fill 4 0x00#8))) = vals [(fieldIn .capabilities .advOptions2, .num 0)] ∧
    ran (.capabilities (.getAdvOptions2 (fill 4 0x00#8 ++ [0xFF#8]))) = vals [(fieldIn .capabilities .advOptions2,
      .num 255)] ∧
    ((fill 3 0x00#8) : Bytes).length < 4 ∧ failed (.capabilities (.getAdvOptions2 (fill 3 0x00#8))) = absent
      .capabilities .advOptions2 ∧
    ran (.capabilities (.setAdvOptions2 (fill 4 0x00#8) 255)) = pay (fill 4 0x00#8 ++ [0xFF#8]) ∧
    ran (.capabilities (.setAdvOptions2 (fill 5 0x00#8 ++ [0x01#8]) 255)) = pay (fill 4 0x00#8 ++ [0xFF#8, 0x01#8]) ∧
    failed (.capabilities (.setAdvOptions2 (fill 3 0x00#8) 255)) = absent .capabilities .advOptions2 ∧
    ran (.capabilities (.setAdvOptions2 [] 256)) = range .capabilities .advOptions2 :=
  ⟨test_reset_legal, by and_intros <;> decide⟩

theorem test_witness_SerialNumberOperations :
    ConfigLegal State.reset.cfg ∧
    ran (.serialNumber (.build (fill 4 0xFF#8))) = pay (fill 4 0xFF#8) ∧
    ((fill 3 0x00#8) : Bytes).length ≠ 4 ∧ ran (.serialNumber (.build (fill 3 0x00#8))) = range .serialNumber .serial
      ∧
    ((fill 5 0x00#8) : Bytes).length ≠ 4 ∧ ran (.serialNumber (.build (fill 5 0x00#8))) = range .serialNumber .serial
      ∧
    ran (.serialNumber (.view (fill 4 0xFF#8 ++ [0x01#8]))) = vals [(fieldIn .serialNumber .serial, .str (fill 4
      0xFF#8))] ∧
    ((fill 3 0x00#8) : Bytes).length < 4 ∧ 0 ≤ ((fill 3 0x00#8) : Bytes).length ∧ failed (.serialNumber (.view (fill
      3 0x00#8))) = absent .serialNumber .serial ∧
    ran (.serialNumber (.getSerial (fill 4 0xFF#8))) = vals [(fieldIn .serialNumber .serial, .str (fill 4 0xFF#8))] ∧
    failed (.serialNumber (.getSerial (fill 3 0x00#8))) = absent .serialNumber .serial ∧
    ran (.serialNumber (.setSerial (fill 4 0x00#8 ++ [0x01#8]) (fill 4 0xFF#8))) = pay (fill 4 0xFF#8 ++ [0x01#8]) ∧
    failed (.serialNumber (.setSerial (fill 3 0x00#8) (fill 4 0xFF#8))) = absent .serialNumber .serial ∧
    ran (.serialNumber (.setSerial [] (fill 3 0x00#8))) = range .serialNumber .serial :=
  ⟨test_reset_legal, by and_intros <;> decide⟩

theorem test_witness_CksumFoldsExclusiveOr :
    ([0x03#8, 0x4B#8, 0x01#8, 0xA4#8] : Bytes).Perm [0xA4#8, 0x01#8, 0x4B#8, 0x03#8] ∧
    ran (.cksum [0x03#8, 0x4B#8, 0x01#8, 0xA4#8]) = ran (.cksum [0xA4#8, 0x01#8, 0x4B#8, 0x03#8]) ∧
    (waiting (.call (.instr (.cksum [0xA4#8, 0x01#8, 0x4B#8, 0x03#8])))).requests = .call (.instr (.cksum [0xA4#8,
      0x01#8, 0x4B#8, 0x03#8])) :: [] ∧
    stepped (waiting (.call (.instr (.cksum [0xA4#8, 0x01#8, 0x4B#8, 0x03#8])))) = summed 0xED#8 := by
  and_intros <;> decide

theorem test_witness_EncodeProducesFrame :
    ConfigLegal State.reset.cfg ∧
    ([0x01#8, 0x02#8, 0x03#8, 0x04#8, 0x05#8, 0x06#8, 0x07#8, 0x08#8, 0x09#8] : Bytes).length ≤ 9 ∧
    ran (.encode 255 [0x01#8, 0x02#8, 0x03#8, 0x04#8, 0x05#8, 0x06#8, 0x07#8, 0x08#8, 0x09#8]) = framed (frameBytes
      0xA4#8 0xFF#8 [0x01#8, 0x02#8, 0x03#8, 0x04#8, 0x05#8, 0x06#8, 0x07#8, 0x08#8, 0x09#8]) ∧
    ([] : Bytes).length ≤ 9 ∧ ran (.encode 0 []) = framed (frameBytes 0xA4#8 0x00#8 []) :=
  ⟨test_reset_legal, by and_intros <;> decide⟩

theorem test_witness_EncodeRejectsLengthThenType :
    ConfigLegal State.reset.cfg ∧
    9 < ([0x01#8, 0x02#8, 0x03#8, 0x04#8, 0x05#8, 0x06#8, 0x07#8, 0x08#8, 0x09#8, 0x0A#8] : Bytes).length ∧ ran
      (.encode 256 [0x01#8, 0x02#8, 0x03#8, 0x04#8, 0x05#8, 0x06#8, 0x07#8, 0x08#8, 0x09#8, 0x0A#8]) = err .malformed
        (.lenRange 10) ∧
    ([0x01#8, 0x02#8, 0x03#8, 0x04#8, 0x05#8, 0x06#8, 0x07#8, 0x08#8, 0x09#8] : Bytes).length ≤ 9 ∧ ((256 : Int) < 0
      ∨ 255 < (256 : Int)) ∧ ran (.encode 256 [0x01#8, 0x02#8, 0x03#8, 0x04#8, 0x05#8, 0x06#8, 0x07#8, 0x08#8,
        0x09#8]) = err .malformed .typeRange ∧
    ((-1 : Int) < 0 ∨ 255 < (-1 : Int)) ∧ ran (.encode (-1) []) = err .malformed .typeRange ∧
    (0 : Int) ≤ 255 ∧ (255 : Int) ≤ 255 ∧ ran (.encode 255 [0x01#8, 0x02#8, 0x03#8, 0x04#8, 0x05#8, 0x06#8, 0x07#8,
      0x08#8, 0x09#8]) = framed (frameBytes 0xA4#8 0xFF#8 [0x01#8, 0x02#8, 0x03#8, 0x04#8, 0x05#8, 0x06#8, 0x07#8,
        0x08#8, 0x09#8]) :=
  ⟨test_reset_legal, by and_intros <;> decide⟩

theorem test_witness_EncodeTotalInjectiveValid :
    ConfigLegal State.reset.cfg ∧
    (ran (.encode 0x4B [0x03#8])).bind (·.frame) = some [0xA4#8, 0x01#8, 0x4B#8, 0x03#8, 0xED#8] ∧
    (0 : Int) ≤ 0x4B ∧ (0x4B : Int) ≤ 255 ∧ ([0x03#8] : Bytes).length ≤ 9 :=
  ⟨test_reset_legal, by and_intros <;> decide⟩

theorem test_witness_DecodeFirstFourChecks :
    ConfigLegal State.reset.cfg ∧
    ([0xA4#8, 0x00#8, 0x4A#8, 0xEE#8] : Bytes).length < 5 ∧ ran (.decode [0xA4#8, 0x00#8, 0x4A#8, 0xEE#8]) = err
      .incomplete .header ∧
    2 ≤ ([0x00#8, 0x00#8] : Bytes).length ∧ (0xA5#8 : Byte) ≠ State.reset.cfg.sync ∧ ran (.decode [0xA5#8, 0x0A#8,
      0x00#8, 0x00#8, 0x00#8]) = err .corrupted .syncMismatch ∧
    9 < (0x0A#8 : Byte).toNat ∧ ran (.decode [0xA4#8, 0x0A#8, 0x00#8, 0x00#8, 0x00#8]) = err .malformed (.lenRange
      10) ∧
    (0x09#8 : Byte).toNat ≤ 9 ∧ ([0x01#8, 0x02#8, 0x03#8, 0x04#8, 0x05#8, 0x06#8, 0x07#8, 0x08#8, 0x09#8] :
      Bytes).length < (0x09#8 : Byte).toNat + 1 ∧ ran (.decode ([0xA4#8, 0x09#8, 0x4E#8] ++ [0x01#8, 0x02#8, 0x03#8,
        0x04#8, 0x05#8, 0x06#8, 0x07#8, 0x08#8, 0x09#8])) = err .incomplete (.body 13) :=
  ⟨test_reset_legal, by and_intros <;> decide⟩

theorem test_witness_DecodeChecksumThenSuccess :
    ConfigLegal State.reset.cfg ∧
    ([0x01#8, 0x02#8, 0x03#8, 0x04#8, 0x05#8, 0x06#8, 0x07#8, 0x08#8, 0x09#8] : Bytes).length ≤ 9 ∧ 1 ≤ ([0x01#8,
      0x02#8, 0x03#8, 0x04#8, 0x05#8, 0x06#8, 0x07#8, 0x08#8, 0x09#8] : Bytes).length + ([] : Bytes).length ∧
    (0xE3#8 : Byte) ≠ 0xA4#8 ^^^ 0x09#8 ^^^ 0x4E#8 ^^^ ([0x01#8, 0x02#8, 0x03#8, 0x04#8, 0x05#8, 0x06#8, 0x07#8,
      0x08#8, 0x09#8] : Bytes).foldr (· ^^^ ·) 0#8 ∧ ran (.decode ([0xA4#8, 0x09#8, 0x4E#8] ++ [0x01#8, 0x02#8,
        0x03#8, 0x04#8, 0x05#8, 0x06#8, 0x07#8, 0x08#8, 0x09#8] ++ [0xE3#8])) = err .corrupted .checksumMismatch ∧
    (0xE2#8 : Byte) = 0xA4#8 ^^^ 0x09#8 ^^^ 0x4E#8 ^^^ ([0x01#8, 0x02#8, 0x03#8, 0x04#8, 0x05#8, 0x06#8, 0x07#8,
      0x08#8, 0x09#8] : Bytes).foldr (· ^^^ ·) 0#8 ∧ ran (.decode ([0xA4#8, 0x09#8, 0x4E#8] ++ [0x01#8, 0x02#8,
        0x03#8, 0x04#8, 0x05#8, 0x06#8, 0x07#8, 0x08#8, 0x09#8] ++ [0xE2#8])) = message 0x4E#8 [0x01#8, 0x02#8,
          0x03#8, 0x04#8, 0x05#8, 0x06#8, 0x07#8, 0x08#8, 0x09#8] 13 ∧
    1 ≤ ([] : Bytes).length + ([0x00#8] : Bytes).length ∧ ran (.decode [0xA4#8, 0x00#8, 0x4A#8, 0xEE#8, 0x00#8]) =
      message 0x4A#8 [] 4 :=
  ⟨test_reset_legal, by and_intros <;> decide⟩

theorem test_witness_DecodePartitionsBuffers :
    ConfigLegal State.reset.cfg ∧
    ran (.decode [0xA4#8, 0x01#8, 0x4B#8, 0x03#8, 0xED#8]) = message 0x4B#8 [0x03#8] 5 :=
  ⟨test_reset_legal, by decide⟩

theorem test_witness_EncodeDecodeRoundTrip :
    ConfigLegal State.reset.cfg ∧
    ([0x01#8, 0x02#8, 0x03#8, 0x04#8, 0x05#8, 0x06#8, 0x07#8, 0x08#8, 0x09#8] : Bytes).length ≤ 9 ∧ 1 ≤ ([0x01#8,
      0x02#8, 0x03#8, 0x04#8, 0x05#8, 0x06#8, 0x07#8, 0x08#8, 0x09#8] : Bytes).length ∧ ran (.decode (frameBytes
        0xA4#8 0xFF#8 [0x01#8, 0x02#8, 0x03#8, 0x04#8, 0x05#8, 0x06#8, 0x07#8, 0x08#8, 0x09#8])) = message 0xFF#8
          [0x01#8, 0x02#8, 0x03#8, 0x04#8, 0x05#8, 0x06#8, 0x07#8, 0x08#8, 0x09#8] 13 ∧
    ([0x00#8] : Bytes) ≠ [] ∧ ran (.decode (frameBytes 0xA4#8 0x00#8 [] ++ [0x00#8])) = message 0x00#8 [] 4 ∧
    ran (.decode (frameBytes 0xA4#8 0x00#8 [])) = err .incomplete .header :=
  ⟨test_reset_legal, by and_intros <;> decide⟩

theorem test_witness_DecodedBytesReencode :
    ConfigLegal State.reset.cfg ∧
    ran (.decode [0xA4#8, 0x01#8, 0x4B#8, 0x03#8, 0xED#8]) = message 0x4B#8 [0x03#8] 5 ∧
    ran (.encode 0x4B [0x03#8]) = framed [0xA4#8, 0x01#8, 0x4B#8, 0x03#8, 0xED#8] :=
  ⟨test_reset_legal, by and_intros <;> decide⟩

theorem test_witness_SingleBitFlipOutcomes :
    ConfigLegal State.reset.cfg ∧
    ([0xEF#8] : Bytes).length ≤ 9 ∧ 0 < 8 ∧ (frameBytes 0xA4#8 0x4B#8 [0xEF#8])[1]? = some 0x01#8 ∧
    ran (.decode ((frameBytes 0xA4#8 0x4B#8 [0xEF#8]).set 1 (0x01#8 ^^^ BitVec.twoPow 8 0))) = message 0x4B#8 [] 4 ∧
    (frameBytes 0xA4#8 0x4B#8 [0x03#8])[1]? = some 0x01#8 ∧ ran (.decode ((frameBytes 0xA4#8 0x4B#8 [0x03#8]).set 1
      (0x01#8 ^^^ BitVec.twoPow 8 3))) = err .incomplete (.body 13) ∧
    ran (.decode ((frameBytes 0xA4#8 0x4B#8 [0x03#8]).set 1 (0x01#8 ^^^ BitVec.twoPow 8 7))) = err .malformed
      (.lenRange 129) ∧
    (frameBytes 0xA4#8 0x4B#8 [0x03#8])[0]? = some 0xA4#8 ∧ ran (.decode ((frameBytes 0xA4#8 0x4B#8 [0x03#8]).set 0
      (0xA4#8 ^^^ BitVec.twoPow 8 7))) = err .corrupted .syncMismatch ∧
    (frameBytes 0xA4#8 0x4B#8 [0x03#8])[4]? = some 0xED#8 ∧ ran (.decode ((frameBytes 0xA4#8 0x4B#8 [0x03#8]).set 4
      (0xED#8 ^^^ BitVec.twoPow 8 7))) = err .corrupted .checksumMismatch :=
  ⟨test_reset_legal, by and_intros <;> decide⟩

theorem test_witness_ChecksumDetectsExactlyOddPatterns :
    ConfigLegal State.reset.cfg ∧
    1 ≤ ([0x03#8, 0x00#8] : Bytes).length ∧ ([0x03#8, 0x00#8] : Bytes).length ≤ 9 ∧ ([0x02#8, 0x01#8] : Bytes).length
      = ([0x03#8, 0x00#8] : Bytes).length ∧
    ran (.decode [0xA4#8, 0x02#8, 0x4B#8, 0x02#8, 0x01#8, 0xEE#8]) = message 0x4B#8 [0x02#8, 0x01#8] 6 ∧
    ran (.decode [0xA4#8, 0x02#8, 0x4B#8, 0x02#8, 0x00#8, 0xEE#8]) = err .corrupted .checksumMismatch :=
  ⟨test_reset_legal, by and_intros <;> decide⟩

theorem test_witness_StreamOfTwoFrames :
    ConfigLegal State.reset.cfg ∧
    ([0x01#8, 0x02#8, 0x03#8, 0x04#8, 0x05#8, 0x06#8, 0x07#8, 0x08#8, 0x09#8] : Bytes).length ≤ 9 ∧ 5 ≤ (frameBytes
      0xA4#8 0x4B#8 [0x01#8, 0x02#8, 0x03#8, 0x04#8, 0x05#8, 0x06#8, 0x07#8, 0x08#8, 0x09#8] ++ []).length ∧ ran
        (.decode (frameBytes 0xA4#8 0x4A#8 [] ++ frameBytes 0xA4#8 0x4B#8 [0x01#8, 0x02#8, 0x03#8, 0x04#8, 0x05#8,
          0x06#8, 0x07#8, 0x08#8, 0x09#8])) = message 0x4A#8 [] 4 ∧
    (frameBytes 0xA4#8 0x4A#8 [] ++ []).length < 5 ∧ ran (.decode ((frameBytes 0xA4#8 0x4B#8 [0x03#8] ++ frameBytes
      0xA4#8 0x4A#8 []).drop 5)) = err .incomplete .header :=
  ⟨test_reset_legal, by and_intros <;> decide⟩

theorem test_witness_FirstThirteenBytesDecide :
    ConfigLegal State.reset.cfg ∧
    ran (.decode ([0xA4#8, 0x01#8, 0x4B#8, 0x03#8, 0xED#8] ++ [0x01#8, 0x02#8, 0x03#8, 0x04#8, 0x05#8, 0x06#8,
      0x07#8, 0x08#8, 0x09#8])) = message 0x4B#8 [0x03#8] 5 :=
  ⟨test_reset_legal, by decide⟩

theorem test_witness_ThirteenBytesNeverIncomplete :
    ConfigLegal State.reset.cfg ∧
    13 ≤ (frameBytes 0xA4#8 0x4E#8 [0x01#8, 0x02#8, 0x03#8, 0x04#8, 0x05#8, 0x06#8, 0x07#8, 0x08#8, 0x09#8]).length ∧
      ran (.decode (frameBytes 0xA4#8 0x4E#8 [0x01#8, 0x02#8, 0x03#8, 0x04#8, 0x05#8, 0x06#8, 0x07#8, 0x08#8,
        0x09#8])) = message 0x4E#8 [0x01#8, 0x02#8, 0x03#8, 0x04#8, 0x05#8, 0x06#8, 0x07#8, 0x08#8, 0x09#8] 13 :=
  ⟨test_reset_legal, by decide⟩

theorem test_witness_ZeroPayloadFrameNeedsAFifthByte :
    ConfigLegal State.reset.cfg ∧
    ran (.resolve (frameBytes 0xA4#8 0x4A#8 [])) = err .incomplete .header :=
  ⟨test_reset_legal, by decide⟩

theorem test_witness_LookupAnswersTheRegistry :
    RegistryLegal State.reset.cfg.registry ∧
    (⟨0x6F#8, 19#5⟩ : RegEntry) ∈ State.reset.cfg.registry ∧
    ∀ v : BitVec 5, (⟨0x00#8, v⟩ : RegEntry) ∉ State.reset.cfg.registry :=
  ⟨test_reset_legal.registry, by decide, by decide⟩

theorem test_witness_ResolveIsDecodeThenLookup :
    ConfigLegal State.reset.cfg ∧
    (ran (.decode [0xA4#8, 0x01#8, 0x4B#8, 0x03#8, 0xEC#8])).bind (·.status) ≠ some .ok ∧ ran (.resolve [0xA4#8,
      0x01#8, 0x4B#8, 0x03#8, 0xEC#8]) = err .corrupted .checksumMismatch ∧
    ran (.decode [0xA4#8, 0x01#8, 0x4B#8, 0x03#8, 0xED#8]) = message 0x4B#8 [0x03#8] 5 ∧ (⟨0x4B#8, 10#5⟩ : RegEntry)
      ∈ State.reset.cfg.registry ∧
    (∀ v : BitVec 5, (⟨0x99#8, v⟩ : RegEntry) ∉ State.reset.cfg.registry) ∧
    (ran (.resolve [0xA4#8, 0x02#8, 0x99#8, 0x01#8, 0x02#8, 0x3C#8])).bind (·.status) = some .unknownType ∧
    ([0xA4#8, 0x00#8, 0x4A#8, 0xEE#8] : Bytes).length ≤ 4 ∧ ran (.resolve [0xA4#8, 0x00#8, 0x4A#8, 0xEE#8]) = err
      .incomplete .header :=
  ⟨test_reset_legal, by and_intros <;> decide⟩

theorem test_witness_ResolveMakesNoLengthCheck :
    ConfigLegal State.reset.cfg ∧
    (⟨0x4A#8, 9#5⟩ : RegEntry) ∈ State.reset.cfg.registry ∧ ([0x01#8, 0x02#8, 0x03#8, 0x04#8, 0x05#8, 0x06#8, 0x07#8,
      0x08#8, 0x09#8] : Bytes).length ≤ 9 ∧ 1 ≤ ([0x01#8, 0x02#8, 0x03#8, 0x04#8, 0x05#8, 0x06#8, 0x07#8, 0x08#8,
        0x09#8] : Bytes).length + ([] : Bytes).length ∧ ran (.resolve (frameBytes 0xA4#8 0x4A#8 [0x01#8, 0x02#8,
          0x03#8, 0x04#8, 0x05#8, 0x06#8, 0x07#8, 0x08#8, 0x09#8])) = resolved 9#5 0x4A#8 [0x01#8, 0x02#8, 0x03#8,
            0x04#8, 0x05#8, 0x06#8, 0x07#8, 0x08#8, 0x09#8] 13 ∧
    1 ≤ ([] : Bytes).length + ([0x00#8] : Bytes).length ∧ ran (.resolve (frameBytes 0xA4#8 0x4A#8 [] ++ [0x00#8])) =
      resolved 9#5 0x4A#8 [] 4 :=
  ⟨test_reset_legal, by and_intros <;> decide⟩

theorem test_witness_DefaultRegistryAnswers :
    State.reset.cfg.registry = defaultRegistry := rfl

theorem test_witness_ResetStateAndInvariant :
    ConfigAdmitted extended := test_extended_admitted

theorem test_witness_ChbuildLaysOutChannelFirst :
    ConfigLegal State.reset.cfg ∧
    ([0x01#8, 0x02#8, 0x03#8, 0x04#8, 0x05#8, 0x06#8, 0x07#8, 0x08#8] : Bytes).length ≤ 8 ∧ ran (.chbuild 300 255
      [0x01#8, 0x02#8, 0x03#8, 0x04#8, 0x05#8, 0x06#8, 0x07#8, 0x08#8]) = built 300 (0xFF#8 :: [0x01#8, 0x02#8,
        0x03#8, 0x04#8, 0x05#8, 0x06#8, 0x07#8, 0x08#8]) ∧
    ((256 : Int) < 0 ∨ 255 < (256 : Int)) ∧ ran (.chbuild 0 256 [0x01#8, 0x02#8, 0x03#8, 0x04#8, 0x05#8, 0x06#8,
      0x07#8, 0x08#8, 0x09#8]) = err .malformed (.fieldRange channelField) ∧
    ran (.chbuild 0 (-1) []) = err .malformed (.fieldRange channelField) ∧
    8 < ([0x01#8, 0x02#8, 0x03#8, 0x04#8, 0x05#8, 0x06#8, 0x07#8, 0x08#8, 0x09#8] : Bytes).length ∧ ran (.chbuild 0 0
      [0x01#8, 0x02#8, 0x03#8, 0x04#8, 0x05#8, 0x06#8, 0x07#8, 0x08#8, 0x09#8]) = err .malformed (.lenRange 10) :=
  ⟨test_reset_legal, by and_intros <;> decide⟩

theorem test_witness_ChsetReplacesChannel :
    ([] : Bytes).length = 0 ∧ ran (.chset ([] ++ 0x00#8 :: [0x01#8]) 255) = pay [0xFF#8, 0x01#8] ∧
    ([] : Bytes).length ≤ 0 ∧ failed (.chset [] 255) = some (.fieldAbsent channelField) ∧
    ((256 : Int) < 0 ∨ 255 < (256 : Int)) ∧ ran (.chset [] 256) = err .malformed (.fieldRange channelField) ∧
    ((-1 : Int) < 0 ∨ 255 < (-1 : Int)) ∧ ran (.chset [] (-1)) = err .malformed (.fieldRange channelField) := by
  and_intros <;> decide

theorem test_witness_ChannelLayerLaws :
    ConfigLegal State.reset.cfg ∧
    ([0x01#8, 0x02#8, 0x03#8, 0x04#8, 0x05#8, 0x06#8, 0x07#8, 0x08#8] : Bytes).length ≤ 8 ∧
    ([0x01#8, 0x02#8, 0x03#8, 0x04#8, 0x05#8, 0x06#8, 0x07#8, 0x08#8, 0x09#8] : Bytes) ≠ [] ∧ ([0x01#8, 0x02#8,
      0x03#8, 0x04#8, 0x05#8, 0x06#8, 0x07#8, 0x08#8, 0x09#8] : Bytes).length ≤ 9 ∧
    ([0x00#8] : Bytes) ≠ [] ∧ ran (.chset [0x00#8] 255) = pay [0xFF#8] :=
  ⟨test_reset_legal, by and_intros <;> decide⟩

theorem test_witness_ChannelScopedBuildIsChbuild :
    ConfigLegal State.reset.cfg ∧
    (∃ r ∈ defaultVtab, r.id = variantId .channelPeriod ∧ r.scope = .channelScoped) ∧
    ran (.channelPeriod (.build 255 65535)) = pay [0xFF#8, 0xFF#8, 0xFF#8] ∧
    ran (.channelPeriod (.view [0xFF#8, 0xFF#8, 0xFF#8])) = vals [(fieldIn .channelPeriod .channel, .num 255),
      (fieldIn .channelPeriod .period, .num 65535)] :=
  ⟨test_reset_legal, by and_intros <;> decide⟩

theorem test_witness_SetThenGetAndViewOfBuild :
    ConfigLegal State.reset.cfg ∧
    rowOp (.instr (.capabilities (.setAdvOptions2 [0x08#8, 0x03#8, 0x00#8, 0xBA#8] 255))) = some (.capabilities, .set
      .advOptions2 [0x08#8, 0x03#8, 0x00#8, 0xBA#8] (.num 255)) ∧
    ran (.capabilities (.setAdvOptions2 [0x08#8, 0x03#8, 0x00#8, 0xBA#8] 255)) = pay [0x08#8, 0x03#8, 0x00#8, 0xBA#8,
      0xFF#8] ∧
    rowOp (.instr (.capabilities (.getAdvOptions2 [0x08#8, 0x03#8, 0x00#8, 0xBA#8, 0xFF#8]))) = some (.capabilities,
      .get .advOptions2 [0x08#8, 0x03#8, 0x00#8, 0xBA#8, 0xFF#8]) ∧
    ran (.capabilities (.getAdvOptions2 [0x08#8, 0x03#8, 0x00#8, 0xBA#8, 0xFF#8])) = vals [(fieldIn .capabilities
      .advOptions2, .num 255)] ∧
    ran (.capabilities (.getAdvOptions [0x08#8, 0x03#8, 0x00#8, 0xBA#8, 0xFF#8])) = ran (.capabilities
      (.getAdvOptions [0x08#8, 0x03#8, 0x00#8, 0xBA#8])) ∧
    ran (.capabilities (.setMaxChannels [0x08#8, 0x03#8, 0x00#8, 0xBA#8] 255)) = pay [0xFF#8, 0x03#8, 0x00#8, 0xBA#8]
      ∧ ran (.capabilities (.getAdvOptions2 [0xFF#8, 0x03#8, 0x00#8, 0xBA#8])) = vals [(fieldIn .capabilities
        .advOptions2, .num 0)] ∧
    ran (.channelOpen (.setChannel [0x03#8] 255)) = pay [0xFF#8] ∧ ran (.channelOpen (.getChannel [0xFF#8])) = vals
      [(fieldIn .channelOpen .channel, .num 255)] ∧
    performed defaultConfig (viewInstr .capabilities [0x08#8, 0x03#8, 0x00#8, 0xBA#8]) = vals (viewOf defaultConfig
      .capabilities [.num 8, .num 3, .num 0, .num 0xBA]) ∧
    performed defaultConfig (viewInstr .capabilities [0x08#8, 0x03#8, 0x00#8, 0xBA#8, 0x06#8]) = vals (viewOf
      defaultConfig .capabilities [.num 8, .num 3, .num 0, .num 0xBA, .num 6]) ∧
    performed defaultConfig (viewInstr .systemReset [0x5A#8]) = vals (viewOf defaultConfig .systemReset [.num 0x5A])
      ∧ viewOf defaultConfig .systemReset [.num 0x5A] = [] ∧
    ∃ r, rowOf defaultConfig .capabilities = some r ∧ r.length = 4 ∧ rowBytes r.fields = 5 :=
  ⟨test_reset_legal, by and_intros <;> decide⟩

theorem test_witness_CapabilitiesAppendOnly :
    ConfigLegal State.reset.cfg ∧
    ran (.capabilities (.setAdvOptions [0x08#8, 0x03#8, 0x00#8, 0xBA#8] 255)) = pay [0x08#8, 0x03#8, 0x00#8, 0xFF#8] ∧
    ran (.capabilities (.setAdvOptions2 [0x08#8, 0x03#8, 0x00#8, 0xBA#8] 255)) = pay [0x08#8, 0x03#8, 0x00#8, 0xBA#8,
      0xFF#8] ∧
    ran (.capabilities (.setAdvOptions2 [0x08#8, 0x03#8, 0x00#8, 0xBA#8, 0x06#8, 0x01#8] 255)) = pay [0x08#8, 0x03#8,
      0x00#8, 0xBA#8, 0xFF#8, 0x01#8] :=
  ⟨test_reset_legal, by and_intros <;> decide⟩

theorem test_witness_EncodeVariantThenResolveView :
    ConfigLegal State.reset.cfg ∧
    buildVariant (.instr (.channelPeriod (.build 255 65535))) = some .channelPeriod ∧
    buildVariant (.instr (.channelPeriod (.view []))) = none ∧
    (Operation.instr (.channelPeriod (.build 255 65535))).wf defaultConfig = true ∧
    performed defaultConfig (.instr (.channelPeriod (.build 255 65535))) = pay [0xFF#8, 0xFF#8, 0xFF#8] ∧
    (⟨0x43#8, variantId .channelPeriod⟩ : RegEntry) ∈ State.reset.cfg.registry ∧
    portsOf (encodeVariant (.instr (.channelPeriod (.build 255 65535))) rfl State.reset) = framed (frameBytes 0xA4#8
      0x43#8 [0xFF#8, 0xFF#8, 0xFF#8]) ∧
    portsOf (resolveView (frameBytes 0xA4#8 0x43#8 [0xFF#8, 0xFF#8, 0xFF#8]) State.reset) = vals [(fieldIn
      .channelPeriod .channel, .num 255), (fieldIn .channelPeriod .period, .num 65535)] :=
  ⟨test_reset_legal, by and_intros <;> decide⟩

theorem test_witness_StepRunsDecodedInstruction :
    (waiting (.word [0xA4#8, 0x01#8, 0x4B#8, 0x03#8, 0xED#8])).requests = .word [0xA4#8, 0x01#8, 0x4B#8, 0x03#8,
      0xED#8] :: [] ∧
    decode (waiting (.word [0xA4#8, 0x01#8, 0x4B#8, 0x03#8, 0xED#8])).cfg (.word [0xA4#8, 0x01#8, 0x4B#8, 0x03#8,
      0xED#8]) = .ok (.instr (.channelOpen (.build 3))) ∧
    decodeWord (waiting (.word [0xA4#8, 0x01#8, 0x4B#8, 0x03#8, 0xED#8])).cfg [0xA4#8, 0x01#8, 0x4B#8, 0x03#8,
      0xED#8] = .ok (.instr (.channelOpen (.build 3))) ∧
    decodeWord (waiting (.word [])).cfg [] = .error .truncated ∧
    decode (waiting (.call (.added 9 (.view [])))).cfg (.call (.added 9 (.view []))) = .ok (.added 9 (.view [])) ∧
    stepped (waiting (.word [0xA4#8, 0x01#8, 0x4B#8, 0x03#8, 0xED#8])) = pay [0x03#8] ∧
    decode (waiting (.select 3#2 {})).cfg (.select 3#2 {}) = .error .undefinedSelector ∧
    State.reset.requests = [] ∧ stepped State.reset = some {} ∧
    (State.reset.res.status = none) ∧ (showOutcome State.reset).res = { status := some .ok } ∧
    (deliver State.reset { status := some .malformed }).res.status = some .malformed ∧ showOutcome (deliver
      State.reset { status := some .malformed }) = deliver State.reset { status := some .malformed } := by
  and_intros <;> decide

theorem test_witness_SelectorNamesPublicOperations :
    stepped (waiting (.select 0#2 { type := 0x4B, txpay := [0x03#8], rxbuf := [0xA4#8, 0x01#8, 0x4B#8, 0x03#8,
      0xED#8] })) = framed [0xA4#8, 0x01#8, 0x4B#8, 0x03#8, 0xED#8] ∧
    stepped (waiting (.select 1#2 { type := 0x4B, txpay := [0x03#8], rxbuf := [0xA4#8, 0x01#8, 0x4B#8, 0x03#8,
      0xED#8] })) = message 0x4B#8 [0x03#8] 5 ∧
    stepped (waiting (.select 2#2 { type := 0x4B, txpay := [0x03#8], rxbuf := [0xA4#8, 0x01#8, 0x4B#8, 0x03#8,
      0xED#8] })) = resolved 10#5 0x4B#8 [0x03#8] 5 ∧
    stepped (waiting (.select 3#2 { type := 0x4B, txpay := [0x03#8], rxbuf := [0xA4#8, 0x01#8, 0x4B#8, 0x03#8,
      0xED#8] })) = none := by
  and_intros <;> decide

/-- For the first clause of SetThenGetAndViewOfBuild: an added variant's fields, the values at the ends of a half-word's
range, and a payload that ends just before a field. -/
theorem test_witness_layout :
    ConfigLegal extended ∧ ∃ r, rowOf extended (.added 0) = some r ∧
      rowOp (.added 0 (.build [.num 0, .num 65535, .num 255])) = some (.added 0, .build [.num 0, .num 65535, .num 255]) ∧
      r.fields.length = 3 ∧ (∀ z ∈ r.fields.zip [.num 0, .num 65535, .num 255], ¬ OutOfRange z.1.kind z.2) ∧
      ⟨.added 0, 1, .half, false⟩ ∈ r.fields ∧ OutOfRange .half (.num 65536) ∧
      NotReached ⟨.added 0, 1, .half, false⟩ [0x00#8, 0x00#8] ∧ (1 + kindWidth .half ≤ [0x00#8, 0x00#8, 0x00#8].length) := by
  refine ⟨test_extended_admitted.legal, _, rfl, rfl, rfl, ?_, by decide, ?_, ⟨by decide, nofun⟩, by decide⟩
  · simp [OutOfRange, channelSpec]
  · simp [OutOfRange]

/-- For the statements over every operation: one of an added variant, at the boundary values of its fields. -/
theorem test_witness_added :
    ConfigLegal (State.resetWith extended).cfg ∧
    (Operation.added 0 (.build [.num 255, .num 65535, .num 255])).complete extended = true ∧ rowOp (.added 0 (.build
      [.num 255, .num 65535, .num 255])) = some (.added 0, .build [.num 255, .num 65535, .num 255]) ∧
    decode extended (encodeOperation extended (.added 0 (.build [.num 255, .num 65535, .num 255]))) = .ok (.added 0
      (.build [.num 255, .num 65535, .num 255])) :=
  ⟨test_extended_admitted.legal, by and_intros <;> decide⟩

theorem test_witness_DecodeOfEncodeIsIdentity :
    ConfigLegal State.reset.cfg ∧
    (Instr.channelID (.build 255 65535 0 255)).wf = true ∧
    decode defaultConfig (encode defaultConfig (.channelID (.build 255 65535 0 255))) = .ok (.instr (.channelID
      (.build 255 65535 0 255))) :=
  ⟨test_reset_legal, by and_intros <;> decide⟩

theorem test_witness_StepKeepsInvariant :
    Inv (waiting (.select 1#2 {})) ∧
    stepped (waiting (.select 1#2 {})) = err .incomplete .header :=
  ⟨⟨⟨test_reset_legal, fun _ h => h⟩, by decide, .empty⟩, by decide⟩

theorem test_witness_ConfigurationNeverWritten :
    stepped (waiting (.word [0xA4#8, 0x01#8, 0x4B#8, 0x03#8, 0xED#8])) = pay [0x03#8] := by decide

theorem test_witness_TransactionIsFunctionOfOperands :
    State.reset.cfg = (waiting (.select 3#2 {})).cfg ∧
    ran (.cksum []) = some { cksum := some 0#8 } ∧
    failed (.chview []) = some (.fieldAbsent channelField) := by
  and_intros <;> decide

theorem test_witness_ErrorWritesStatusAndInfoOnly :
    ConfigLegal State.reset.cfg ∧
    ran (.encode 256 []) = err .malformed .typeRange ∧
    ran (.encode 0 []) = framed [0xA4#8, 0x00#8, 0x00#8, 0xA4#8] ∧
    (ran (.cksum [])).map (·.status) = some none ∧
    (waiting (.call (.instr (.cksum [])))).requests ≠ [] ∧
    (stepped (waiting (.call (.instr (.cksum []))))).map (·.status) = some (some .ok) ∧
    stepped (waiting (.select 0#2 { type := 256 })) = err .malformed .typeRange :=
  ⟨test_reset_legal, by and_intros <;> decide⟩

theorem test_witness_CausesByOperation :
    ConfigLegal State.reset.cfg ∧
    (Operation.instr (.encode 256 [])).complete defaultConfig = true ∧
    ran (.encode 256 []) = err .malformed .typeRange ∧
    failed (.chview []) = some (.fieldAbsent channelField) :=
  ⟨test_reset_legal, by and_intros <;> decide⟩

theorem test_witness_OnlyFieldAccessFaults :
    ConfigLegal State.reset.cfg ∧
    (Operation.instr (.version (.view []))).complete defaultConfig = true ∧
    failed (.version (.view [])) = absent .version .version :=
  ⟨test_reset_legal, by and_intros <;> decide⟩

end Sys2Proof.Tests
end

/-! PROOF. The family 00_scope.md: a transaction is a function of its operands and of the configuration (R21). -/

namespace Sys2Proof.Proofs.Scope
open Machine

/-- The results of an operation depend on the state through the configuration alone. -/
theorem perform_next_of_cfg_eq {o : Operation} {s t x : State} (hc : s.cfg = t.cfg) (h : perform o s = .next x) :
    perform o t = .next { t with res := x.res } := by
  obtain ⟨f, hf⟩ := perform_finishes o
  rw [hf] at h
  obtain ⟨r, hr, rfl⟩ := finish_next h
  rw [hc] at hr
  rw [hf]
  exact finish_of_results t hr

/-- The fault of an operation depends on the state through the configuration alone. -/
theorem perform_fault_of_cfg_eq {o : Operation} {s t : State} {f : Fault} (hc : s.cfg = t.cfg)
    (h : perform o s = .fault f) : perform o t = .fault f := by
  obtain ⟨g, hg⟩ := perform_finishes o
  rw [hg, finish_fault_iff] at h
  rw [hg, ← hc, finish_fault_iff, h]

/-- No operation writes the configuration (20_memory.md R76). -/
theorem perform_next_cfg {o : Operation} {s x : State} (h : perform o s = .next x) : x.cfg = s.cfg := by
  rw [perform_next h]

/-- Settles O57: the frame is perform_next; purity is the two lemmas on states of one configuration, and a repeated
transaction is purity at the state the first one left, since that has the configuration it began with. -/
theorem transactionIsFunctionOfOperands : Obligations.TransactionIsFunctionOfOperands := by
  intro o s t hc
  refine ⟨fun x hx => ⟨perform_next hx, perform_next_of_cfg_eq hc hx, ?_⟩,
    fun _ => perform_fault_of_cfg_eq hc, fun _ => perform_not_refused⟩
  exact perform_next_of_cfg_eq (perform_next_cfg hx).symm hx

end Sys2Proof.Proofs.Scope

/-! PROOF. The family 10_state.md: reset, the step, and the invariant that every step keeps. -/

namespace Sys2Proof.Proofs.StateInvariant
open Machine Safety

/-! Reset. -/

/-- The configuration of reset is one the spec admits (41_dispatch.md R161, R163). -/
theorem defaultConfig_admitted : ConfigAdmitted defaultConfig where
  extendsDefault _ h := h
  legal :=
    { maxPayload := rfl
      overhead := rfl
      minDecode := rfl
      errTypeRange := rfl
      registry := by constructor <;> decide
      vtab.catalogue := List.prefix_rfl
      vtab.ids := by decide
      vtab.rows := fun r hr => by fin_cases hr <;> constructor <;> decide
      layouts := by decide }

/-- Reset has the invariant, whichever admitted configuration it fixes (41_dispatch.md R163). -/
theorem inv_resetWith {c : Config} (h : ConfigAdmitted c) : Inv (State.resetWith c) where
  config := h
  requests := nofun
  results := .empty

/-- Settles O20: the constants, the registry and the table are those of defaultConfig as written, no request waits and
no port holds a value; the invariant is inv_resetWith. -/
theorem resetStateAndInvariant : Obligations.ResetStateAndInvariant := by
  have hinv : Inv State.reset := inv_resetWith defaultConfig_admitted
  exact ⟨rfl, rfl, rfl, rfl, rfl, rfl, rfl, rfl, rfl, rfl, hinv, fun c hc => ⟨rfl, rfl, rfl, inv_resetWith hc⟩⟩

/-! The step, by what the oldest request decodes to. -/

theorem step_idle {s : State} (hs : s.requests = []) : step s = .next (idle s) := by
  simp only [step, hs]

theorem step_of_decode_ok {s : State} {r : Request} {rest : List Request} {o : Operation}
    (hs : s.requests = r :: rest) (hd : decode s.cfg r = .ok o) :
    step s = conclude (perform o { s with requests := rest }) := by
  simp only [step, hs, hd, transact]

theorem step_of_decode_error {s : State} {r : Request} {rest : List Request} {e : DecodeError}
    (hs : s.requests = r :: rest) (hd : decode s.cfg r = .error e) : step s = .refused (refusalOf e) := by
  simp only [step, hs, hd]

theorem decode_word_of_ok {c : Config} {b : Bytes} {o : Operation} (h : decodeWord c b = .ok o) :
    decode c (.word b) = .ok o := by
  simp only [decode, decodeBytes, h]

/-- Bytes that are no variant's word are RESOLVE of them (30_encoding.md R109). -/
theorem decode_word_of_error {c : Config} {b : Bytes} {e : WordError} (h : decodeWord c b = .error e) :
    decode c (.word b) = .ok (.instr (.resolve b)) := by
  simp only [decode, decodeBytes, h]

/-- The end of a transaction whose operation wrote its outcome adds nothing. -/
theorem conclude_of_status {t : State} {e : Status} (h : t.res.status = some e) : conclude (.next t) = .next t :=
  congrArg _ (showOutcome_of_status t h)

/-- The end of a transaction whose operation wrote no outcome presents OK. -/
theorem conclude_of_no_status {t : State} (h : t.res.status = none) :
    conclude (.next t) = .next { t with res := { t.res with status := some .ok } } := by
  simp only [conclude, showOutcome_eq, h, Option.getD_none]

/-- Settles O51: one clause per thing the oldest request can decode to, and what conclude does. -/
theorem stepRunsDecodedInstruction : Obligations.StepRunsDecodedInstruction := by
  refine ⟨?instruction, ?added, ?word, ?noWord, ?refused, fun _ => step_idle,
    fun _ => ⟨fun _ => conclude_of_status, conclude_of_no_status⟩, fun _ => rfl, fun _ => rfl⟩
  case instruction => exact fun _ _ _ _ hs hd => step_of_decode_ok hs hd
  case added => exact fun _ _ _ _ _ hs hd => step_of_decode_ok hs hd
  case word => exact fun _ _ _ _ hs hw => step_of_decode_ok hs (decode_word_of_ok hw)
  case noWord => exact fun _ _ _ _ hs hw => step_of_decode_ok hs (decode_word_of_error hw)
  case refused =>
    intro s r rest e hs hd
    cases e
    exact step_of_decode_error hs hd

/-! The errors an operation raises are of the class their INFO says (60_exceptions.md R262). -/

/-- A raised error is of the class its INFO belongs to; a fault presents no outcome. -/
def Classed : Stop → Prop
  | .raise k i => k = infoClass i
  | .fault _ => True

theorem getBySpec_classed {f : Field} {d : FieldSpec} {p : Payload} {e : Stop}
    (h : getBySpec f d p = .error e) : Classed e := by
  obtain ⟨-, -, h'⟩ | ⟨-, h'⟩ | ⟨_, _, _, -, -, -, h'⟩ := getBySpec_cases f d p <;> rw [h'] at h <;> cases h
  exact trivial

theorem setBySpec_classed {f : Field} {d : FieldSpec} {p : Payload} {x : FieldVal} {e : Stop}
    (h : setBySpec f d p x = .error e) : Classed e := by
  obtain ⟨-, h'⟩ | ⟨-, -, -, h'⟩ | ⟨-, h'⟩ | ⟨-, _, _, _, -, -, -, h'⟩ := setBySpec_cases f d p x <;>
    rw [h'] at h <;> cases h
  · exact rfl
  · exact trivial

theorem memRead_classed {buf : Bytes} {off n : Nat} {e : Stop} (h : memRead buf off n = .error e) : Classed e := by
  unfold memRead at h
  split at h <;> cases h
  exact trivial

theorem buildRow_classed {c : Config} {v : Variant} {xs : List FieldVal} {e : Stop}
    (h : buildRow c v xs = .error e) : Classed e := by
  unfold buildRow at h
  split at h
  · cases h; exact trivial
  · obtain ⟨_, -, rfl, -⟩ | ⟨_, -, -, rfl⟩ := buildFields_error h
    · exact rfl
    · exact trivial

theorem viewRow_classed {c : Config} {v : Variant} {p : Payload} {e : Stop}
    (h : viewRow c v p = .error e) : Classed e := by
  unfold viewRow at h
  split at h
  · cases h; exact trivial
  · obtain ⟨_, -, rfl, -⟩ := viewFields_error h
    exact trivial

theorem getRow_classed {c : Config} {v : Variant} {n : FieldName} {p : Payload} {e : Stop}
    (h : getRow c v n p = .error e) : Classed e := by
  unfold getRow at h
  split at h
  · cases h; exact trivial
  · exact getBySpec_classed h

theorem setRow_classed {c : Config} {v : Variant} {n : FieldName} {p : Payload} {x : FieldVal} {e : Stop}
    (h : setRow c v n p x = .error e) : Classed e := by
  unfold setRow at h
  split at h
  · cases h; exact trivial
  · exact setBySpec_classed h

theorem encodeFrame_classed {c : Config} (hc : ConfigLegal c) {t : Int} {p : Payload} {e : Stop}
    (h : encodeFrame c t p = .error e) : Classed e := by
  obtain ⟨-, h'⟩ | ⟨-, -, h'⟩ | ⟨_, -, -, h'⟩ := encodeFrame_cases hc t p <;> rw [h'] at h <;> cases h
  · exact rfl
  · exact rfl

theorem decodeFrame_classed {c : Config} (hc : ConfigLegal c) {buf : Bytes} {e : Stop}
    (h : decodeFrame c buf = .error e) : Classed e := by
  obtain ⟨-, h'⟩ | h' | ⟨_, -, -, h'⟩ | ⟨_, -, -, -, h'⟩ | h' | ⟨_, _, _, -, -, -, h'⟩ := decodeFrame_cases hc buf <;>
    rw [h'] at h <;> cases h <;> exact rfl

theorem lookupType_classed {c : Config} {t : Byte} {e : Stop} (h : lookupType c t = .error e) : Classed e := by
  obtain ⟨_, -, h'⟩ | h' := lookupType_cases c t <;> rw [h'] at h <;> cases h
  exact rfl

theorem channelPayload_classed {c : Config} {chan : Int} {extra : Bytes} {e : Stop}
    (h : channelPayload c chan extra = .error e) : Classed e := by
  unfold channelPayload at h
  split at h
  · cases h; exact rfl
  · split at h <;> cases h
    exact rfl

/-! The payloads and frames an operation answers keep to the widths of 10_state.md R32. -/

theorem buildFields_length_le {v : Variant} {ds : List FieldSpec} {xs : List FieldVal} {p : Payload}
    (h : buildFields v ds xs = .ok p) : p.length ≤ rowBytes ds := by
  obtain ⟨-, hr, rfl⟩ := buildFields_inv h
  clear h
  induction ds generalizing xs with
  | nil => simp
  | cons d ds ih =>
    cases xs with
    | nil => simp
    | cons x xs =>
      simp only [List.zip_cons_cons, List.forall_mem_cons] at hr
      have := ih hr.2
      simp only [rowBytes, List.zip_cons_cons, List.flatMap_cons, List.length_append, List.map_cons, List.sum_cons,
        fieldBytes_length hr.1] at this ⊢
      omega

/-- What BUILD answers fits a payload, as its row does (30_encoding.md R106). -/
theorem buildRow_fits {c : Config} (hc : ConfigLegal c) {v : Variant} {xs : List FieldVal} {p : Payload}
    (h : buildRow c v xs = .ok p) : p.length ≤ 9 := by
  unfold buildRow at h
  split at h
  · cases h
  · rename_i r hr
    exact (buildFields_length_le h).trans (rowOf_rowLegal hc hr).fits

/-- What SET answers fits a payload: it has the length of its operand, or the 5 bytes of Capabilities
(45_variants_event_response.md R245). -/
theorem setRow_fits {c : Config} (hc : ConfigLegal c) {v : Variant} {n : FieldName} {p q : Payload} {x : FieldVal}
    (hp : p.length ≤ 9) (h : setRow c v n p x = .ok q) : q.length ≤ 9 := by
  unfold setRow at h
  split at h
  · cases h
  · rename_i d hd
    obtain ⟨r, hr, hmem, -⟩ := specOf_mem hd
    obtain hl | ⟨ho, hoff, hl⟩ := setBySpec_length h
    · omega
    · obtain ⟨-, rfl⟩ := (rowOf_rowLegal hc hr).optional d hmem ho
      rw [hl, hoff]
      decide

/-- CHSET keeps the length of its operand (42_channel_layer.md R183). -/
theorem setChannelOf_length {owner : Owner} {p q : Payload} {chan : Int} (h : setChannelOf owner p chan = .ok q) :
    q.length = p.length := by
  obtain hl | ⟨ho, -, -⟩ := setBySpec_length h
  · exact hl
  · cases ho

/-- What CHBUILD answers is a payload with a channel in it (42_channel_layer.md R181). -/
theorem channelPayload_fits {c : Config} (hc : ConfigLegal c) {chan : Int} {extra : Bytes} {p : Payload}
    (h : channelPayload c chan extra = .ok p) : 1 ≤ p.length ∧ p.length ≤ 9 := by
  rw [channelPayload, legal_maxPayload hc] at h
  split at h
  · cases h
  · split at h <;> cases h
    simp only [List.length_cons]
    omega

/-- What ENCODE answers is the frame of a payload of at most 9 bytes (40_codec_ops.md R134). -/
theorem encodeFrame_eq_frameOf {c : Config} (hc : ConfigLegal c) {t : Int} {p : Payload} {f : Bytes}
    (h : encodeFrame c t p = .ok f) : p.length ≤ 9 ∧ ∃ b : Byte, f = frameOf c.sync b p := by
  obtain ⟨-, h'⟩ | ⟨-, -, h'⟩ | ⟨b, -, hp, h'⟩ := encodeFrame_cases hc t p <;> rw [h'] at h <;> cases h
  exact ⟨hp, b, rfl⟩

/-- What DECODE answers is a payload of at most 9 bytes, out of 4 bytes more (40_codec_ops.md R143). -/
theorem decodeFrame_fits {c : Config} (hc : ConfigLegal c) {buf : Bytes} {d : Decoded}
    (h : decodeFrame c buf = .ok d) : d.payload.length ≤ 9 ∧ d.consumed = d.payload.length + 4 := by
  obtain ⟨-, h'⟩ | h' | ⟨_, -, -, h'⟩ | ⟨_, -, -, -, h'⟩ | h' | ⟨t, p, r, hp, -, -, h'⟩ := decodeFrame_cases hc buf <;>
    rw [h'] at h <;> cases h
  exact ⟨hp, rfl⟩

/-! What a transaction leaves in the result ports, by how its operation ends. -/

theorem resultShape_of_error {c : Config} {s u : State} {e : Stop} (he : Classed e)
    (h : finish s (.error e) = .next u) : ResultShape c (showOutcome u).res := by
  cases e with
  | raise k i => cases h; cases he; exact .error i
  | fault f => cases h

theorem resultShape_payoutOf {c : Config} {s u : State} {e : Except Stop Payload}
    (he : ∀ x, e = .error x → Classed x) (hp : ∀ p, e = .ok p → p.length ≤ 9) (h : payoutOf s e = .next u) :
    ResultShape c (showOutcome u).res := by
  cases e with
  | error x => exact resultShape_of_error (he x rfl) h
  | ok p => cases h; exact .payout p (hp p rfl)

theorem resultShape_fieldsOf {c : Config} {s u : State} {e : Except Stop (List (Field × FieldVal))}
    (he : ∀ x, e = .error x → Classed x) (h : fieldsOf s e = .next u) : ResultShape c (showOutcome u).res := by
  cases e with
  | error x => exact resultShape_of_error (he x rfl) h
  | ok fs => cases h; exact .fields fs

/-- Mapping the value leaves the error as it is. -/
theorem classed_map {α β : Type} {f : α → β} {e : Except Stop α} (he : ∀ x, e = .error x → Classed x) :
    ∀ x, e.map f = .error x → Classed x := by
  cases e with
  | error y => intro x hx; cases hx; exact he y rfl
  | ok a => nofun

/-! What each operation leaves in the result ports. -/

/-- The payload operand of a SET or CHSET fits its port: what these answer is as long as their operand. -/
structure SetPayloadFits (o : Operation) : Prop where
  set : ∀ {v : Variant} {n : FieldName} {p : Payload} {x : FieldVal}, rowOp o = some (v, .set n p x) → p.length ≤ 9
  chset : ∀ {p : Payload} {chan : Int}, o = .instr (.chset p chan) → p.length ≤ 9

theorem resultShape_row {s u : State} (hc : ConfigLegal s.cfg) {v : Variant} {op : FieldOp}
    {m : State → Host.Outcome State Fault Refusal} (hm : RowMeaning v op m)
    (hp : ∀ n p x, op = .set n p x → p.length ≤ 9) (h : m s = .next u) : ResultShape s.cfg (showOutcome u).res := by
  cases hm with
  | build xs _ => exact resultShape_payoutOf (fun _ => buildRow_classed) (fun _ => buildRow_fits hc) h
  | buildDefault _ => exact resultShape_payoutOf (fun _ => buildRow_classed) (fun _ => buildRow_fits hc) h
  | view p _ _ => exact resultShape_fieldsOf (fun _ => viewRow_classed) h
  | viewNothing p _ => cases h; exact .fields []
  | viewCapabilities p _ => exact resultShape_fieldsOf (classed_map fun _ => viewRow_classed) h
  | get n p => exact resultShape_fieldsOf (classed_map fun _ => getRow_classed) h
  | set n p x =>
    exact resultShape_payoutOf (fun _ => setRow_classed) (fun _ => setRow_fits hc (hp n p x rfl)) h
  | setChannel p chan _ =>
    exact resultShape_payoutOf (fun _ => setBySpec_classed)
      (fun _ hq => (setChannelOf_length hq).trans_le (hp _ _ _ rfl)) h

theorem resultShape_encode {s u : State} (hc : ConfigLegal s.cfg) {t : Int} {p : Payload}
    (h : exec (.encode t p) s = .next u) : ResultShape s.cfg (showOutcome u).res := by
  simp only [exec, execEncode] at h
  cases hf : encodeFrame s.cfg t p with
  | error e => rw [hf] at h; exact resultShape_of_error (encodeFrame_classed hc hf) h
  | ok f =>
    obtain ⟨hp, b, rfl⟩ := encodeFrame_eq_frameOf hc hf
    have hl := frameOf_length s.cfg.sync b p
    rw [hf, legal_overhead hc, ← hl] at h
    cases h
    exact .frame _ (by omega) (by omega) (xor8_frameOf _ _ _)

theorem resultShape_decode {s u : State} (hc : ConfigLegal s.cfg) {buf : Bytes}
    (h : exec (.decode buf) s = .next u) : ResultShape s.cfg (showOutcome u).res := by
  simp only [exec, execDecode] at h
  cases hd : decodeFrame s.cfg buf with
  | error e => rw [hd] at h; exact resultShape_of_error (decodeFrame_classed hc hd) h
  | ok d =>
    obtain ⟨hp, hk⟩ := decodeFrame_fits hc hd
    rw [hd] at h
    simp only [hk] at h
    cases h
    exact .decoded _ _ hp

theorem resultShape_resolve {s u : State} (hc : ConfigLegal s.cfg) {buf : Bytes}
    (h : exec (.resolve buf) s = .next u) : ResultShape s.cfg (showOutcome u).res := by
  simp only [exec, execResolve] at h
  cases hd : decodeFrame s.cfg buf with
  | error e => rw [hd] at h; exact resultShape_of_error (decodeFrame_classed hc hd) h
  | ok d =>
    obtain ⟨hp, hk⟩ := decodeFrame_fits hc hd
    rw [hd] at h
    simp only [hk] at h
    obtain ⟨v, hv, hl⟩ | hl := lookupType_cases s.cfg d.type
    · rw [hl] at h; cases h; exact .resolved _ _ _ hv hp
    · rw [hl] at h; exact resultShape_of_error (lookupType_classed hl) h

theorem resultShape_lookup {s u : State} {t : Byte} (h : exec (.lookup t) s = .next u) :
    ResultShape s.cfg (showOutcome u).res := by
  simp only [exec, execLookup] at h
  obtain ⟨v, hv, hl⟩ | hl := lookupType_cases s.cfg t
  · rw [hl] at h; cases h; exact .lookup t v hv
  · rw [hl] at h; exact resultShape_of_error (lookupType_classed hl) h

theorem resultShape_chbuild {s u : State} (hc : ConfigLegal s.cfg) {t chan : Int} {extra : Bytes}
    (h : exec (.chbuild t chan extra) s = .next u) : ResultShape s.cfg (showOutcome u).res := by
  simp only [exec, execChbuild] at h
  cases hp : channelPayload s.cfg chan extra with
  | error e => rw [hp] at h; exact resultShape_of_error (channelPayload_classed hp) h
  | ok p =>
    obtain ⟨h1, h9⟩ := channelPayload_fits hc hp
    rw [hp] at h
    cases h
    exact .message t p h1 h9

theorem resultShape_chview {s u : State} {p : Payload} (h : exec (.chview p) s = .next u) :
    ResultShape s.cfg (showOutcome u).res := by
  refine resultShape_fieldsOf (fun x hx => ?_) h
  split at hx
  · rename_i hg; cases hx; exact getBySpec_classed hg
  · split at hx
    · rename_i hm; cases hx; exact memRead_classed hm
    · cases hx

/-- Every operation leaves, at the end of its transaction, result ports of one of the shapes of 10_state.md R32. -/
theorem resultShape_perform {s u : State} (hc : ConfigLegal s.cfg) {o : Operation} (ho : SetPayloadFits o)
    (h : perform o s = .next u) : ResultShape s.cfg (showOutcome u).res := by
  cases hv : rowOp o with
  | some z =>
    obtain ⟨v, op⟩ := z
    exact resultShape_row hc (perform_row hv) (fun _ _ _ he => ho.set (he ▸ hv)) h
  | none =>
    cases o with
    | added k op => cases hv
    | instr i =>
      cases i with
      | encode t p => exact resultShape_encode hc h
      | decode buf => exact resultShape_decode hc h
      | resolve buf => exact resultShape_resolve hc h
      | cksum b => cases h; exact .cksum (xor8 b)
      | lookup t => exact resultShape_lookup h
      | chbuild t chan extra => exact resultShape_chbuild hc h
      | chview p => exact resultShape_chview h
      | chset p chan =>
        exact resultShape_payoutOf (fun _ => setBySpec_classed)
          (fun _ hq => (setChannelOf_length hq).trans_le (ho.chset rfl)) h
      | _ => cases hv

/-! What a waiting request decodes to. -/

theorem setPayloadFits_of_wf {c : Config} {o : Operation} (hw : o.wf c = true) : SetPayloadFits o where
  set h := setPayload_of_wf h hw
  chset h := by subst h; exact payFits_iff.mp (Bool.and_eq_true_iff.mp hw).1

/-- A BUILD has no payload operand. -/
theorem setPayloadFits_of_build {o : Operation} {v : Variant} {xs : List FieldVal}
    (h : rowOp o = some (v, .build xs)) : SetPayloadFits o where
  set h' := by rw [h] at h'; cases h'
  chset h' := by subst h'; cases h

/-- The word of a variant of the catalogue is a BUILD of it (30_encoding.md R119). -/
theorem rowOp_of_decodeFields {v : Variant} {len : Byte} {q : Bytes} {i : Instr}
    (h : decodeFields v len q = some i) : ∃ xs, rowOp (.instr i) = some (v, .build xs) := by
  revert h
  fun_cases decodeFields v len q
  all_goals
    intro h
    cases h <;> exact ⟨_, rfl⟩

theorem rowOp_of_decodeBuild {c : Config} {v : Variant} {len : Byte} {q : Bytes} {o : Operation}
    (h : decodeBuild c v len q = .ok o) : ∃ xs, rowOp o = some (v, .build xs) := by
  unfold decodeBuild at h
  split at h
  · split at h
    · cases h
    · split at h <;> cases h
      exact ⟨_, rfl⟩
  · split at h
    · cases h
    · rename_i hi; cases h; exact rowOp_of_decodeFields hi

/-- Every word is a BUILD of the variant its type code names. -/
theorem rowOp_of_decodeWord {c : Config} {b : Bytes} {o : Operation} (h : decodeWord c b = .ok o) :
    ∃ v xs, rowOp o = some (v, .build xs) := by
  unfold decodeWord at h
  split at h
  · split at h
    · cases h
    · split at h
      · cases h
      · split at h
        · cases h
        · exact ⟨_, rowOp_of_decodeBuild h⟩
  · cases h

theorem setPayloadFits_of_decodeSelector {op : BitVec 2} {ports : PublicPorts} {i : Instr}
    (h : decodeSelector op ports = .ok i) : SetPayloadFits (.instr i) := by
  unfold decodeSelector at h
  split at h <;> cases h <;> exact ⟨nofun, nofun⟩

/-- A request that fits its ports decodes to an operation whose payload operand, if it writes one, fits. -/
theorem setPayloadFits_of_decode {c : Config} {r : Request} {o : Operation} (hw : requestWf c r = true)
    (h : decode c r = .ok o) : SetPayloadFits o := by
  cases r with
  | select op ports =>
    cases hi : decodeSelector op ports with
    | error e => simp only [decode, hi] at h; cases h
    | ok i => simp only [decode, hi] at h; cases h; exact setPayloadFits_of_decodeSelector hi
  | word b =>
    cases hb : decodeWord c b with
    | error e => rw [decode_word_of_error hb] at h; cases h; exact ⟨nofun, nofun⟩
    | ok o' =>
      rw [decode_word_of_ok hb] at h
      cases h
      obtain ⟨v, xs, hv⟩ := rowOp_of_decodeWord hb
      exact setPayloadFits_of_build hv
  | call o' => cases h; exact setPayloadFits_of_wf hw

/-! The invariant. -/

theorem inv_idle {s : State} (hs : Inv s) : Inv (idle s) where
  config := hs.config
  requests := hs.requests
  results := .empty

/-- Settles O55: the step is the idle one, or it performs the oldest request, which changes neither the configuration
nor the other requests, and leaves result ports of one of the shapes. -/
theorem stepKeepsInvariant : Obligations.StepKeepsInvariant := by
  intro s t hs h
  obtain ⟨-, rfl⟩ | ⟨r, rest, o, u, hq, hd, hu, rfl⟩ := step_next h
  · exact inv_idle hs
  · have hwf : ∀ q ∈ r :: rest, requestWf s.cfg q = true := hq ▸ hs.requests
    rw [List.forall_mem_cons] at hwf
    obtain ⟨hr, hrest⟩ := hwf
    have hshape := resultShape_perform (s := { s with requests := rest }) hs.config.legal
      (setPayloadFits_of_decode hr hd) hu
    have hframe := perform_next hu
    have hcfg : (showOutcome u).cfg = s.cfg := by rw [showOutcome_cfg, hframe]
    have hreq : (showOutcome u).requests = rest := by rw [showOutcome_requests, hframe]
    exact ⟨hcfg ▸ hs.config, by rw [hcfg, hreq]; exact hrest, hcfg ▸ hshape⟩

end Sys2Proof.Proofs.StateInvariant

/-! PROOF. The family 20_memory.md: what DECODE reads of its buffer (R78), and what no step writes (R76). -/

namespace Sys2Proof.Proofs.Memory
open Machine Safety

/-- No check of DECODE reads past the longest frame: the header is 3 bytes, and a LENGTH that the range check lets pass
is at most 9, so that the body and its checksum end by byte 13. -/
theorem decodeFrame_take_thirteen {c : Config} (hc : ConfigLegal c) (buf : Bytes) :
    decodeFrame c (buf.take 13) = decodeFrame c buf := by
  by_cases hb : buf.length < 5
  · rw [List.take_of_length_le (by omega)]
  · obtain ⟨sync, len, t, rest, rfl, hr⟩ := exists_header (buf := buf) (by omega)
    have htake : (sync :: len :: t :: rest).take 13 = sync :: len :: t :: rest.take 10 := rfl
    rw [htake, decodeFrame_cons hc hr, decodeFrame_cons hc (by rw [List.length_take]; omega)]
    by_cases hlen : 9 < len.toNat
    · simp only [if_pos hlen]
    · have hbody : (rest.take 10).length < len.toNat + 1 ↔ rest.length < len.toNat + 1 := by
        rw [List.length_take]; omega
      simp only [hbody, List.take_take, Nat.min_eq_left (show len.toNat + 1 ≤ 10 by omega),
        Nat.min_eq_left (show len.toNat ≤ 10 by omega)]

/-- Settles O13: both operations read the buffer through decodeFrame alone. -/
theorem firstThirteenBytesDecide : Obligations.FirstThirteenBytesDecide := by
  intro s hc buf
  have hframe := decodeFrame_take_thirteen hc buf
  constructor
  · simp only [exec, execDecode, hframe]
  · simp only [exec, execResolve, hframe]

/-- Settles O56: the idle step finds no request and writes the result ports alone, and a transaction, once the oldest
request is taken, is an operation and the presenting of its outcome, which write the result ports alone. -/
theorem configurationNeverWritten : Obligations.ConfigurationNeverWritten := by
  intro s t h
  obtain ⟨hq, rfl⟩ | ⟨r, rest, o, u, hq, -, hu, rfl⟩ := step_next h
  · exact ⟨rfl, by rw [idle_requests, hq, List.tail_nil]⟩
  · rw [showOutcome_cfg, showOutcome_requests, perform_next hu, hq]
    exact ⟨rfl, rfl⟩

end Sys2Proof.Proofs.Memory

/-! PROOF. The family 30_encoding.md: the encoder and the decoder agree (R91, R119), the selector (R116), words written
out, and the pseudo-operations of R117. -/

namespace Sys2Proof.Proofs.Encoding
open Machine Safety StateInvariant

/-! Decoding a frame as the word of a variant. -/

/-- The frame of a variant's type code and a payload is read as BUILD of that variant: SYNC and TYPE are its own, and
LENGTH is legal. -/
theorem decodeWord_frameOf {c : Config} (hc : ConfigLegal c) {v : Variant} {t : Byte} {p : Payload}
    (ht : codeOf c v = some t) (hp : p.length ≤ 9) :
    ∃ rest, decodeWord c (frameOf c.sync t p) = decodeBuild c v (BitVec.ofNat 8 p.length) (p ++ rest) := by
  have hentry : registryEntry c t = some (variantId v) := registryEntry_of_mem hc.registry (mem_of_codeOf ht)
  have hlen : ¬ (BitVec.ofNat 8 p.length).toNat > c.maxPayload.toNat := by
    rw [BitVec.toNat_ofNat, legal_maxPayload hc]; omega
  rw [frameOf_cons, decodeWord, if_neg (not_not.mpr rfl), if_neg hlen, hentry]
  exact ⟨_, congrArg (decodeBuild c · _ _) (variantOfId_variantId v)⟩

/-- An operation is decoded from what presents it when the payload of its frame, whatever follows, is read as it: where
no frame presents it, it is named directly. -/
theorem decode_encodeBuild {c : Config} (hc : ConfigLegal c) {o : Operation} {w : Option (Variant × Payload)}
    (hw : ∀ v p, w = some (v, p) →
      p.length ≤ 9 ∧ ∀ rest, decodeBuild c v (BitVec.ofNat 8 p.length) (p ++ rest) = .ok o) :
    decode c (encodeBuild c o w) = .ok o := by
  rcases w with _ | ⟨v, p⟩
  · rfl
  · obtain ⟨hp, hbuild⟩ := hw v p rfl
    cases ht : codeOf c v with
    | none => simp only [encodeBuild, ht, decode]
    | some t =>
      obtain ⟨rest, hword⟩ := decodeWord_frameOf hc ht hp
      simp only [encodeBuild, ht]
      exact decode_word_of_ok (hword.trans (hbuild rest))

/-! The layout of an instruction. -/

/-- An instruction that its row of the opcode table reads is BUILD of a variant of the catalogue. -/
theorem decodeBuild_of_decodeFields {c : Config} {v : Variant} {len : Byte} {q : Bytes} {i : Instr}
    (h : decodeFields v len q = some i) : decodeBuild c v len q = .ok (.instr i) := by
  cases v <;> simp only [decodeBuild, h]
  case added k => cases h

/-- The layout statements of Laws/PerInstr.lean, for whichever instruction. -/
theorem layout_statement (i : Instr) : Laws.Layout.Statement i := by
  cases i with
  | encode t p => exact Laws.Layout.encode t p
  | decode buf => exact Laws.Layout.decode buf
  | resolve buf => exact Laws.Layout.resolve buf
  | cksum b => exact Laws.Layout.cksum b
  | lookup t => exact Laws.Layout.lookup t
  | chbuild t chan extra => exact Laws.Layout.chbuild t chan extra
  | chview p => exact Laws.Layout.chview p
  | chset p chan => exact Laws.Layout.chset p chan
  | channelUnassign op => exact Laws.Layout.channelUnassign op
  | channelAssign op => exact Laws.Layout.channelAssign op
  | channelID op => exact Laws.Layout.channelID op
  | channelPeriod op => exact Laws.Layout.channelPeriod op
  | channelSearchTimeout op => exact Laws.Layout.channelSearchTimeout op
  | channelFrequency op => exact Laws.Layout.channelFrequency op
  | channelTXPower op => exact Laws.Layout.channelTXPower op
  | networkKey op => exact Laws.Layout.networkKey op
  | txPower op => exact Laws.Layout.txPower op
  | systemReset op => exact Laws.Layout.systemReset op
  | channelOpen op => exact Laws.Layout.channelOpen op
  | channelClose op => exact Laws.Layout.channelClose op
  | channelRequest op => exact Laws.Layout.channelRequest op
  | broadcastData op => exact Laws.Layout.broadcastData op
  | acknowledgedData op => exact Laws.Layout.acknowledgedData op
  | burstData op => exact Laws.Layout.burstData op
  | channelEvent op => exact Laws.Layout.channelEvent op
  | channelStatus op => exact Laws.Layout.channelStatus op
  | version op => exact Laws.Layout.version op
  | startup op => exact Laws.Layout.startup op
  | capabilities op => exact Laws.Layout.capabilities op
  | serialNumber op => exact Laws.Layout.serialNumber op

/-- A well-formed instruction is decoded from what presents it: the selector of a public operation, or the frame that
encodes it. -/
theorem decode_encode {c : Config} (hc : ConfigLegal c) {i : Instr} (hw : i.wf = true) :
    decode c (encode c i) = .ok (.instr i) := by
  have hbuild : decode c (encodeBuild c (.instr i) (wordPayload i)) = .ok (.instr i) :=
    decode_encodeBuild hc fun v p hp => by
      obtain ⟨-, hlen, -⟩ := layout_statement i hw v p [] hp
      refine ⟨hlen, fun rest => ?_⟩
      obtain ⟨-, -, hfields⟩ := layout_statement i hw v p rest hp
      exact decodeBuild_of_decodeFields hfields
  cases i with
  | encode t p => rfl
  | decode buf => rfl
  | resolve buf => rfl
  | _ => exact hbuild

/-! The layout of an added variant (41_dispatch.md R163). -/

/-- The values of a layout are read back from their bytes, whatever follows. -/
theorem takeFields_fieldBytes {ds : List FieldSpec} {xs : List FieldVal} (hl : xs.length = ds.length)
    (hr : ∀ z ∈ ds.zip xs, inRange z.1.kind z.2 = true) (rest : Bytes) :
    takeFields ds (((ds.zip xs).flatMap fun z => fieldBytes z.1.kind z.2) ++ rest) = some xs := by
  induction ds generalizing xs with
  | nil => rw [List.length_eq_zero_iff.mp hl]; rfl
  | cons d ds ih =>
    cases xs with
    | nil => cases hl
    | cons x xs =>
      rw [List.zip_cons_cons, List.forall_mem_cons] at hr
      obtain ⟨hx, hxs⟩ := hr
      have hwidth : (fieldBytes d.kind x).length = kindWidth d.kind := fieldBytes_length hx
      simp only [List.zip_cons_cons, List.flatMap_cons, List.append_assoc]
      rw [takeFields, ← hwidth, if_neg (by rw [List.length_append]; omega), List.drop_left, List.take_left,
        ih (Nat.succ.inj hl) hxs, fieldOf_fieldBytes hx, Option.map_some]

/-- A well-formed BUILD of an added variant has one value per field of its layout, each within its range. -/
theorem added_build_wf {c : Config} {k : Fin 10} {xs : List FieldVal} {r : VariantRow}
    (hr : rowOf c (.added k) = some r) (hw : (Operation.added k (.build xs)).wf c = true) :
    xs.length = r.fields.length ∧ ∀ z ∈ r.fields.zip xs, inRange z.1.kind z.2 = true := by
  simpa only [Operation.wf, hr, FieldOp.complete, FieldOp.fits, Bool.and_eq_true, decide_eq_true_eq,
    List.all_eq_true] using hw

/-- The payload that encodes a well-formed BUILD of an added variant is read back as that BUILD. -/
theorem decodeBuild_addedPayload {c : Config} (hc : ConfigLegal c) {k : Fin 10} {xs : List FieldVal}
    (hw : (Operation.added k (.build xs)).wf c = true) {v : Variant} {p : Payload}
    (hp : addedPayload c k (.build xs) = some (v, p)) :
    p.length ≤ 9 ∧ ∀ (len : Byte) (rest : Bytes), decodeBuild c v len (p ++ rest) = .ok (.added k (.build xs)) := by
  obtain ⟨r, hr, he⟩ := Option.map_eq_some_iff.mp hp
  cases he
  obtain ⟨hl, hin⟩ := added_build_wf hr hw
  refine ⟨?_, fun len rest => ?_⟩
  · have hok := buildFields_ok (v := .added k) (fun d hd => by simp [hl] at hd) hin
    exact (buildFields_length_le hok).trans (rowOf_rowLegal hc hr).fits
  · simp only [decodeBuild, hr, takeFields_fieldBytes hl hin]

/-- A well-formed operation of an added variant is decoded from what presents it. -/
theorem decode_encodeOperation_added {c : Config} (hc : ConfigLegal c) {k : Fin 10} {op : FieldOp}
    (hw : (Operation.added k op).wf c = true) :
    decode c (encodeOperation c (.added k op)) = .ok (.added k op) := by
  refine decode_encodeBuild hc fun v p hp => ?_
  cases op with
  | build xs =>
    obtain ⟨hlen, hbuild⟩ := decodeBuild_addedPayload hc hw hp
    exact ⟨hlen, hbuild _⟩
  | view q => cases hp
  | get n q => cases hp
  | set n q x => cases hp

/-- Settles O54: an instruction by the layout of its row, an operation of an added variant by the layout the
configuration supplies. -/
theorem decodeOfEncodeIsIdentity : Obligations.DecodeOfEncodeIsIdentity :=
  fun _ hc => ⟨fun _ => decode_encode hc, fun _ _ => decode_encodeOperation_added hc⟩

/-! RESOLVE of a frame, and the pseudo-operations of R117. -/

/-- Settles O18: DECODE of the frame is OK with any payload of at most 9 bytes, and the registry is all that RESOLVE asks
besides. -/
theorem resolveMakesNoLengthCheck : Obligations.ResolveMakesNoLengthCheck := by
  intro s hc t v p r hm hp h1
  simp only [← frameOf_eq_frameBytes, exec, execResolve, decodeFrame_frameOf hc hp h1,
    lookupType_of_mem hc.registry hm]
  rfl

/-- ENCODE of a type code and of a payload that fits answers the frame (40_codec_ops.md R134). -/
theorem exec_encode_frame {s : State} (hc : ConfigLegal s.cfg) (t : Byte) {p : Payload} (hp : p.length ≤ 9) :
    exec (.encode (numOf t) p) s =
      .next { s with res := { status := some .ok, frame := some (frameBytes s.cfg.sync t p),
                              frameLen := some (p.length + 4) } } := by
  simp only [exec, execEncode, numOf, encodeFrame_ok hc hp, legal_overhead hc, frameOf_eq_frameBytes, finish_ok]

/-- An operation reads no result port: what an earlier transaction left in them is replaced (00_scope.md R21). -/
theorem perform_of_res (o : Operation) (s : State) (r : Results) : perform o { s with res := r } = perform o s := by
  obtain ⟨f, hf⟩ := perform_finishes o
  rw [hf, hf]
  rcases f s.cfg with (⟨_, _⟩ | _) | _ <;> rfl

theorem payout_length_of_shape {c : Config} {r : Results} {p : Payload} (h : ResultShape c r)
    (hp : r.payout = some p) : p.length ≤ 9 := by
  cases h with
  | message t q h1 h9 => cases hp; exact h9
  | payout q h9 => cases hp; exact h9
  | _ => cases hp

/-- A payload that a well-formed operation answers fits a payload port (10_state.md R32). -/
theorem payout_length_le {s : State} (hc : ConfigLegal s.cfg) {o : Operation} (hw : o.wf s.cfg = true) {p : Payload}
    (h : perform o s = .next (okPayout s p)) : p.length ≤ 9 :=
  payout_length_of_shape (resultShape_perform hc (setPayloadFits_of_wf hw) h) rfl

/-- ENCODE.v is ENCODE of BUILD's payload under the code of the variant built. -/
theorem encodeVariant_of_build {s : State} {o : Operation} (h : (buildVariant o).isSome = true) {p : Payload} {t : Byte}
    (ho : perform o s = .next (okPayout s p)) (ht : codeOf s.cfg ((buildVariant o).get h) = some t) :
    encodeVariant o h s = exec (.encode (numOf t) p) (okPayout s p) := by
  have hcfg : codeOf (okPayout s p).cfg ((buildVariant o).get h) = some t := ht
  simp only [encodeVariant, ho, hcfg]
  rfl

/-- RESOLVE then field access is VIEW of the variant and the payload that RESOLVE answers. -/
theorem resolveView_of_resolve {s : State} {buf : Bytes} {v : Variant} {t : Byte} {p : Payload} {k : Nat}
    (h : exec (.resolve buf) s = .next (okVariant s (variantId v) t p k)) :
    resolveView buf s = perform (viewInstr v p) s := by
  have hview : resolveView buf s =
      perform (viewInstr (variantOfId (variantId v)) p) (okVariant s (variantId v) t p k) := by
    simp only [resolveView, h]
    rfl
  rw [hview, variantOfId_variantId]
  exact perform_of_res _ _ _

/-- Settles O50: the code under which the registry names the variant is its code, ENCODE under it answers the frame, and
RESOLVE of the frame answers the variant and the payload. -/
theorem encodeVariantThenResolveView : Obligations.EncodeVariantThenResolveView := by
  intro s hc o h p t r hw ho hm
  have hp : p.length ≤ 9 := payout_length_le hc hw ho
  constructor
  · rw [encodeVariant_of_build h ho (codeOf_of_mem hc.registry hm)]
    exact exec_encode_frame (s := okPayout s p) hc t hp
  · intro h1
    exact resolveView_of_resolve (resolveMakesNoLengthCheck s hc t _ p r hm hp h1)

/-! The selector (R116). -/

/-- The end of a transaction adds nothing where the operation writes STATUS on success, since an error writes it. -/
theorem conclude_finish {s : State} {e : Except Stop Results} (h : ∀ r, e = .ok r → r.status = some .ok) :
    conclude (finish s e) = finish s e := by
  rcases e with (⟨k, i⟩ | f) | r
  · exact conclude_of_status (e := k) rfl
  · rfl
  · exact conclude_of_status (h r rfl)

theorem conclude_exec_encode (t : Int) (p : Payload) (s : State) :
    conclude (exec (.encode t p) s) = exec (.encode t p) s := by
  refine conclude_finish fun r hr => ?_
  split at hr <;> cases hr
  rfl

theorem conclude_exec_decode (buf : Bytes) (s : State) :
    conclude (exec (.decode buf) s) = exec (.decode buf) s := by
  refine conclude_finish fun r hr => ?_
  split at hr <;> cases hr
  rfl

theorem conclude_exec_resolve (buf : Bytes) (s : State) :
    conclude (exec (.resolve buf) s) = exec (.resolve buf) s := by
  refine conclude_finish fun r hr => ?_
  split at hr
  · cases hr
  · split at hr <;> cases hr
    rfl

/-- Settles O52: the selector decodes to the public operation, which writes its own outcome. -/
theorem selectorNamesPublicOperations : Obligations.SelectorNamesPublicOperations := by
  intro s op ports rest hs
  refine ⟨?encode, ?decode, ?resolve, ?undefined⟩ <;> rintro rfl
  case encode => exact (step_of_decode_ok hs rfl).trans (conclude_exec_encode _ _ _)
  case decode => exact (step_of_decode_ok hs rfl).trans (conclude_exec_decode _ _)
  case resolve => exact (step_of_decode_ok hs rfl).trans (conclude_exec_resolve _ _)
  case undefined => exact step_of_decode_error (e := .undefinedSelector) hs rfl

/-! Words written out (R116, R119). -/

/-- Settles O53: the four selector values, and the frames of four variants, read under the configuration at reset. -/
theorem writtenOutWordsDecode : Obligations.WrittenOutWordsDecode := by
  refine ⟨rfl, rfl, rfl, rfl, ?channelOpen, ?channelID, ?networkKey, ?capabilities⟩ <;> decide

end Sys2Proof.Proofs.Encoding

/-! PROOF. The family 40_codec_ops.md: CKSUM (R130), ENCODE (R131 to R135), DECODE (R136 to R145), and how the two
answer each other (R147 to R151). -/

namespace Sys2Proof.Proofs.Codec
open Machine Safety StateInvariant Encoding

variable {s x : State}

/-! ENCODE and DECODE end as encodeFrame and decodeFrame do. -/

theorem exec_encode_raise {t : Int} {p : Payload} {e : Status} {i : Info}
    (h : encodeFrame s.cfg t p = .error (.raise e i)) : exec (.encode t p) s = .next (answers s e i) := by
  simp only [exec, execEncode, h, finish_raise, answers]

/-- All that an ENCODE that answers a frame can have done (40_codec_ops.md R134). -/
theorem exec_encode_frame_inv (hc : ConfigLegal s.cfg) {t : Int} {p : Payload} {f : Bytes}
    (hx : exec (.encode t p) s = .next x) (hf : x.res.frame = some f) :
    ∃ b : Byte, t = b.toNat ∧ p.length ≤ 9 ∧ f = frameOf s.cfg.sync b p := by
  obtain ⟨-, h⟩ | ⟨-, -, h⟩ | ⟨b, rfl, hp, -⟩ := encodeFrame_cases hc t p
  · rw [exec_encode_raise h] at hx; cases hx; cases hf
  · rw [exec_encode_raise h] at hx; cases hx; cases hf
  · rw [show (b.toNat : Int) = numOf b from rfl, exec_encode_frame hc b hp] at hx
    cases hx; cases hf
    exact ⟨b, rfl, hp, (frameOf_eq_frameBytes _ _ _).symm⟩

theorem exec_decode_raise {buf : Bytes} {e : Status} {i : Info}
    (h : decodeFrame s.cfg buf = .error (.raise e i)) : exec (.decode buf) s = .next (answers s e i) := by
  simp only [exec, execDecode, h, finish_raise, answers]

theorem exec_decode_ok {buf : Bytes} {t : Byte} {p : Payload} {k : Nat}
    (h : decodeFrame s.cfg buf = .ok ⟨t, p, k⟩) : exec (.decode buf) s = .next (okMessage s t p k) := by
  simp only [exec, execDecode, h, finish_ok, okMessage]

/-- A DECODE that answers a type is OK with a frame that stands at the head of the buffer (40_codec_ops.md R143). -/
theorem exec_decode_rtype_inv (hc : ConfigLegal s.cfg) {buf : Bytes} {t : Byte}
    (hx : exec (.decode buf) s = .next x) (ht : x.res.rtype = some t) :
    ∃ p r : Bytes, p.length ≤ 9 ∧ 1 ≤ p.length + r.length ∧ buf = frameBytes s.cfg.sync t p ++ r ∧
      x = okMessage s t p (p.length + 4) := by
  obtain ⟨-, h⟩ | h | ⟨_, -, -, h⟩ | ⟨_, -, -, -, h⟩ | h | ⟨u, p, r, hp, hbuf, h1, h⟩ := decodeFrame_cases hc buf
  case inr.inr.inr.inr.inr =>
    rw [exec_decode_ok h] at hx
    cases hx; cases ht
    exact ⟨p, r, hp, h1, frameOf_eq_frameBytes _ _ _ ▸ hbuf, rfl⟩
  all_goals rw [exec_decode_raise h] at hx; cases hx; cases ht

theorem exec_decode_short (hc : ConfigLegal s.cfg) {buf : Bytes} (hb : buf.length < 5) :
    exec (.decode buf) s = .next (answers s .incomplete .header) :=
  exec_decode_raise (decodeFrame_short hc hb)

/-- The order of the checks of DECODE on a buffer of five bytes or more (40_codec_ops.md R138 to R143). -/
theorem exec_decode_cons (hc : ConfigLegal s.cfg) {sync len t : Byte} {rest : Bytes} (hr : 2 ≤ rest.length) :
    exec (.decode (sync :: len :: t :: rest)) s =
      .next
        (if sync ≠ s.cfg.sync then answers s .corrupted .syncMismatch
         else if 9 < len.toNat then answers s .malformed (.lenRange len.toNat)
         else if rest.length < len.toNat + 1 then answers s .incomplete (.body (len.toNat + 4))
         else if xor8 (sync :: len :: t :: rest.take (len.toNat + 1)) ≠ 0#8 then
           answers s .corrupted .checksumMismatch
         else okMessage s t (rest.take len.toNat) (len.toNat + 4)) := by
  have hd := decodeFrame_cons hc (sync := sync) (len := len) (t := t) hr
  split_ifs at hd ⊢
  · exact exec_decode_raise hd
  · exact exec_decode_raise hd
  · exact exec_decode_raise hd
  · exact exec_decode_raise hd
  · exact exec_decode_ok hd

/-- DECODE of a frame with at least one payload byte, or with something after it (40_codec_ops.md R147). -/
theorem exec_decode_frame (hc : ConfigLegal s.cfg) {t : Byte} {p r : Bytes} (hp : p.length ≤ 9)
    (h1 : 1 ≤ p.length + r.length) :
    exec (.decode (frameBytes s.cfg.sync t p ++ r)) s = .next (okMessage s t p (p.length + 4)) := by
  rw [← frameOf_eq_frameBytes]
  exact exec_decode_ok (decodeFrame_frameOf hc hp h1)

theorem frameBytes_length (sync t : Byte) (p : Payload) : (frameBytes sync t p).length = p.length + 4 := by
  rw [← frameOf_eq_frameBytes, frameOf_length]

/-- Settles O8: ENCODE answers the frame, and DECODE takes it apart again unless it is 4 bytes and nothing follows. -/
theorem encodeDecodeRoundTrip : Obligations.EncodeDecodeRoundTrip := by
  intro s hc t p hp
  refine ⟨_, _, exec_encode_frame hc t hp, rfl, fun h1 => ?alone, fun r hr => ?followed, fun h0 => ?empty⟩
  case alone =>
    rw [← List.append_nil (frameBytes s.cfg.sync t p)]
    exact exec_decode_frame hc hp (by omega)
  case followed =>
    have := List.length_pos_iff.mpr hr
    exact exec_decode_frame hc hp (by omega)
  case empty =>
    subst h0
    exact exec_decode_short hc (by rw [frameBytes_length]; decide)

/-! CKSUM. -/

theorem exec_cksum (b : Bytes) (s : State) : exec (.cksum b) s = .next { s with res := { cksum := some (xor8 b) } } :=
  rfl

/-- A transaction that invokes CKSUM presents OK beside the byte, since the operation writes no outcome. -/
theorem step_cksum {b : Bytes} {rest : List Request} (hs : s.requests = .call (.instr (.cksum b)) :: rest) :
    step s = .next { s with requests := rest, res := { status := some .ok, cksum := some (xor8 b) } } := by
  rw [step_of_decode_ok hs rfl, perform, exec_cksum]
  exact conclude_of_no_status rfl

/-- Settles O1: the laws of xor8 on a byte and a sequence, on a sequence and one byte more, and on a permutation. -/
theorem cksumFoldsExclusiveOr : Obligations.CksumFoldsExclusiveOr := by
  refine fun s => ⟨exec_cksum [] s, fun a b => ⟨xor8 b, exec_cksum b s, ?cons, ?own, ?perm, fun _ => step_cksum⟩⟩
  case cons => rw [exec_cksum, xor8_cons]
  case own => rw [exec_cksum, xor8_append, xor8_cons, xor8_nil, BitVec.xor_zero, BitVec.xor_self]
  case perm => intro b' h; rw [exec_cksum, xor8_perm h]

/-! ENCODE. -/

/-- Settles O2: the frame that ENCODE answers, and its length. -/
theorem encodeProducesFrame : Obligations.EncodeProducesFrame :=
  fun s hc t p hp => ⟨exec_encode_frame hc t hp, frameBytes_length s.cfg.sync t p⟩

/-- Settles O3: one clause per outcome of encodeFrame. -/
theorem encodeRejectsLengthThenType : Obligations.EncodeRejectsLengthThenType := by
  refine fun s hc => ⟨fun t p hp => exec_encode_raise (encodeFrame_range hc hp),
    fun t p hp ht => exec_encode_raise (encodeFrame_type hc hp ht), fun t p hp h0 h1 => ?_⟩
  obtain ⟨b, rfl⟩ := byte_of_int h0 h1
  exact ⟨_, exec_encode_frame hc b hp, rfl⟩

/-- A frame determines the type and the payload it carries (40_codec_ops.md R135). -/
theorem frameOf_injective {sync t u : Byte} {p q : Payload} (h : frameOf sync t p = frameOf sync u q) :
    t = u ∧ p = q := by
  rw [frameOf_cons, frameOf_cons] at h
  injection h with _ h
  injection h with _ h
  injection h with ht h
  exact ⟨ht, (List.append_inj' h rfl).1⟩

/-- A frame is valid (30_encoding.md R108). -/
theorem validFrame_frameOf (sync t : Byte) {p : Payload} (hp : p.length ≤ 9) : ValidFrame sync (frameOf sync t p) := by
  have hn : (BitVec.ofNat 8 p.length).toNat = p.length := by rw [BitVec.toNat_ofNat]; omega
  refine ⟨by rw [frameOf_length]; omega, rfl, BitVec.ofNat 8 p.length, rfl, ?_⟩
  have hbody : (sync :: BitVec.ofNat 8 p.length :: t :: p).length = 3 + p.length := by
    simp only [List.length_cons]; omega
  rw [hn, frameOf_length, frameOf, ← hbody, List.take_left, List.getElem?_concat_length, xor8_eq_foldr]
  exact ⟨hp, le_rfl, rfl⟩

/-- ENCODE reads neither the registry nor the variant table (40_codec_ops.md R135). -/
theorem exec_encode_of_tables {t : Int} {p : Payload} (hx : exec (.encode t p) s = .next x) (r : List RegEntry)
    (w : List VariantRow) :
    ∃ y : State, exec (.encode t p) { s with cfg := { s.cfg with registry := r, vtab := w } } = .next y ∧
      y.res = x.res := by
  obtain ⟨res, hres, rfl⟩ := finish_next hx
  exact ⟨_, finish_of_results _ hres, rfl⟩

/-- Settles O4: an outcome per case of encodeFrame; injective and valid as the frame is. -/
theorem encodeTotalInjectiveValid : Obligations.EncodeTotalInjectiveValid := by
  intro s hc
  refine ⟨fun t p => ?total, ?injective, ?valid⟩
  case total =>
    have hanswer : ∃ x : State, exec (.encode t p) s = .next x ∧
        (x.res.status = some .ok ∨ x.res.status = some .malformed) ∧
        (0 ≤ t → t ≤ 255 → p.length ≤ 9 → x.res.status = some .ok) := by
      obtain ⟨hp, h⟩ | ⟨-, ht, h⟩ | ⟨b, rfl, hp, -⟩ := encodeFrame_cases hc t p
      · exact ⟨_, exec_encode_raise h, .inr rfl, by omega⟩
      · exact ⟨_, exec_encode_raise h, .inr rfl, by omega⟩
      · exact ⟨_, exec_encode_frame hc b hp, .inl rfl, fun _ _ _ => rfl⟩
    obtain ⟨x, hx, hstatus, hok⟩ := hanswer
    exact ⟨x, hx, hstatus, hok, exec_encode_of_tables hx⟩
  case injective =>
    intro t t' p p' x x' f hx hx' hf hf'
    obtain ⟨b, rfl, -, hb⟩ := exec_encode_frame_inv hc hx hf
    obtain ⟨b', rfl, -, hb'⟩ := exec_encode_frame_inv hc hx' hf'
    obtain ⟨rfl, rfl⟩ := frameOf_injective (hb.symm.trans hb')
    exact ⟨rfl, rfl⟩
  case valid =>
    intro t p x f hx hf
    obtain ⟨b, -, hp, rfl⟩ := exec_encode_frame_inv hc hx hf
    rw [← xor8_eq_foldr]
    exact ⟨xor8_frameOf _ _ _, validFrame_frameOf _ _ hp⟩

/-! DECODE. -/

/-- Settles O5: the checks of exec_decode_cons down to the one that fails. -/
theorem decodeFirstFourChecks : Obligations.DecodeFirstFourChecks := by
  refine fun s hc => ⟨fun _ => exec_decode_short hc, ?sync, ?length, ?body⟩
  case sync =>
    intro sync len t rest hr hs
    rw [exec_decode_cons hc hr, if_pos hs]
  case length =>
    intro len t rest hr hl
    rw [exec_decode_cons hc hr, if_neg (not_not.mpr rfl), if_pos hl]
  case body =>
    intro len t rest hr hl hb
    rw [exec_decode_cons hc hr, if_neg (not_not.mpr rfl), if_neg (by omega), if_pos hb]

/-- The checksum byte decides, once SYNC, LENGTH and the number of bytes are good (40_codec_ops.md R142, R143). -/
theorem exec_decode_sum (hc : ConfigLegal s.cfg) (t k : Byte) {p rest : Bytes} (hp : p.length ≤ 9)
    (h1 : 1 ≤ p.length + rest.length) :
    exec (.decode ([s.cfg.sync, BitVec.ofNat 8 p.length, t] ++ p ++ k :: rest)) s =
      .next
        (if k = s.cfg.sync ^^^ BitVec.ofNat 8 p.length ^^^ t ^^^ p.foldr (· ^^^ ·) 0#8 then
           okMessage s t p (p.length + 4)
         else answers s .corrupted .checksumMismatch) := by
  have hn : (BitVec.ofNat 8 p.length).toNat = p.length := by rw [BitVec.toNat_ofNat]; omega
  have hlen : (p ++ k :: rest).length = p.length + 1 + rest.length := by
    simp only [List.length_append, List.length_cons]; omega
  have htake : (p ++ k :: rest).take (p.length + 1) = p ++ [k] := by simp [List.take_append]
  have hxor : xor8 (s.cfg.sync :: BitVec.ofNat 8 p.length :: t :: (p ++ [k])) =
      s.cfg.sync ^^^ BitVec.ofNat 8 p.length ^^^ t ^^^ p.foldr (· ^^^ ·) 0#8 ^^^ k := by
    simp only [← xor8_eq_foldr, xor8_cons, xor8_append, xor8_nil, BitVec.xor_zero, BitVec.xor_assoc]
  rw [show [s.cfg.sync, BitVec.ofNat 8 p.length, t] ++ p ++ k :: rest =
      s.cfg.sync :: BitVec.ofNat 8 p.length :: t :: (p ++ k :: rest) from by
        rw [List.append_assoc]; rfl]
  rw [exec_decode_cons hc (by omega), hn, if_neg (not_not.mpr rfl), if_neg (by omega), if_neg (by omega), htake,
    List.take_left, ite_not, hxor]
  simp only [BitVec.xor_eq_zero_iff, eq_comm (a := k)]

/-- Settles O6: exec_decode_sum, with the checksum byte other than the sum and equal to it. -/
theorem decodeChecksumThenSuccess : Obligations.DecodeChecksumThenSuccess := by
  intro s hc t k p rest hp h1
  rw [exec_decode_sum hc t k hp h1]
  exact ⟨fun hk => by rw [if_neg hk], fun hk => by rw [if_pos hk]⟩

/-- Settles O7: a buffer of five bytes or more has a header, and the table reads it as exec_decode_cons does. -/
theorem decodePartitionsBuffers : Obligations.DecodePartitionsBuffers := by
  intro s hc buf
  by_cases hb : buf.length ≤ 4
  · rw [if_pos hb, exec_decode_short hc (by omega)]
  · rw [if_neg hb]
    obtain ⟨sync, len, t, rest, rfl, hr⟩ := exists_header (buf := buf) (by omega)
    have hlen : (sync :: len :: t :: rest).length < len.toNat + 4 ↔ rest.length < len.toNat + 1 := by
      simp only [List.length_cons]; omega
    rw [exec_decode_cons hc hr, xor8_eq_foldr]
    simp only [List.getD_cons_zero, List.getD_cons_succ, hlen]
    rfl

/-- Settles O9: what DECODE accepts is a frame at the head of the buffer, and ENCODE answers that frame. -/
theorem decodedBytesReencode : Obligations.DecodedBytesReencode := by
  intro s hc buf x t p k hx ht hp hk
  obtain ⟨q, r, hq, h1, rfl, rfl⟩ := exec_decode_rtype_inv hc hx ht
  obtain rfl : q = p := Option.some.inj hp
  obtain rfl : q.length + 4 = k := Option.some.inj hk
  have hlen := frameBytes_length s.cfg.sync t q
  refine ⟨rfl, by rw [List.length_append, hlen]; omega, ?_⟩
  rw [← hlen, List.take_left, hlen]
  exact exec_encode_frame hc t hq

/-! Errors in a frame. -/

theorem xor_twoPow_ne (b : Byte) {j : Nat} (hj : j < 8) : b ^^^ BitVec.twoPow 8 j ≠ b := by
  intro h
  have hbit := congrArg (·.getLsbD j) h
  simp [hj] at hbit

/-- Another byte in the place of one changes the exclusive-or of all by the difference of the two. -/
theorem xor8_set {l : Bytes} {i : Nat} {b : Byte} (h : l[i]? = some b) (v : Byte) :
    xor8 (l.set i v) ^^^ b = xor8 l ^^^ v := by
  induction l generalizing i with
  | nil => cases h
  | cons a l ih =>
    cases i with
    | zero =>
      obtain rfl : a = b := Option.some.inj h
      rw [List.set_cons_zero, xor8_cons, xor8_cons]
      ac_rfl
    | succ i =>
      rw [List.getElem?_cons_succ] at h
      rw [List.set_cons_succ, xor8_cons, xor8_cons, BitVec.xor_assoc, ih h, BitVec.xor_assoc]

/-- A frame whose SYNC is another byte (40_codec_ops.md R149). -/
theorem exec_decode_set_sync (hc : ConfigLegal s.cfg) (t : Byte) {v : Byte} {p : Payload} (h1 : 1 ≤ p.length)
    (hv : v ≠ s.cfg.sync) :
    exec (.decode ((frameBytes s.cfg.sync t p).set 0 v)) s = .next (answers s .corrupted .syncMismatch) := by
  rw [← frameOf_eq_frameBytes, frameOf_cons, List.set_cons_zero,
    exec_decode_cons hc (by rw [List.length_append, List.length_singleton]; omega), if_pos hv]

/-- A frame whose LENGTH is another byte: where it is shorter, a payload byte stands in the place of the checksum
(40_codec_ops.md R149). -/
theorem exec_decode_set_length (hc : ConfigLegal s.cfg) (t : Byte) {v : Byte} {p : Payload} (h1 : 1 ≤ p.length)
    (hp : p.length ≤ 9) (hv : v ≠ BitVec.ofNat 8 p.length) :
    exec (.decode ((frameBytes s.cfg.sync t p).set 1 v)) s =
      .next
        (if 10 ≤ v.toNat then answers s .malformed (.lenRange v.toNat)
         else if p.length < v.toNat then answers s .incomplete (.body (v.toNat + 4))
         else if p[v.toNat]? =
             some (s.cfg.sync ^^^ BitVec.ofNat 8 v.toNat ^^^ t ^^^ (p.take v.toNat).foldr (· ^^^ ·) 0#8) then
           okMessage s t (p.take v.toNat) (v.toNat + 4)
         else answers s .corrupted .checksumMismatch) := by
  have hne : v.toNat ≠ p.length := fun h => hv (by rw [← h, BitVec.ofNat_toNat, BitVec.setWidth_eq])
  rw [← frameOf_eq_frameBytes, frameOf_cons, List.set_cons_succ, List.set_cons_zero]
  generalize s.cfg.sync ^^^ BitVec.ofNat 8 p.length ^^^ t ^^^ p.foldr (· ^^^ ·) 0#8 = k
  have hrest : (p ++ [k]).length = p.length + 1 := List.length_append
  by_cases hlt : v.toNat < p.length
  · have htake : (p.take v.toNat).length = v.toNat := by rw [List.length_take]; omega
    have hsplit : p ++ [k] = p.take v.toNat ++ p[v.toNat] :: (p.drop (v.toNat + 1) ++ [k]) := by
      rw [← List.cons_append, ← List.drop_eq_getElem_cons, ← List.append_assoc, List.take_append_drop]
    have hbuf : s.cfg.sync :: v :: t :: (p ++ [k]) =
        [s.cfg.sync, BitVec.ofNat 8 (p.take v.toNat).length, t] ++ p.take v.toNat ++
          p[v.toNat] :: (p.drop (v.toNat + 1) ++ [k]) := by
      rw [hsplit, htake, BitVec.ofNat_toNat, BitVec.setWidth_eq, List.append_assoc]
      rfl
    rw [hbuf, exec_decode_sum hc t _ (by omega) (by rw [List.length_append, List.length_singleton]; omega), htake,
      if_neg (show ¬ 10 ≤ v.toNat by omega), if_neg (show ¬ p.length < v.toNat by omega),
      List.getElem?_eq_getElem hlt]
    simp only [Option.some.injEq]
  · rw [exec_decode_cons hc (by omega), if_neg (not_not.mpr rfl)]
    by_cases hmax : 9 < v.toNat
    · rw [if_pos hmax, if_pos (show 10 ≤ v.toNat from hmax)]
    · rw [if_neg hmax, if_neg (show ¬ 10 ≤ v.toNat from hmax), if_pos (by omega), if_pos (by omega)]

/-- A frame in which a byte of TYPE, payload or checksum is another: the exclusive-or of the whole is no longer 0
(40_codec_ops.md R149). -/
theorem exec_decode_set_summed (hc : ConfigLegal s.cfg) {t b v : Byte} {p : Payload} (h1 : 1 ≤ p.length)
    (hp : p.length ≤ 9) {i : Nat} (hi : 2 ≤ i) (hb : (frameBytes s.cfg.sync t p)[i]? = some b) (hv : v ≠ b) :
    exec (.decode ((frameBytes s.cfg.sync t p).set i v)) s = .next (answers s .corrupted .checksumMismatch) := by
  have hn : (BitVec.ofNat 8 p.length).toNat = p.length := by rw [BitVec.toNat_ofNat]; omega
  have hlen : ((frameBytes s.cfg.sync t p).set i v).length = p.length + 4 := by
    rw [List.length_set, frameBytes_length]
  have hsync : ((frameBytes s.cfg.sync t p).set i v).getD 0 0#8 = s.cfg.sync := by
    rw [List.getD_eq_getElem?_getD, List.getElem?_set_ne (by omega)]; rfl
  have hlength : ((frameBytes s.cfg.sync t p).set i v).getD 1 0#8 = BitVec.ofNat 8 p.length := by
    rw [List.getD_eq_getElem?_getD, List.getElem?_set_ne (by omega)]; rfl
  have hxor : xor8 ((frameBytes s.cfg.sync t p).set i v) ≠ 0#8 := by
    intro h0
    have hset := xor8_set hb v
    rw [h0, ← frameOf_eq_frameBytes, xor8_frameOf, BitVec.zero_xor, BitVec.zero_xor] at hset
    exact hv hset.symm
  rw [decodePartitionsBuffers s hc, hsync, hlength, hn, hlen, List.take_of_length_le hlen.le, ← xor8_eq_foldr,
    if_neg (by omega), if_neg (not_not.mpr rfl), if_neg (by omega), if_neg (by omega), if_pos hxor]

/-- Settles O10: a flipped bit makes the byte another, in SYNC, in LENGTH, or in a byte that only the checksum sees. -/
theorem singleBitFlipOutcomes : Obligations.SingleBitFlipOutcomes := by
  intro s hc t p hp i j b hj hb buf len
  have hv : b ^^^ BitVec.twoPow 8 j ≠ b := xor_twoPow_ne b hj
  by_cases h0 : p.length = 0
  · have hlen : buf.length = p.length + 4 := by rw [List.length_set, frameBytes_length]
    rw [if_pos h0, exec_decode_short hc (by omega)]
  · rw [if_neg h0]
    have h1 : 1 ≤ p.length := by omega
    obtain rfl | rfl | hi : i = 0 ∨ i = 1 ∨ 2 ≤ i := by omega
    · obtain rfl : s.cfg.sync = b := Option.some.inj hb
      rw [if_pos rfl]
      exact exec_decode_set_sync hc t h1 hv
    · obtain rfl : BitVec.ofNat 8 p.length = b := Option.some.inj hb
      rw [if_neg one_ne_zero, if_neg (not_not.mpr rfl)]
      exact exec_decode_set_length hc t h1 hp hv
    · rw [if_neg (by omega), if_pos (by omega)]
      exact exec_decode_set_summed hc h1 hp hi hb hv

/-- The differences of two payloads, folded, are the difference of the folds. -/
theorem foldr_zipWith_xor {p q : Bytes} (h : q.length = p.length) (e : Byte) :
    (List.zipWith (· ^^^ ·) p q).foldr (· ^^^ ·) e = p.foldr (· ^^^ ·) 0#8 ^^^ e ^^^ q.foldr (· ^^^ ·) 0#8 := by
  induction p generalizing q with
  | nil =>
    obtain rfl := List.length_eq_zero_iff.mp h
    simp
  | cons a p ih =>
    cases q with
    | nil => cases h
    | cons b q =>
      rw [List.zipWith_cons_cons, List.foldr_cons, List.foldr_cons, List.foldr_cons, ih (Nat.succ.inj h)]
      ac_rfl

/-- Settles O11: the checksum byte sent is the sum of the payload received exactly when the differences fold to 0. -/
theorem checksumDetectsExactlyOddPatterns : Obligations.ChecksumDetectsExactlyOddPatterns := by
  intro s hc t p p' e h1 hp hl sum buf
  have hsum : sum ^^^ e = s.cfg.sync ^^^ BitVec.ofNat 8 p'.length ^^^ t ^^^ p'.foldr (· ^^^ ·) 0#8 ↔
      (List.zipWith (· ^^^ ·) p p').foldr (· ^^^ ·) e = 0#8 := by
    rw [foldr_zipWith_xor hl, BitVec.xor_eq_zero_iff, hl, BitVec.xor_assoc, BitVec.xor_right_inj]
  have hbuf : buf = [s.cfg.sync, BitVec.ofNat 8 p'.length, t] ++ p' ++ [sum ^^^ e] := by rw [hl]
  rw [hbuf, exec_decode_sum hc t (sum ^^^ e) (by omega) (by omega)]
  simp only [hsum]

/-- Settles O12: DECODE takes the first frame whatever follows, and what is left begins with the second. -/
theorem streamOfTwoFrames : Obligations.StreamOfTwoFrames := by
  intro s hc t u p q r hp hq f g
  have hf : f.length = p.length + 4 := frameBytes_length s.cfg.sync t p
  have hgr : (g ++ r).length = q.length + 4 + r.length := by rw [List.length_append, frameBytes_length]
  rw [List.append_assoc, List.drop_left, hf, hgr]
  refine ⟨exec_decode_frame hc hp (by omega), fun h5 => ?second, ?proviso, fun h5 => exec_decode_short hc (by omega)⟩
  case second =>
    rw [frameBytes_length]
    exact exec_decode_frame hc hq (by omega)
  case proviso =>
    rw [← List.length_eq_zero_iff, ← List.length_eq_zero_iff]
    omega

end Sys2Proof.Proofs.Codec

/-! PROOF. The family 41_dispatch.md: LOOKUP (R160, R162) and RESOLVE (R164 to R168). -/

namespace Sys2Proof.Proofs.TypeDispatch
open Machine Safety StateInvariant Memory Codec

variable {s : State}

/-! LOOKUP ends as lookupType does. -/

theorem exec_lookup_ok {t : Byte} {v : BitVec 5} (h : lookupType s.cfg t = .ok v) :
    exec (.lookup t) s = .next { s with res := { status := some .ok, variant := some v } } := by
  simp only [exec, execLookup, h, finish_ok]

theorem exec_lookup_raise {t : Byte} {e : Status} {i : Info} (h : lookupType s.cfg t = .error (.raise e i)) :
    exec (.lookup t) s = .next (answers s e i) := by
  simp only [exec, execLookup, h, finish_raise, answers]

/-- Settles O16: the code names the entry it has, and where it has none nothing stands in for one. -/
theorem lookupAnswersTheRegistry : Obligations.LookupAnswersTheRegistry :=
  fun _ hr _ => ⟨fun _ hm => exec_lookup_ok (lookupType_of_mem hr hm),
    fun hm => exec_lookup_raise (lookupType_of_not_mem hm)⟩

/-- The registry, read as an association list from code to variant. -/
theorem registryEntry_eq_lookup (c : Config) (t : Byte) :
    registryEntry c t = (c.registry.map fun e => (e.code, e.variant)).lookup t := by
  unfold registryEntry
  induction c.registry with
  | nil => rfl
  | cons e l ih =>
    rw [List.map_cons, List.lookup_cons, List.find?_cons, BEq.comm]
    cases t == e.code with
    | false => exact ih
    | true => rfl

/-- Settles O19: the table of R162 is the default registry as an association list, and LOOKUP answers the registry. -/
theorem defaultRegistryAnswers : Obligations.DefaultRegistryAnswers := by
  intro s h t
  have hlegal : RegistryLegal s.cfg.registry := h ▸ defaultConfig_admitted.legal.registry
  obtain ⟨hknown, hunknown⟩ := lookupAnswersTheRegistry s hlegal t
  have hentry := registryEntry_eq_lookup s.cfg t
  rw [h] at hentry
  split
  next v hv => exact hknown v (mem_of_registryEntry (hentry.trans hv))
  next hv => exact hunknown (registryEntry_none.mp (hentry.trans hv))

/-! RESOLVE ends as decodeFrame does where that is an error, and as lookupType does where it is OK. -/

theorem exec_resolve_raise {buf : Bytes} {e : Status} {i : Info}
    (h : decodeFrame s.cfg buf = .error (.raise e i)) : exec (.resolve buf) s = .next (answers s e i) := by
  simp only [exec, execResolve, h, finish_raise, answers]

theorem exec_resolve_ok {buf : Bytes} {t : Byte} {p : Payload} {k : Nat} {v : BitVec 5}
    (h : decodeFrame s.cfg buf = .ok ⟨t, p, k⟩) (hv : lookupType s.cfg t = .ok v) :
    exec (.resolve buf) s = .next (okVariant s v t p k) := by
  simp only [exec, execResolve, h, hv, finish_ok, okVariant]

theorem exec_resolve_lookup_raise {buf : Bytes} {d : Decoded} {e : Status} {i : Info}
    (h : decodeFrame s.cfg buf = .ok d) (hl : lookupType s.cfg d.type = .error (.raise e i)) :
    exec (.resolve buf) s = .next (answers s e i) := by
  simp only [exec, execResolve, h, hl, finish_raise, answers]

/-- DECODE faults on no buffer, and UNKNOWN_TYPE is none of its errors, since it does not read the registry
(40_codec_ops.md R145). -/
theorem decodeFrame_error_inv {c : Config} (hc : ConfigLegal c) {buf : Bytes} {e : Stop}
    (h : decodeFrame c buf = .error e) : ∃ k i, e = .raise k i ∧ k ≠ .ok ∧ k ≠ .unknownType := by
  obtain ⟨-, h'⟩ | h' | ⟨_, -, -, h'⟩ | ⟨_, -, -, -, h'⟩ | h' | ⟨_, _, _, -, -, -, h'⟩ := decodeFrame_cases hc buf <;>
    rw [h'] at h <;> cases h <;> exact ⟨_, _, rfl, nofun, nofun⟩

/-- Settles O17: an error of DECODE is the answer of both operations, and a decoded message is RESOLVE's answer with
what LOOKUP says of its type. -/
theorem resolveIsDecodeThenLookup : Obligations.ResolveIsDecodeThenLookup := by
  intro s hc buf
  obtain ⟨-, hwindow⟩ := firstThirteenBytesDecide s hc buf
  have hshort : buf.length ≤ 4 → exec (.resolve buf) s = .next (answers s .incomplete .header) :=
    fun hb => exec_resolve_raise (decodeFrame_short hc (by omega))
  cases hd : decodeFrame s.cfg buf with
  | error e =>
    obtain ⟨k, i, rfl, hok, hunknown⟩ := decodeFrame_error_inv hc hd
    have hx := exec_resolve_raise hd
    refine ⟨answers s k i, exec_decode_raise hd, fun _ => hx, ?message, fun h => absurd (Option.some.inj h) hok,
      hwindow, hshort, ?unknown⟩
    case message => intro t p n h; cases h
    case unknown =>
      intro y hy h
      rw [hx] at hy
      cases hy
      exact absurd (Option.some.inj h) hunknown
  | ok d =>
    obtain ⟨t, p, k⟩ := d
    refine ⟨okMessage s t p k, exec_decode_ok hd, fun h => absurd rfl h, ?message, fun _ => ⟨t, p, k, rfl⟩, hwindow,
      hshort, fun _ _ _ => rfl⟩
    rintro t' p' k' h
    cases h
    exact ⟨fun v hm => exec_resolve_ok hd (lookupType_of_mem hc.registry hm),
      fun hm => exec_resolve_lookup_raise hd (lookupType_of_not_mem hm)⟩

end Sys2Proof.Proofs.TypeDispatch

/-! PROOF. The family 42_channel_layer.md: CHBUILD, CHVIEW and CHSET (R181 to R183), their laws (R184), and the BUILD
and VIEW of a channel-scoped variant, which are CHBUILD and CHVIEW (R185). -/

namespace Sys2Proof.Proofs.ChannelLayer
open Machine Safety StateInvariant

variable {s : State}

/-! CHBUILD ends as channelPayload does. -/

theorem exec_chbuild_raise (t : Int) {chan : Int} {extra : Bytes} {e : Status} {i : Info}
    (h : channelPayload s.cfg chan extra = .error (.raise e i)) :
    exec (.chbuild t chan extra) s = .next (answers s e i) := by
  simp only [exec, execChbuild, h, finish_raise, answers]

theorem exec_chbuild_ok (hc : ConfigLegal s.cfg) (t : Int) (chan : Byte) {extra : Bytes} (he : extra.length ≤ 8) :
    exec (.chbuild t chan.toNat extra) s =
      .next { s with res := { status := some .ok, payout := some (chan :: extra), msgType := some t } } := by
  simp only [exec, execChbuild, channelPayload_ok hc he, finish_ok]

/-- Settles O21: one clause per way channelPayload ends. -/
theorem chbuildLaysOutChannelFirst : Obligations.ChbuildLaysOutChannelFirst :=
  fun _ hc t _ => ⟨fun chan he => exec_chbuild_ok hc t chan he,
    fun _ hr => exec_chbuild_raise t (channelPayload_range hr),
    fun _ he => exec_chbuild_raise t (channelPayload_length hc he)⟩

/-! CHVIEW takes the payload apart at its first byte. -/

/-- The channel is the payload's first byte (30_encoding.md R100). -/
theorem getBySpec_channel (f : Field) (chan : Byte) (extra : Bytes) :
    getBySpec f channelSpec (chan :: extra) = .ok (.num chan.toNat) :=
  getBySpec_split (d := channelSpec) (pre := []) (mid := [chan]) (post := extra) rfl rfl (.inl rfl)

theorem exec_chview_cons (chan : Byte) (extra : Bytes) :
    exec (.chview (chan :: extra)) s =
      .next (okFields s [(channelField, .num chan.toNat), (⟨.channelLayer, .extra⟩, .str extra)]) := by
  have hextra : memRead (chan :: extra) 1 ((chan :: extra).length - 1) = .ok extra := by
    simpa using memRead_split (pre := [chan]) (mid := extra) (post := [])
  simp only [exec, execChview, getBySpec_channel, hextra, fieldsOf, finish_ok, okFields]

theorem exec_chview_nil : exec (.chview []) s = .fault (.fieldAbsent channelField) := by
  have hchan : getBySpec channelField channelSpec [] = .error (.fault (.fieldAbsent channelField)) :=
    getBySpec_absent rfl Nat.zero_lt_one
  simp only [exec, execChview, hchan, fieldsOf, finish_fault]

/-- Settles O22: a payload has a first byte or is empty. -/
theorem chviewSplitsChannel : Obligations.ChviewSplitsChannel :=
  fun _ => ⟨exec_chview_cons, exec_chview_nil⟩

/-! CHSET is the SET of a byte at offset 0. -/

/-- An operation that ends as the SET of a mandatory one-byte field does is a SET of that byte
(43_variants_config.md R198). -/
theorem setsByte_of_setBySpec {set : Payload → Int → Instr} {f : Field} {d : FieldSpec} (hk : d.kind = .byte)
    (ho : d.optional = false) (h : ∀ p v, exec (set p v) s = payoutOf s (setBySpec f d p (.num v))) :
    SetsByte set f d.offset s := by
  have hbyte (v : Byte) : inRange d.kind (.num v.toNat) = true := by rw [hk, inRange_of_byte]
  refine ⟨fun pre b post v hpre => ?write, fun p v hp => ?absent, fun p v hv => ?range⟩
  case write =>
    have hset := setBySpec_split (f := f) (mid := [b]) (post := post) (hbyte v) hpre (by rw [hk]; rfl) (.inl ho)
    rw [hk, fieldBytes_byte] at hset
    rw [h, List.append_cons pre b, List.append_cons pre v, hset]
    rfl
  case absent =>
    rw [h, setBySpec_absent (hbyte v) (.inl ho) (by rw [hk]; exact Nat.lt_succ_of_le hp)]
    rfl
  case range =>
    rw [h, setBySpec_range (by rw [hk, inRange_byte_false hv])]
    rfl

/-- Settles O23: CHSET is the SET of the field channel. -/
theorem chsetReplacesChannel : Obligations.ChsetReplacesChannel :=
  fun _ => setsByte_of_setBySpec (d := channelSpec) rfl rfl fun _ _ => rfl

theorem exec_chset_cons (b c : Byte) (extra : Bytes) :
    exec (.chset (b :: extra) c.toNat) s = .next (okPayout s (c :: extra)) := by
  obtain ⟨hwrite, -, -⟩ := chsetReplacesChannel s
  exact hwrite [] b extra c rfl

/-- Settles O24: a payload that is not empty is a channel and what follows it, which is what CHBUILD joins, CHVIEW
takes apart and CHSET replaces the head of. -/
theorem channelLayerLaws : Obligations.ChannelLayerLaws := by
  refine fun s hc => ⟨fun t c extra he => ?viewOfBuild, fun t p hne hl => ?buildOfView, fun p c hne => ?viewOfSet⟩
  case viewOfBuild => exact ⟨_, _, exec_chbuild_ok hc t c he, rfl, _, exec_chview_cons c extra, rfl⟩
  case buildOfView =>
    obtain ⟨b, extra, rfl⟩ := List.exists_cons_of_ne_nil hne
    exact ⟨_, _, _, exec_chview_cons b extra, rfl, _, exec_chbuild_ok hc t b (Nat.le_of_succ_le_succ hl), rfl⟩
  case viewOfSet =>
    obtain ⟨b, extra, rfl⟩ := List.exists_cons_of_ne_nil hne
    exact ⟨_, _, _, _, exec_chset_cons b c extra, rfl, _, _, exec_chview_cons b extra, exec_chview_cons c extra,
      rfl, rfl⟩

/-! The row of a variant: one per id, and a channel-scoped one begins with the channel (30_encoding.md R100). -/

/-- Ids being distinct, a row of the table is what its variant finds. -/
theorem rowOf_of_mem {c : Config} (hc : ConfigLegal c) {v : Variant} {r : VariantRow} (hr : r ∈ c.vtab)
    (hid : r.id = variantId v) : rowOf c v = some r := by
  have hids := hc.vtab.ids
  unfold rowOf
  generalize c.vtab = w at hr hids
  induction w with
  | nil => cases hr
  | cons q w ih =>
    rw [List.pairwise_cons] at hids
    obtain ⟨hq, hids⟩ := hids
    rcases List.mem_cons.mp hr with rfl | hr
    · simp [hid]
    · have hne : q.id ≠ variantId v := hid ▸ hq r hr
      simpa [List.find?_cons, hne] using ih hr hids

theorem buildRow_of_row {c : Config} {v : Variant} {r : VariantRow} (h : rowOf c v = some r) (xs : List FieldVal) :
    buildRow c v xs = buildFields v r.fields xs := by simp only [buildRow, h]

theorem viewRow_of_row {c : Config} {v : Variant} {r : VariantRow} (h : rowOf c v = some r) (p : Payload) :
    viewRow c v p = viewFields v p r.fields := by simp only [viewRow, h]

/-- The fields of a channel-scoped row are the channel and fields from offset 1 on. -/
theorem fields_of_channelScoped {r : VariantRow} (hr : RowLegal r) (hs : r.scope = .channelScoped) :
    r.fields = channelSpec :: r.fields.tail ∧ ∀ d ∈ r.fields.tail, 1 ≤ d.offset := by
  have hfields := List.eq_cons_of_mem_head? (hr.channel hs)
  have hgap := hr.gapless
  rw [hfields] at hgap
  obtain ⟨-, htail⟩ := Bool.and_eq_true_iff.mp hgap
  exact ⟨hfields, fun d hd => gapless_le htail hd⟩

/-! BUILD and VIEW of a row that begins with the channel. -/

/-- BUILD of a row that begins with the channel is the channel and the BUILD of the fields after it. -/
theorem buildFields_channel_inv {v : Variant} {ds : List FieldSpec} {c : Byte} {xs : List FieldVal} {p : Payload}
    (h : buildFields v (channelSpec :: ds) (.num c.toNat :: xs) = .ok p) :
    ∃ own, buildFields v ds xs = .ok own ∧ p = c :: own := by
  have hbyte : inRange channelSpec.kind (.num c.toNat) = true := inRange_of_byte c
  simp only [buildFields, hbyte, Bool.true_eq_false, if_false] at h
  split at h
  · cases h
  · rename_i own hown
    cases h
    exact ⟨own, hown, by rw [show channelSpec.kind = .byte from rfl, fieldBytes_byte, List.singleton_append]⟩

/-- The layout of a field in what follows the channel byte. -/
def afterChannel (d : FieldSpec) : FieldSpec := { d with offset := d.offset - 1 }

/-- A field after the channel reads the same in what follows it, one offset lower. -/
theorem getBySpec_cons (f : Field) {d : FieldSpec} (ho : 1 ≤ d.offset) (c : Byte) (extra : Bytes) :
    getBySpec f d (c :: extra) = getBySpec f (afterChannel d) extra := by
  obtain ⟨name, off, kind, opt⟩ := d
  obtain ⟨k, rfl⟩ : ∃ k, off = k + 1 := ⟨off - 1, (Nat.sub_add_cancel ho).symm⟩
  simp only [getBySpec, afterChannel, memRead, slice?, List.length_cons, List.drop_succ_cons, Nat.add_sub_cancel,
    Nat.add_right_comm k 1, Nat.add_right_cancel_iff, Nat.add_le_add_iff_right, gt_iff_lt, Nat.add_lt_add_iff_right]

theorem viewFields_cons (v : Variant) (c : Byte) (extra : Bytes) {ds : List FieldSpec}
    (ho : ∀ d ∈ ds, 1 ≤ d.offset) :
    viewFields v (c :: extra) ds = viewFields v extra (ds.map afterChannel) := by
  induction ds with
  | nil => rfl
  | cons d ds ih =>
    obtain ⟨hd, hds⟩ := List.forall_mem_cons.mp ho
    rw [List.map_cons, viewFields, viewFields, getBySpec_cons _ hd, ih hds]
    rfl

/-- VIEW of a row that begins with the channel is the channel and the VIEW of the fields after it, in the rest of the
payload. -/
theorem viewFields_channel_inv {v : Variant} {ds : List FieldSpec} (ho : ∀ d ∈ ds, 1 ≤ d.offset) {p : Payload}
    {fs : List (Field × FieldVal)} (h : viewFields v p (channelSpec :: ds) = .ok fs) :
    ∃ (c : Byte) (extra : Bytes) (own : List (Field × FieldVal)), p = c :: extra ∧
      fs = (⟨.variant v, .channel⟩, .num c.toNat) :: own ∧
      viewFields v extra (ds.map afterChannel) = .ok own := by
  cases p with
  | nil => cases h
  | cons c extra =>
    rw [viewFields, getBySpec_channel, viewFields_cons v c extra ho] at h
    cases hown : viewFields v extra (ds.map afterChannel) with
    | error e => rw [hown] at h; cases h
    | ok own => rw [hown] at h; cases h; exact ⟨c, extra, own, rfl, rfl, hown⟩

/-! What a BUILD or a VIEW that answers its result has done. -/

theorem buildOp_payout_inv {v : Variant} {xs : List FieldVal} {x : State} {p : Payload}
    (hx : buildOp v xs s = .next x) (hp : x.res.payout = some p) : buildRow s.cfg v xs = .ok p := by
  unfold buildOp at hx
  cases h : buildRow s.cfg v xs with
  | ok q => rw [h] at hx; cases hx; cases hp; rfl
  | error e => rw [h] at hx; cases e <;> cases hx; cases hp

theorem viewOp_fields_inv {v : Variant} {p : Payload} {y : State} {fs : List (Field × FieldVal)}
    (hy : viewOp v p s = .next y) (hf : y.res.fields = some fs) : viewRow s.cfg v p = .ok fs := by
  unfold viewOp at hy
  cases h : viewRow s.cfg v p with
  | ok gs => rw [h] at hy; cases hy; cases hf; rfl
  | error e => rw [h] at hy; cases e <;> cases hy; cases hf

/-- Settles O25: the row begins with the channel, so BUILD and VIEW are the channel and the BUILD and VIEW of the
fields after it; CHBUILD takes those bytes because what BUILD answers fits a payload. -/
theorem channelScopedBuildIsChbuild : Obligations.ChannelScopedBuildIsChbuild := by
  intro s hc v r hr hid hs
  have hrow : rowOf s.cfg v = some r := rowOf_of_mem hc (hc.vtab.catalogue.subset hr) hid
  obtain ⟨hfields, hoff⟩ := fields_of_channelScoped (rowOf_rowLegal hc hrow) hs
  refine ⟨fun c xs x p t hx hp => ?build, fun p y fs hy hf => ?view⟩
  case build =>
    have hb := buildOp_payout_inv hx hp
    have hlen := buildRow_fits hc hb
    rw [buildRow_of_row hrow, hfields] at hb
    obtain ⟨own, hown, rfl⟩ := buildFields_channel_inv hb
    exact ⟨own, hown, exec_chbuild_ok hc t c (Nat.le_of_succ_le_succ hlen)⟩
  case view =>
    have hv := viewOp_fields_inv hy hf
    rw [viewRow_of_row hrow, hfields] at hv
    obtain ⟨c, extra, own, rfl, rfl, hown⟩ := viewFields_channel_inv hoff hv
    exact ⟨_, c, extra, own, exec_chview_cons c extra, rfl, rfl, hown⟩

end Sys2Proof.Proofs.ChannelLayer

/-! PROOF. What BUILD, VIEW, GET and SET of a variant answer, by the row of the variant (43_variants_config.md R197 to
R199): the general layer under the statements of each variant. -/

namespace Sys2Proof.Proofs.RowAccess
open Machine Safety StateInvariant ChannelLayer

variable {s : State} {v : Variant} {r : VariantRow}

/-! Ranges. -/

theorem inRange_false_iff {k : FieldKind} {x : FieldVal} : inRange k x = false ↔ OutOfRange k x := by
  cases k <;> cases x <;> simp [inRange, OutOfRange] <;> omega

theorem inRange_iff {k : FieldKind} {x : FieldVal} : inRange k x = true ↔ ¬ OutOfRange k x := by
  rw [← inRange_false_iff, Bool.not_eq_false]

theorem byte_outOfRange {a : Int} (h : a < 0 ∨ 255 < a) : OutOfRange .byte (.num a) := h

theorem half_outOfRange {a : Int} (h : a < 0 ∨ 65535 < a) : OutOfRange .half (.num a) := h

theorem str_outOfRange {k : Nat} {b : Bytes} (h : b.length ≠ k) : OutOfRange (.str k) (.str b) := h

theorem byte_not_outOfRange {a : Int} (h : 0 ≤ a ∧ a ≤ 255) : ¬ OutOfRange .byte (.num a) :=
  inRange_iff.mp (inRange_byte_iff.mpr h)

theorem half_not_outOfRange {a : Int} (h : 0 ≤ a ∧ a ≤ 65535) : ¬ OutOfRange .half (.num a) :=
  inRange_iff.mp (inRange_half_iff.mpr h)

theorem inRange_byte_iff_exists {a : Int} : inRange .byte (.num a) = true ↔ ∃ b : Byte, a = b.toNat := by
  rw [inRange_byte_iff]
  exact ⟨fun h => byte_of_int h.1 h.2, fun ⟨b, hb⟩ => hb ▸ inRange_byte_iff.mp (inRange_of_byte b)⟩

theorem fieldBytes_append (lo hi : Byte) : fieldBytes .half (.num (hi ++ lo).toNat) = [lo, hi] := by
  obtain ⟨-, h⟩ := fieldBytes_fieldOf (k := .half) (s := [lo, hi]) rfl
  rwa [fieldOf_half] at h

/-! BUILD (R199). -/

section Build
variable {n : FieldName} {off : Nat} {k : FieldKind} {opt : Bool} {ds : List FieldSpec} {x : FieldVal}
  {xs : List FieldVal}

theorem buildFields_head (hx : OutOfRange k x) :
    buildFields v (⟨n, off, k, opt⟩ :: ds) (x :: xs) = .error (.raise .malformed (.fieldRange (fieldIn v n))) := by
  simp only [buildFields, inRange_false_iff.mpr hx, if_true, fieldIn]

theorem buildFields_tail (hx : ¬ OutOfRange k x) {e : Stop} (h : buildFields v ds xs = .error e) :
    buildFields v (⟨n, off, k, opt⟩ :: ds) (x :: xs) = .error e := by
  simp only [buildFields, inRange_iff.mpr hx, Bool.true_eq_false, if_false, h]

end Build

/-- The first value out of range is reported. -/
theorem buildFields_range {ds : List FieldSpec} {xs : List FieldVal} {before after : List (FieldSpec × FieldVal)}
    {d : FieldSpec} {x : FieldVal} (hz : ds.zip xs = before ++ (d, x) :: after)
    (hb : ∀ z ∈ before, ¬ OutOfRange z.1.kind z.2) (hx : OutOfRange d.kind x) :
    buildFields v ds xs = .error (.raise .malformed (.fieldRange (fieldIn v d.name))) := by
  induction before generalizing ds xs with
  | nil =>
    obtain ⟨_, _, rfl, rfl, -⟩ := List.zip_eq_cons_iff.mp hz
    exact buildFields_head hx
  | cons z before ih =>
    obtain ⟨_, _, rfl, rfl, htail⟩ := List.zip_eq_cons_iff.mp hz
    obtain ⟨hy, hb⟩ := List.forall_mem_cons.mp hb
    exact buildFields_tail hy (ih htail.symm hb)

theorem buildOp_of_row (hr : rowOf s.cfg v = some r) (xs : List FieldVal) :
    buildOp v xs s = payoutOf s (buildFields v r.fields xs) := by
  rw [buildOp, buildRow_of_row hr]

/-- BUILD with a value within its range for every field answers the bytes of the values in order. -/
theorem buildOp_ok (hr : rowOf s.cfg v = some r) {xs : List FieldVal} (hl : xs.length = r.fields.length)
    (hx : ∀ z ∈ r.fields.zip xs, ¬ OutOfRange z.1.kind z.2) :
    buildOp v xs s = .next (okPayout s ((r.fields.zip xs).flatMap fun z => fieldBytes z.1.kind z.2)) := by
  rw [buildOp_of_row hr, buildFields_ok (fun d hd => by simp [hl] at hd) fun z hz => inRange_iff.mpr (hx z hz)]
  rfl

theorem buildOp_error (hr : rowOf s.cfg v = some r) {xs : List FieldVal} {c : Status} {i : Info}
    (h : buildFields v r.fields xs = .error (.raise c i)) : buildOp v xs s = .next (answers s c i) := by
  rw [buildOp_of_row hr, h]
  rfl

/-! One field of a payload. -/

/-- A payload is what comes before a field, the field, and what comes after it. -/
theorem payload_split {p : Payload} {o w : Nat} : p.take o ++ (p.drop o).take w ++ p.drop (o + w) = p := by
  rw [← List.drop_drop, List.append_assoc, List.take_append_drop, List.take_append_drop]

theorem getBySpec_reached {f : Field} {d : FieldSpec} {p : Payload} (hw : 0 < kindWidth d.kind)
    (h : d.offset + kindWidth d.kind ≤ p.length) :
    getBySpec f d p = .ok (fieldOf d.kind ((p.drop d.offset).take (kindWidth d.kind))) := by
  have hpre : (p.take d.offset).length = d.offset := by rw [List.length_take]; omega
  have hmid : ((p.drop d.offset).take (kindWidth d.kind)).length = kindWidth d.kind := by
    rw [List.length_take, List.length_drop]; omega
  have hget := getBySpec_split (f := f) (post := p.drop (d.offset + kindWidth d.kind)) hpre hmid
    (.inr (hw.trans_eq hmid.symm))
  rwa [payload_split] at hget

theorem setBySpec_reached {f : Field} {d : FieldSpec} {p : Payload} {x : FieldVal} (hw : 0 < kindWidth d.kind)
    (hx : inRange d.kind x = true) (h : d.offset + kindWidth d.kind ≤ p.length) :
    setBySpec f d p x = .ok (p.take d.offset ++ fieldBytes d.kind x ++ p.drop (d.offset + kindWidth d.kind)) := by
  have hpre : (p.take d.offset).length = d.offset := by rw [List.length_take]; omega
  have hmid : ((p.drop d.offset).take (kindWidth d.kind)).length = kindWidth d.kind := by
    rw [List.length_take, List.length_drop]; omega
  have hset := setBySpec_split (f := f) (post := p.drop (d.offset + kindWidth d.kind)) hx hpre hmid
    (.inr (hw.trans_eq hmid.symm))
  rwa [payload_split] at hset

theorem getBySpec_notReached {f : Field} {d : FieldSpec} {p : Payload} (h : NotReached d p) :
    getBySpec f d p = .error (.fault (.fieldAbsent f)) := by
  obtain ⟨hshort, hopt⟩ := h
  obtain ⟨ho, hl, -⟩ | ⟨-, h⟩ | ⟨_, _, _, rfl, hpre, hmid, -⟩ := getBySpec_cases f d p
  · exact absurd hl (hopt ho)
  · exact h
  · simp only [List.length_append] at hshort; omega

theorem setBySpec_notReached {f : Field} {d : FieldSpec} {p : Payload} {x : FieldVal} (hx : inRange d.kind x = true)
    (h : NotReached d p) : setBySpec f d p x = .error (.fault (.fieldAbsent f)) := by
  obtain ⟨hshort, hopt⟩ := h
  refine setBySpec_absent hx ?_ hshort
  cases ho : d.optional with
  | false => exact .inl rfl
  | true => exact .inr (hopt ho)

/-! GET and SET (R197, R198). -/

theorem getOp_of_spec {n : FieldName} {d : FieldSpec} (hd : specOf s.cfg v n = some d) (p : Payload) :
    getOp v n p s = fieldsOf s ((getBySpec (fieldIn v n) d p).map fun x => [(fieldIn v n, x)]) := by
  simp only [getOp, getRow, hd, fieldIn]

theorem setOp_of_spec {n : FieldName} {d : FieldSpec} (hd : specOf s.cfg v n = some d) (p : Payload) (x : FieldVal) :
    setOp v n p x s = payoutOf s (setBySpec (fieldIn v n) d p x) := by
  simp only [setOp, setRow, hd, fieldIn]

section Field
variable {n : FieldName} {d : FieldSpec} (hd : specOf s.cfg v n = some d)
include hd

theorem getOp_reached {p : Payload} (hw : 0 < kindWidth d.kind) (h : d.offset + kindWidth d.kind ≤ p.length) :
    getOp v n p s =
      .next (okFields s [(fieldIn v n, fieldOf d.kind ((p.drop d.offset).take (kindWidth d.kind)))]) := by
  rw [getOp_of_spec hd, getBySpec_reached hw h]
  rfl

theorem getOp_notReached {p : Payload} (h : NotReached d p) : getOp v n p s = .fault (.fieldAbsent (fieldIn v n)) := by
  rw [getOp_of_spec hd, getBySpec_notReached h]
  rfl

theorem setOp_range {p : Payload} {x : FieldVal} (hx : OutOfRange d.kind x) :
    setOp v n p x s = .next (answers s .malformed (.fieldRange (fieldIn v n))) := by
  rw [setOp_of_spec hd, setBySpec_range (inRange_false_iff.mpr hx)]
  rfl

theorem setOp_reached {p : Payload} {x : FieldVal} (hw : 0 < kindWidth d.kind) (hx : inRange d.kind x = true)
    (h : d.offset + kindWidth d.kind ≤ p.length) :
    setOp v n p x s =
      .next (okPayout s (p.take d.offset ++ fieldBytes d.kind x ++ p.drop (d.offset + kindWidth d.kind))) := by
  rw [setOp_of_spec hd, setBySpec_reached hw hx h]
  rfl

theorem setOp_notReached {p : Payload} {x : FieldVal} (hx : inRange d.kind x = true) (h : NotReached d p) :
    setOp v n p x s = .fault (.fieldAbsent (fieldIn v n)) := by
  rw [setOp_of_spec hd, setBySpec_notReached hx h]
  rfl

end Field

/-! VIEW (R197). -/

theorem viewOp_of_row (hr : rowOf s.cfg v = some r) (p : Payload) :
    viewOp v p s = fieldsOf s (viewFields v p r.fields) := by
  rw [viewOp, viewRow_of_row hr]

/-- The bytes of the values of the fields of a row, at the fields' offsets, read as those values, whatever follows. -/
theorem viewFields_fieldBytes {ds : List FieldSpec} {xs : List FieldVal} {pre : Bytes}
    (hg : gapless pre.length ds = true) (hw : ∀ d ∈ ds, 0 < kindWidth d.kind) (hl : ds.length ≤ xs.length)
    (hx : ∀ z ∈ ds.zip xs, inRange z.1.kind z.2 = true) (rest : Bytes) :
    viewFields v (pre ++ ((ds.zip xs).flatMap fun z => fieldBytes z.1.kind z.2) ++ rest) ds =
      .ok (List.zipWith (fun d x => (fieldIn v d.name, x)) ds xs) := by
  induction ds generalizing xs pre with
  | nil => rfl
  | cons d ds ih =>
    cases xs with
    | nil => cases hl
    | cons x xs =>
      simp only [gapless, Bool.and_eq_true, decide_eq_true_eq] at hg
      obtain ⟨ho, hg⟩ := hg
      obtain ⟨hwd, hw⟩ := List.forall_mem_cons.mp hw
      rw [List.zip_cons_cons, List.forall_mem_cons] at hx
      obtain ⟨hxd, hx⟩ := hx
      have hlen : (fieldBytes d.kind x).length = kindWidth d.kind := fieldBytes_length hxd
      have hget : ∀ post, getBySpec (fieldIn v d.name) d (pre ++ fieldBytes d.kind x ++ post) = .ok x := fun post => by
        rw [getBySpec_split ho.symm hlen (.inr (hlen ▸ hwd)), fieldOf_fieldBytes hxd]
      have hrest := ih (pre := pre ++ fieldBytes d.kind x) (by rw [List.length_append, hlen]; exact hg) hw
        (Nat.le_of_succ_le_succ hl) hx
      simp only [List.zip_cons_cons, List.flatMap_cons, List.zipWith_cons_cons]
      rw [← List.append_assoc, viewFields, hrest, List.append_assoc (_ ++ _), ← fieldIn, hget]

/-- VIEW of the bytes of one value per field answers the values, whatever follows the bytes. -/
theorem viewOp_fieldBytes (hc : ConfigLegal s.cfg) (hr : rowOf s.cfg v = some r) {xs : List FieldVal}
    (hl : r.fields.length ≤ xs.length) (hx : ∀ z ∈ r.fields.zip xs, inRange z.1.kind z.2 = true) (rest : Bytes) :
    viewOp v (((r.fields.zip xs).flatMap fun z => fieldBytes z.1.kind z.2) ++ rest) s =
      .next (okFields s (List.zipWith (fun d x => (fieldIn v d.name, x)) r.fields xs)) := by
  have hrow := rowOf_rowLegal hc hr
  rw [viewOp_of_row hr, ← List.nil_append (_ ++ rest), ← List.append_assoc,
    viewFields_fieldBytes (pre := []) hrow.gapless hrow.positive hl hx]
  rfl

/-- VIEW fails at the field in which the payload ends, since it reaches all fields before it. -/
theorem viewFields_notReached {ds : List FieldSpec} {o : Nat} {d : FieldSpec} {p : Payload}
    (hg : gapless o ds = true) (hw : ∀ e ∈ ds, 0 < kindWidth e.kind) (hd : d ∈ ds) (hlo : d.offset ≤ p.length)
    (h : NotReached d p) : viewFields v p ds = .error (.fault (.fieldAbsent (fieldIn v d.name))) := by
  induction ds generalizing o with
  | nil => cases hd
  | cons e ds ih =>
    simp only [gapless, Bool.and_eq_true, decide_eq_true_eq] at hg
    obtain ⟨ho, hg⟩ := hg
    obtain ⟨hwe, hw⟩ := List.forall_mem_cons.mp hw
    rw [viewFields, ← fieldIn]
    rcases List.mem_cons.mp hd with rfl | hd
    · rw [getBySpec_notReached h]
    · have hle := gapless_le hg hd
      rw [getBySpec_reached hwe (by omega), ih hg hw hd]

theorem viewOp_notReached (hc : ConfigLegal s.cfg) (hr : rowOf s.cfg v = some r) {d : FieldSpec} (hd : d ∈ r.fields)
    {p : Payload} (hlo : d.offset ≤ p.length) (h : NotReached d p) :
    viewOp v p s = .fault (.fieldAbsent (fieldIn v d.name)) := by
  have hrow := rowOf_rowLegal hc hr
  rw [viewOp_of_row hr, viewFields_notReached hrow.gapless hrow.positive hd hlo h]
  rfl

/-! GET after SET (R199). -/

/-- After its SET a field reads as the value set. -/
theorem getBySpec_of_set {f g : Field} {d : FieldSpec} {p q : Payload} {x : FieldVal} (hw : 0 < kindWidth d.kind)
    (h : setBySpec f d p x = .ok q) : getBySpec g d q = .ok x := by
  obtain ⟨-, h'⟩ | ⟨hx, -, hl, h'⟩ | ⟨-, h'⟩ | ⟨hx, pre, mid, post, -, hpre, -, h'⟩ := setBySpec_cases f d p x <;>
    rw [h'] at h <;> cases h
  case inr.inl =>
    have hlen := fieldBytes_length hx
    rw [← List.append_nil (p ++ _), getBySpec_split hl hlen (.inr (hlen ▸ hw)), fieldOf_fieldBytes hx]
  case inr.inr.inr =>
    have hlen := fieldBytes_length hx
    rw [getBySpec_split hpre hlen (.inr (hlen ▸ hw)), fieldOf_fieldBytes hx]

/-- SET changes no byte outside its field. -/
theorem setBySpec_other {f : Field} {d : FieldSpec} {p q : Payload} {x : FieldVal} (h : setBySpec f d p x = .ok q)
    {k : Nat} (hk : k < d.offset ∨ d.offset + kindWidth d.kind ≤ k) : q[k]? = p[k]? := by
  obtain ⟨-, h'⟩ | ⟨hx, -, hl, h'⟩ | ⟨-, h'⟩ | ⟨hx, pre, mid, post, rfl, hpre, hmid, h'⟩ :=
    setBySpec_cases f d p x <;> rw [h'] at h <;> cases h
  case inr.inl =>
    have hlen := fieldBytes_length hx
    rcases hk with hk | hk
    · exact List.getElem?_append_left (hl ▸ hk)
    · rw [List.getElem?_eq_none (by rw [List.length_append]; omega), List.getElem?_eq_none (by omega)]
  case inr.inr.inr =>
    have hlen := fieldBytes_length hx
    rw [← hpre, ← hmid] at hk
    exact memWrite_other (memWrite_split (hlen.trans hmid.symm)) (by rwa [hlen, ← hmid])

/-- A field that does not overlap the field set, and is no optional byte that the SET would bring within reach, reads as
it did before. -/
theorem getBySpec_of_set_other {f g : Field} {d e : FieldSpec} {p q : Payload} {x : FieldVal}
    (h : setBySpec f d p x = .ok q) (hw : 0 < kindWidth e.kind)
    (hdisj : e.offset + kindWidth e.kind ≤ d.offset ∨ d.offset + kindWidth d.kind ≤ e.offset)
    (hopt : d.optional = true → e.optional = false) : getBySpec g e q = getBySpec g e p := by
  have hbytes : (q.drop e.offset).take (kindWidth e.kind) = (p.drop e.offset).take (kindWidth e.kind) := by
    refine List.ext_getElem? fun i => ?_
    by_cases hi : i < kindWidth e.kind
    · simp only [List.getElem?_take, List.getElem?_drop, hi, if_true]
      exact setBySpec_other h (by omega)
    · simp only [List.getElem?_take, hi, if_false]
  obtain hlen | ⟨ho, hp, hq⟩ := setBySpec_length h
  · simp only [getBySpec, memRead, slice?, hlen, hbytes]
  · rcases hdisj with hbefore | hafter
    · rw [getBySpec_reached hw (by omega), getBySpec_reached hw (by omega), hbytes]
    · rw [getBySpec_absent (hopt ho) (by omega), getBySpec_absent (hopt ho) (by omega)]

/-! GET and SET of a field of the catalogue, in the shapes of Safety.GetsByte and its like. -/

section Catalogue
variable {n : FieldName} {o k : Nat} (hc : ConfigLegal s.cfg)
include hc

theorem specOf_of_default {d : FieldSpec} (h : specOf defaultConfig v n = some d) : specOf s.cfg v n = some d := by
  obtain ⟨r, hr, -, -⟩ := specOf_mem h
  rw [specOf_legal hc ((rowOf_default v).mp (hr ▸ rfl)), h]

section Get
variable {get : Payload → Instr} (hg : ∀ p, rowOp (.instr (get p)) = some (v, .get n p))
include hg

theorem exec_get_split {d : FieldSpec} (hd : specOf defaultConfig v n = some d) (ho : d.optional = false)
    {pre mid post : Bytes} (hpre : pre.length = d.offset) (hmid : mid.length = kindWidth d.kind) :
    exec (get (pre ++ mid ++ post)) s = .next (okFields s [(fieldIn v n, fieldOf d.kind mid)]) := by
  rw [← perform, perform_get (hg _), getOp_of_spec (specOf_of_default hc hd), getBySpec_split hpre hmid (.inl ho)]
  rfl

theorem exec_get_absent {d : FieldSpec} (hd : specOf defaultConfig v n = some d) (ho : d.optional = false)
    {p : Payload} (hp : p.length < d.offset + kindWidth d.kind) :
    exec (get p) s = .fault (.fieldAbsent (fieldIn v n)) := by
  rw [← perform, perform_get (hg _), getOp_of_spec (specOf_of_default hc hd), getBySpec_absent ho hp]
  rfl

theorem getsByte (hd : specOf defaultConfig v n = some ⟨n, o, .byte, false⟩) : GetsByte get (fieldIn v n) o s :=
  ⟨fun pre b post hpre => List.append_cons pre b post ▸ exec_get_split hc hg hd rfl hpre rfl,
    fun _ hp => exec_get_absent hc hg hd rfl (Nat.lt_succ_of_le hp)⟩

theorem getsHalf (hd : specOf defaultConfig v n = some ⟨n, o, .half, false⟩) : GetsHalf get (fieldIn v n) o s := by
  refine ⟨fun pre lo hi post hpre => ?_, fun _ hp => exec_get_absent hc hg hd rfl (Nat.lt_succ_of_le hp)⟩
  have hget := exec_get_split hc hg hd rfl (mid := [lo, hi]) (post := post) hpre rfl
  rwa [List.append_assoc, fieldOf_half] at hget

theorem getsStr (hd : specOf defaultConfig v n = some ⟨n, o, .str k, false⟩) : GetsStr k get (fieldIn v n) o s := by
  refine ⟨fun pre str post hpre hstr => ?_, fun _ hp => exec_get_absent hc hg hd rfl hp⟩
  rw [← fieldOf_str k]
  exact exec_get_split hc hg hd rfl hpre hstr

end Get

section Set
variable {α : Type} {set : Payload → α → Instr} {val : α → FieldVal}
  (hg : ∀ p x, rowOp (.instr (set p x)) = some (v, .set n p (val x)))
include hg

theorem exec_set_split {d : FieldSpec} (hd : specOf defaultConfig v n = some d) (ho : d.optional = false)
    {pre mid post : Bytes} {x : α} (hx : inRange d.kind (val x) = true) (hpre : pre.length = d.offset)
    (hmid : mid.length = kindWidth d.kind) :
    exec (set (pre ++ mid ++ post) x) s = .next (okPayout s (pre ++ fieldBytes d.kind (val x) ++ post)) := by
  rw [← perform, perform_set hc (hg _ _), setOp_of_spec (specOf_of_default hc hd),
    setBySpec_split hx hpre hmid (.inl ho)]
  rfl

theorem exec_set_absent {d : FieldSpec} (hd : specOf defaultConfig v n = some d) (ho : d.optional = false)
    {p : Payload} {x : α} (hx : inRange d.kind (val x) = true) (hp : p.length < d.offset + kindWidth d.kind) :
    exec (set p x) s = .fault (.fieldAbsent (fieldIn v n)) := by
  rw [← perform, perform_set hc (hg _ _), setOp_of_spec (specOf_of_default hc hd), setBySpec_absent hx (.inl ho) hp]
  rfl

theorem exec_set_range {d : FieldSpec} (hd : specOf defaultConfig v n = some d) (p : Payload) {x : α}
    (hx : OutOfRange d.kind (val x)) : exec (set p x) s = .next (answers s .malformed (.fieldRange (fieldIn v n))) := by
  rw [← perform, perform_set hc (hg _ _), setOp_range (specOf_of_default hc hd) hx]

end Set

theorem setsByte {set : Payload → Int → Instr} (hg : ∀ p x, rowOp (.instr (set p x)) = some (v, .set n p (.num x)))
    (hd : specOf defaultConfig v n = some ⟨n, o, .byte, false⟩) : SetsByte set (fieldIn v n) o s := by
  refine ⟨fun pre b post x hpre => ?_,
    fun p x hp => exec_set_absent hc hg hd rfl (inRange_of_byte x) (Nat.lt_succ_of_le hp),
    fun p x hx => exec_set_range hc hg hd p hx⟩
  have hset := exec_set_split hc hg hd rfl (mid := [b]) (post := post) (inRange_of_byte x) hpre rfl
  rwa [fieldBytes_byte, List.append_assoc, List.append_assoc] at hset

theorem setsHalf {set : Payload → Int → Instr} (hg : ∀ p x, rowOp (.instr (set p x)) = some (v, .set n p (.num x)))
    (hd : specOf defaultConfig v n = some ⟨n, o, .half, false⟩) : SetsHalf set (fieldIn v n) o s := by
  refine ⟨fun pre lo hi post x hpre => ?_,
    fun p x hp => exec_set_absent hc hg hd rfl (inRange_of_half x) (Nat.lt_succ_of_le hp),
    fun p x hx => exec_set_range hc hg hd p hx⟩
  have hset := exec_set_split hc hg hd rfl (mid := [lo, hi]) (post := post) (inRange_of_half x) hpre rfl
  rwa [fieldBytes_half, List.append_assoc, List.append_assoc] at hset

theorem setsStr {set : Payload → Bytes → Instr} (hg : ∀ p x, rowOp (.instr (set p x)) = some (v, .set n p (.str x)))
    (hd : specOf defaultConfig v n = some ⟨n, o, .str k, false⟩) : SetsStr k set (fieldIn v n) o s :=
  ⟨fun _ _ _ _ hpre hold hx => exec_set_split hc hg hd rfl (inRange_str_iff.mpr hx) hpre hold,
    fun _ _ hx hp => exec_set_absent hc hg hd rfl (inRange_str_iff.mpr hx) hp,
    fun p _ hx => exec_set_range hc hg hd p hx⟩

end Catalogue

/-! BUILD and VIEW of the rows of the catalogue, by the kinds of their fields. -/

section Shapes
variable {id : BitVec 5} {sc : Scope} {len k : Nat} {l m n : FieldName} (hc : ConfigLegal s.cfg)

include hc

/-- BUILD and VIEW of a row of one byte. -/
theorem oneByteRow (hd : rowOf defaultConfig v = some ⟨id, sc, len, [⟨l, 0, .byte, false⟩]⟩) :
    (∀ a : Byte, buildOp v [.num a.toNat] s = .next (okPayout s [a])) ∧
    (∀ a : Int, a < 0 ∨ 255 < a →
      buildOp v [.num a] s = .next (answers s .malformed (.fieldRange (fieldIn v l)))) ∧
    (∀ (a : Byte) (rest : Bytes), viewOp v (a :: rest) s = .next (okFields s [(fieldIn v l, .num a.toNat)])) ∧
    (∀ p : Payload, p.length < 1 → viewOp v p s = .fault (.fieldAbsent (fieldIn v l))) := by
  have hr := rowOf_legal hc hd
  refine ⟨fun a => ?build, fun a ha => buildOp_error hr (buildFields_head (byte_outOfRange ha)), fun a rest => ?view,
    fun p h => viewOp_notReached hc hr (.head _) (Nat.zero_le _) ⟨h, nofun⟩⟩
  case build => simpa using buildOp_ok hr (xs := [.num a.toNat]) rfl (by simp [← inRange_iff])
  case view => simpa using viewOp_fieldBytes hc hr (xs := [.num a.toNat]) le_rfl (by simp) rest

/-- BUILD and VIEW of a row of two bytes. -/
theorem twoByteRow (hd : rowOf defaultConfig v = some ⟨id, sc, len, [⟨l, 0, .byte, false⟩, ⟨m, 1, .byte, false⟩]⟩) :
    (∀ a b : Byte, buildOp v [.num a.toNat, .num b.toNat] s = .next (okPayout s [a, b])) ∧
    (∀ a b : Int, a < 0 ∨ 255 < a →
      buildOp v [.num a, .num b] s = .next (answers s .malformed (.fieldRange (fieldIn v l)))) ∧
    (∀ a b : Int, 0 ≤ a ∧ a ≤ 255 → b < 0 ∨ 255 < b →
      buildOp v [.num a, .num b] s = .next (answers s .malformed (.fieldRange (fieldIn v m)))) ∧
    (∀ (a b : Byte) (rest : Bytes), viewOp v (a :: b :: rest) s =
      .next (okFields s [(fieldIn v l, .num a.toNat), (fieldIn v m, .num b.toNat)])) ∧
    (∀ p : Payload, p.length < 1 → viewOp v p s = .fault (.fieldAbsent (fieldIn v l))) ∧
    (∀ p : Payload, 1 ≤ p.length → p.length < 2 → viewOp v p s = .fault (.fieldAbsent (fieldIn v m))) := by
  have hr := rowOf_legal hc hd
  refine ⟨fun a b => ?build, fun a b ha => buildOp_error hr (buildFields_head (byte_outOfRange ha)),
    fun a b ha hb => buildOp_error hr
      (buildFields_tail (byte_not_outOfRange ha) (buildFields_head (byte_outOfRange hb))),
    fun a b rest => ?view,
    fun p h => viewOp_notReached hc hr (.head _) (Nat.zero_le _) ⟨h, nofun⟩,
    fun p h1 h => viewOp_notReached hc hr (.tail _ (.head _)) h1 ⟨h, nofun⟩⟩
  case build => simpa using buildOp_ok hr (xs := [.num a.toNat, .num b.toNat]) rfl (by simp [← inRange_iff])
  case view => simpa using viewOp_fieldBytes hc hr (xs := [.num a.toNat, .num b.toNat]) le_rfl (by simp) rest

/-- BUILD and VIEW of a row of three bytes. -/
theorem threeByteRow (hd : rowOf defaultConfig v =
      some ⟨id, sc, len, [⟨l, 0, .byte, false⟩, ⟨m, 1, .byte, false⟩, ⟨n, 2, .byte, false⟩]⟩) :
    (∀ a b c : Byte, buildOp v [.num a.toNat, .num b.toNat, .num c.toNat] s = .next (okPayout s [a, b, c])) ∧
    (∀ a b c : Int, a < 0 ∨ 255 < a →
      buildOp v [.num a, .num b, .num c] s = .next (answers s .malformed (.fieldRange (fieldIn v l)))) ∧
    (∀ a b c : Int, 0 ≤ a ∧ a ≤ 255 → b < 0 ∨ 255 < b →
      buildOp v [.num a, .num b, .num c] s = .next (answers s .malformed (.fieldRange (fieldIn v m)))) ∧
    (∀ a b c : Int, 0 ≤ a ∧ a ≤ 255 → 0 ≤ b ∧ b ≤ 255 → c < 0 ∨ 255 < c →
      buildOp v [.num a, .num b, .num c] s = .next (answers s .malformed (.fieldRange (fieldIn v n)))) ∧
    (∀ (a b c : Byte) (rest : Bytes), viewOp v (a :: b :: c :: rest) s =
      .next (okFields s [(fieldIn v l, .num a.toNat), (fieldIn v m, .num b.toNat), (fieldIn v n, .num c.toNat)])) ∧
    (∀ p : Payload, p.length < 1 → viewOp v p s = .fault (.fieldAbsent (fieldIn v l))) ∧
    (∀ p : Payload, 1 ≤ p.length → p.length < 2 → viewOp v p s = .fault (.fieldAbsent (fieldIn v m))) ∧
    (∀ p : Payload, 2 ≤ p.length → p.length < 3 → viewOp v p s = .fault (.fieldAbsent (fieldIn v n))) := by
  have hr := rowOf_legal hc hd
  refine ⟨fun a b c => ?build, fun a b c ha => buildOp_error hr (buildFields_head (byte_outOfRange ha)),
    fun a b c ha hb => buildOp_error hr
      (buildFields_tail (byte_not_outOfRange ha) (buildFields_head (byte_outOfRange hb))),
    fun a b c h0 h1 h2 => buildOp_error hr (buildFields_tail (byte_not_outOfRange h0)
      (buildFields_tail (byte_not_outOfRange h1) (buildFields_head (byte_outOfRange h2)))),
    fun a b c rest => ?view,
    fun p h => viewOp_notReached hc hr (.head _) (Nat.zero_le _) ⟨h, nofun⟩,
    fun p h1 h => viewOp_notReached hc hr (.tail _ (.head _)) h1 ⟨h, nofun⟩,
    fun p h2 h => viewOp_notReached hc hr (.tail _ (.tail _ (.head _))) h2 ⟨h, nofun⟩⟩
  case build =>
    simpa using buildOp_ok hr (xs := [.num a.toNat, .num b.toNat, .num c.toNat]) rfl (by simp [← inRange_iff])
  case view =>
    simpa using viewOp_fieldBytes hc hr (xs := [.num a.toNat, .num b.toNat, .num c.toNat]) le_rfl (by simp) rest

/-- BUILD and VIEW of a row of a byte and a string. -/
theorem byteStrRow (hd : rowOf defaultConfig v = some ⟨id, sc, len, [⟨l, 0, .byte, false⟩, ⟨m, 1, .str k, false⟩]⟩) :
    (∀ (a : Byte) (b : Bytes), b.length = k → buildOp v [.num a.toNat, .str b] s = .next (okPayout s (a :: b))) ∧
    (∀ (a : Int) (b : Bytes), a < 0 ∨ 255 < a →
      buildOp v [.num a, .str b] s = .next (answers s .malformed (.fieldRange (fieldIn v l)))) ∧
    (∀ (a : Int) (b : Bytes), 0 ≤ a ∧ a ≤ 255 → b.length ≠ k →
      buildOp v [.num a, .str b] s = .next (answers s .malformed (.fieldRange (fieldIn v m)))) ∧
    (∀ (a : Byte) (b rest : Bytes), b.length = k → viewOp v (a :: (b ++ rest)) s =
      .next (okFields s [(fieldIn v l, .num a.toNat), (fieldIn v m, .str b)])) ∧
    (∀ p : Payload, p.length < 1 → viewOp v p s = .fault (.fieldAbsent (fieldIn v l))) ∧
    (∀ p : Payload, 1 ≤ p.length → p.length < 1 + k → viewOp v p s = .fault (.fieldAbsent (fieldIn v m))) := by
  have hr := rowOf_legal hc hd
  refine ⟨fun a b hb => ?build, fun a b ha => buildOp_error hr (buildFields_head (byte_outOfRange ha)),
    fun a b ha hb => buildOp_error hr
      (buildFields_tail (byte_not_outOfRange ha) (buildFields_head (str_outOfRange hb))),
    fun a b rest hb => ?view,
    fun p h => viewOp_notReached hc hr (.head _) (Nat.zero_le _) ⟨h, nofun⟩,
    fun p h1 h => viewOp_notReached hc hr (.tail _ (.head _)) h1 ⟨h, nofun⟩⟩
  case build =>
    simpa using buildOp_ok hr (xs := [.num a.toNat, .str b]) rfl (by simp [← inRange_iff, inRange_str_iff, hb])
  case view =>
    simpa using viewOp_fieldBytes hc hr (xs := [.num a.toNat, .str b]) le_rfl (by simp [inRange_str_iff, hb]) rest

end Shapes

end Sys2Proof.Proofs.RowAccess

/-! PROOF. The family 43_variants_config.md: the laws that the operations of every variant obey (R197 to R199), and the
operations of each configuration variant (R200 to R208). -/

namespace Sys2Proof.Proofs.VariantsConfig
open Machine Safety StateInvariant ChannelLayer RowAccess

variable {s : State} {v : Variant} {r : VariantRow} {o : Operation}

/-! The operations of a variant are the shared ones. -/

theorem perform_build {xs : List FieldVal} (h : rowOp o = some (v, .build xs)) (hxs : v = .systemReset → xs ≠ []) :
    perform o = buildOp v xs := by
  have hm := perform_row h
  generalize perform o = m at hm
  cases hm with
  | build _ _ => rfl
  | buildDefault hv => exact absurd rfl (hxs hv)

theorem perform_viewInstr (h1 : v ≠ .capabilities) (h2 : v ≠ .systemReset) (p : Payload) :
    perform (viewInstr v p) = viewOp v p := by
  have hm := perform_row (rowOp_viewInstr v p)
  generalize perform (viewInstr v p) = m at hm
  cases hm with
  | view _ _ _ => rfl
  | viewNothing _ hv => exact absurd hv h2
  | viewCapabilities _ hv => exact absurd hv h1

/-- A variant of the catalogue has the row of R106 under every legal configuration, and no other. -/
theorem row_eq_default {c : Config} (hc : ConfigLegal c) {q : VariantRow} (hr : rowOf c v = some r)
    (hq : rowOf defaultConfig v = some q) : r = q :=
  Option.some.inj (hr.symm.trans (rowOf_legal hc hq))

/-- A BUILD with one value per field is not the BUILD of SystemReset that takes the configured fill. -/
theorem ne_nil_of_systemReset {c : Config} (hc : ConfigLegal c) (hr : rowOf c v = some r) {xs : List FieldVal}
    (hl : xs.length = r.fields.length) : v = .systemReset → xs ≠ [] := by
  rintro rfl rfl
  rw [row_eq_default hc hr rfl] at hl
  cases hl

theorem payoutOf_inv {e : Except Stop Payload} {y : State} {q : Payload} (h : payoutOf s e = .next y)
    (hq : y.res.payout = some q) : e = .ok q := by
  rcases e with (⟨c, i⟩ | f) | p <;> cases h
  · cases hq
  · exact congrArg _ (Option.some.inj hq)

theorem setRow_inv {c : Config} {n : FieldName} {p q : Payload} {x : FieldVal} (h : setRow c v n p x = .ok q) :
    ∃ d, specOf c v n = some d ∧ setBySpec (fieldIn v n) d p x = .ok q := by
  unfold setRow at h
  split at h
  · cases h
  · exact ⟨_, ‹_›, h⟩

/-! GET after SET. -/

theorem getOp_of_setRow (hc : ConfigLegal s.cfg) {n : FieldName} {p q : Payload} {x : FieldVal}
    (h : setRow s.cfg v n p x = .ok q) : getOp v n q s = .next (okFields s [(fieldIn v n, x)]) := by
  obtain ⟨d, hd, hset⟩ := setRow_inv h
  obtain ⟨r, hr, hmem, -⟩ := specOf_mem hd
  rw [getOp_of_spec hd, getBySpec_of_set ((rowOf_rowLegal hc hr).positive d hmem) hset]
  rfl

/-- A GET of another field answers after the SET what it answered before: the two fields of the row do not overlap. -/
theorem getOp_of_setRow_other (hc : ConfigLegal s.cfg) {n m : FieldName} {p q : Payload} {x : FieldVal}
    (h : setRow s.cfg v n p x = .ok q) (hne : m ≠ n) : getOp v m q s = getOp v m p s := by
  obtain ⟨d, hd, hset⟩ := setRow_inv h
  obtain ⟨r, hr, hdr, hdn⟩ := specOf_mem hd
  have hrow := rowOf_rowLegal hc hr
  cases he : specOf s.cfg v m with
  | none => simp only [getOp, getRow, he]
  | some e =>
    obtain ⟨r', hr', her, hem⟩ := specOf_mem he
    cases hr.symm.trans hr'
    have hed : e ≠ d := fun h => hne (by rw [← hem, ← hdn, h])
    have hopt : d.optional = true → e.optional = false := fun ho => Bool.eq_false_iff.mpr fun heo => by
      obtain ⟨-, hd⟩ := hrow.optional d hdr ho
      obtain ⟨-, he⟩ := hrow.optional e her heo
      exact hed (he.trans hd.symm)
    rw [getOp_of_spec he, getOp_of_spec he, getBySpec_of_set_other hset (hrow.positive e her)
      (gapless_disjoint hrow.gapless hdr her hed) hopt]

/-! VIEW of BUILD. -/

/-- What BUILD of a row without an optional byte answers, VIEW reads back. -/
theorem viewOp_of_buildRow (hc : ConfigLegal s.cfg) (hv : v ≠ .capabilities) {xs : List FieldVal} {p : Payload}
    (hr : rowOf s.cfg v = some r) (h : buildRow s.cfg v xs = .ok p) :
    viewOp v p s = .next (okFields s (List.zipWith (fun d x => (fieldIn v d.name, x)) r.fields xs)) := by
  rw [buildRow_of_row hr] at h
  obtain ⟨hopt, hx, rfl⟩ := buildFields_inv h
  have hl : r.fields.length ≤ xs.length := by
    by_contra hlt
    have hd := List.getElem?_eq_getElem (not_le.mp hlt)
    exact absurd (hopt _ hd) (by rw [optional_eq_false hc hv hr (List.mem_of_getElem? hd)]; decide)
  simpa only [List.append_nil] using viewOp_fieldBytes hc hr hl hx []

/-- A BUILD of Capabilities is given four bytes or five (45_variants_event_response.md R245). -/
theorem build_capabilities_operands {xs : List FieldVal} (h : rowOp o = some (.capabilities, .build xs)) :
    ∃ a b c d : Int, xs = [.num a, .num b, .num c, .num d] ∨
      ∃ e : Int, xs = [.num a, .num b, .num c, .num d, .num e] := by
  cases o with
  | added k op => cases h
  | instr i =>
    cases i
    case capabilities op =>
      cases op with
      | build a b c d e => cases e <;> cases h <;> simp
      | _ => cases h
    all_goals cases h

/-- A BUILD of Capabilities that answers has been given bytes, and VIEW of what it answers reads them back, with
adv-options-2 as 0 and adv2-present false where it was not given (R245). -/
theorem view_of_build_capabilities (hc : ConfigLegal s.cfg) {xs : List FieldVal} {p : Payload}
    (ho : rowOp o = some (.capabilities, .build xs)) (h : buildRow s.cfg .capabilities xs = .ok p) :
    perform (viewInstr .capabilities p) s = .next (okFields s (viewOf s.cfg .capabilities xs)) := by
  have hrow := rowOf_legal hc (v := .capabilities) rfl
  rw [buildRow_of_row hrow] at h
  obtain ⟨-, hx, rfl⟩ := buildFields_inv h
  have hview : ∀ q, perform (viewInstr .capabilities q) s = fieldsOf s ((viewFields .capabilities q _).map fun fs =>
      fs ++ [(fieldIn .capabilities .adv2Present, .flag (decide (5 ≤ q.length)))]) := fun q => by
    rw [← viewRow_of_row hrow]; rfl
  obtain ⟨a, b, c, d, rfl | ⟨e, rfl⟩⟩ := build_capabilities_operands ho <;>
    simp only [List.zip_cons_cons, List.zip_nil_right, List.forall_mem_cons, inRange_byte_iff_exists] at hx
  · obtain ⟨⟨a, rfl⟩, ⟨b, rfl⟩, ⟨c, rfl⟩, ⟨d, rfl⟩, -⟩ := hx
    simp only [hview, List.zip_cons_cons, List.zip_nil_right, List.flatMap_cons, List.flatMap_nil, fieldBytes_byte,
      viewOf, hrow]
    rfl
  · obtain ⟨⟨a, rfl⟩, ⟨b, rfl⟩, ⟨c, rfl⟩, ⟨d, rfl⟩, ⟨e, rfl⟩, -⟩ := hx
    simp only [hview, List.zip_cons_cons, List.zip_nil_right, List.flatMap_cons, List.flatMap_nil, fieldBytes_byte,
      viewOf, hrow]
    rfl

/-- VIEW of what BUILD answers answers what BUILD was given. -/
theorem view_of_build (hc : ConfigLegal s.cfg) {xs : List FieldVal} {p : Payload} {y : State}
    (ho : rowOp o = some (v, .build xs)) (hy : perform o s = .next y) (hp : y.res.payout = some p) :
    perform (viewInstr v p) s = .next (okFields s (viewOf s.cfg v xs)) := by
  by_cases hreset : v = .systemReset
  · subst hreset
    simp only [viewOf, rowOf_legal hc (v := .systemReset) rfl]
    rfl
  · rw [perform_build ho (absurd · hreset)] at hy
    have hb : buildRow s.cfg v xs = .ok p := payoutOf_inv hy hp
    by_cases hcap : v = .capabilities
    · subst hcap
      exact view_of_build_capabilities hc ho hb
    · cases hr : rowOf s.cfg v with
      | none => simp only [buildRow, hr] at hb; cases hb
      | some r => rw [perform_viewInstr hcap hreset, viewOp_of_buildRow hc hcap hr hb, viewOf_row hcap hreset hr]

/-! BUILD of VIEW. -/

/-- The bytes of all the fields of a row are those of some values within range. -/
theorem exists_values {ds : List FieldSpec} {p : Payload} (h : p.length = rowBytes ds) :
    ∃ xs, List.Forall₂ (fun d x => inRange d.kind x = true) ds xs ∧
      (ds.zip xs).flatMap (fun z => fieldBytes z.1.kind z.2) = p := by
  induction ds generalizing p with
  | nil => exact ⟨[], .nil, (List.length_eq_zero_iff.mp h).symm⟩
  | cons d ds ih =>
    simp only [rowBytes, List.map_cons, List.sum_cons] at h
    obtain ⟨hin, hbytes⟩ := fieldBytes_fieldOf (k := d.kind) (s := p.take (kindWidth d.kind))
      (by rw [List.length_take]; omega)
    obtain ⟨xs, hxs, hrest⟩ := ih (p := p.drop (kindWidth d.kind)) (by rw [List.length_drop, rowBytes]; omega)
    refine ⟨_ :: xs, .cons hin hxs, ?_⟩
    rw [List.zip_cons_cons, List.flatMap_cons, hbytes, hrest, List.take_append_drop]

/-- `P` of every list of values of the kinds of the fields: a number for a byte or a half-word, a string for a
string. -/
def ForValues : List FieldSpec → (List FieldVal → Prop) → Prop
  | [], P => P []
  | d :: ds, P =>
    match d.kind with
    | .byte => ∀ a : Int, ForValues ds fun xs => P (.num a :: xs)
    | .half => ∀ a : Int, ForValues ds fun xs => P (.num a :: xs)
    | .str _ => ∀ b : Bytes, ForValues ds fun xs => P (.str b :: xs)

theorem ForValues.of_inRange {ds : List FieldSpec} {P : List FieldVal → Prop} (h : ForValues ds P)
    {xs : List FieldVal} (hx : List.Forall₂ (fun d x => inRange d.kind x = true) ds xs) : P xs := by
  induction hx generalizing P with
  | nil => exact h
  | cons hd _ ih =>
    unfold ForValues at h
    obtain ⟨hk, b, rfl⟩ | ⟨hk, w, rfl⟩ | ⟨b, hk, rfl⟩ := inRange_cases hd <;> rw [hk] at h <;> exact ih (h _)

/-- Every variant of the catalogue has a BUILD instruction for the values of its fields. -/
theorem build_of_values (hr : rowOf defaultConfig v = some r) :
    ForValues r.fields fun xs => ∃ o, rowOp o = some (v, .build xs) := by
  cases v with
  | channelUnassign => cases hr; exact fun a => ⟨.instr (.channelUnassign (.build a)), rfl⟩
  | channelAssign => cases hr; exact fun a b c => ⟨.instr (.channelAssign (.build a b c)), rfl⟩
  | channelID => cases hr; exact fun a b c d => ⟨.instr (.channelID (.build a b c d)), rfl⟩
  | channelPeriod => cases hr; exact fun a b => ⟨.instr (.channelPeriod (.build a b)), rfl⟩
  | channelSearchTimeout => cases hr; exact fun a b => ⟨.instr (.channelSearchTimeout (.build a b)), rfl⟩
  | channelFrequency => cases hr; exact fun a b => ⟨.instr (.channelFrequency (.build a b)), rfl⟩
  | channelTXPower => cases hr; exact fun a b => ⟨.instr (.channelTXPower (.build a b)), rfl⟩
  | networkKey => cases hr; exact fun a b => ⟨.instr (.networkKey (.build a b)), rfl⟩
  | txPower => cases hr; exact fun a b => ⟨.instr (.txPower (.build a b)), rfl⟩
  | systemReset => cases hr; exact fun a => ⟨.instr (.systemReset (.build (some a))), rfl⟩
  | channelOpen => cases hr; exact fun a => ⟨.instr (.channelOpen (.build a)), rfl⟩
  | channelClose => cases hr; exact fun a => ⟨.instr (.channelClose (.build a)), rfl⟩
  | channelRequest => cases hr; exact fun a b => ⟨.instr (.channelRequest (.build a b)), rfl⟩
  | broadcastData => cases hr; exact fun a b => ⟨.instr (.broadcastData (.build a b)), rfl⟩
  | acknowledgedData => cases hr; exact fun a b => ⟨.instr (.acknowledgedData (.build a b)), rfl⟩
  | burstData => cases hr; exact fun a b => ⟨.instr (.burstData (.build a b)), rfl⟩
  | channelEvent => cases hr; exact fun a b c => ⟨.instr (.channelEvent (.build a b c)), rfl⟩
  | channelStatus => cases hr; exact fun a b => ⟨.instr (.channelStatus (.build a b)), rfl⟩
  | version => cases hr; exact fun a => ⟨.instr (.version (.build a)), rfl⟩
  | startup => cases hr; exact fun a => ⟨.instr (.startup (.build a)), rfl⟩
  | capabilities => cases hr; exact fun a b c d e => ⟨.instr (.capabilities (.build a b c d (some e))), rfl⟩
  | serialNumber => cases hr; exact fun a => ⟨.instr (.serialNumber (.build a)), rfl⟩
  | added k => exact absurd ((rowOf_default (.added k)).mp (by rw [hr]; rfl)) (by simp [variants])

theorem exists_build_operation {c : Config} (hc : ConfigLegal c) (hr : rowOf c v = some r) {xs : List FieldVal}
    (hx : List.Forall₂ (fun d x => inRange d.kind x = true) r.fields xs) : ∃ o, rowOp o = some (v, .build xs) := by
  cases hd : rowOf defaultConfig v with
  | some q =>
    cases row_eq_default hc hr hd
    exact (build_of_values hd).of_inRange hx
  | none =>
    cases v with
    | added k => exact ⟨.added k (.build xs), rfl⟩
    | _ => cases hd

/-- A payload of the length of all the fields of a row is what some BUILD of the variant answers. -/
theorem exists_build_of_length (hc : ConfigLegal s.cfg) (hr : rowOf s.cfg v = some r) {p : Payload}
    (h : p.length = rowBytes r.fields) :
    ∃ (o : Operation) (xs : List FieldVal), rowOp o = some (v, .build xs) ∧ perform o s = .next (okPayout s p) := by
  obtain ⟨xs, hx, rfl⟩ := exists_values h
  obtain ⟨o, ho⟩ := exists_build_operation hc hr hx
  have hl := hx.length_eq.symm
  refine ⟨o, xs, ho, ?_⟩
  rw [perform_build ho (ne_nil_of_systemReset hc hr hl),
    buildOp_ok hr hl fun z hz => inRange_iff.mp (List.forall₂_zip hx hz)]

/-- A payload of the four bytes that Capabilities always has is what its BUILD without the optional byte answers. -/
theorem exists_build_capabilities (hc : ConfigLegal s.cfg) {p : Payload} (h : p.length = 4) :
    ∃ (o : Operation) (xs : List FieldVal),
      rowOp o = some (.capabilities, .build xs) ∧ perform o s = .next (okPayout s p) := by
  match p, h with
  | [a, b, c, d], _ =>
    refine ⟨.instr (.capabilities (.build a.toNat b.toNat c.toNat d.toNat none)), _, rfl, ?_⟩
    rw [perform_build (v := .capabilities) rfl nofun, buildOp_of_row (rowOf_legal hc rfl)]
    simp only [buildFields, inRange_of_byte, fieldBytes_byte]
    rfl

/-- The length of a row is that of all its fields, but for Capabilities. -/
theorem length_eq_rowBytes {c : Config} (hc : ConfigLegal c) (hv : v ≠ .capabilities) (hr : rowOf c v = some r) :
    r.length = rowBytes r.fields := by
  rw [(rowOf_rowLegal hc hr).length, List.filter_eq_self.mpr]
  intro d hd
  rw [optional_eq_false hc hv hr hd]
  rfl

/-- A payload of the length of the row is what some BUILD of the variant answers. -/
theorem exists_build_of_row_length (hc : ConfigLegal s.cfg) (hr : rowOf s.cfg v = some r) {p : Payload}
    (h : p.length = r.length ∨ p.length = rowBytes r.fields) :
    ∃ (o : Operation) (xs : List FieldVal), rowOp o = some (v, .build xs) ∧ perform o s = .next (okPayout s p) := by
  rcases h with h | h
  · by_cases hv : v = .capabilities
    · subst hv
      rw [row_eq_default hc hr rfl] at h
      exact exists_build_capabilities hc h
    · exact exists_build_of_length hc hr (h.trans (length_eq_rowBytes hc hv hr))
  · exact exists_build_of_length hc hr h

/-- Settles O48: an operation on a variant is the shared BUILD, GET or SET over its row; two fields of a row do not
overlap; VIEW reads the bytes BUILD laid out; and a payload of the row's length is what some BUILD answers, whose VIEW
is the one given. -/
theorem setThenGetAndViewOfBuild : Obligations.SetThenGetAndViewOfBuild := by
  intro s hc v
  refine ⟨fun r hr o => ⟨fun xs ho hl => ?build, fun d p hd => ⟨fun ho => ?get, fun x ho => ?set⟩⟩,
    fun o n p q x y ho hy hq => ?getOfSet, fun o xs p y ho _ hy hp => view_of_build hc ho hy hp,
    fun r p y fs hr hp hy hf => ?buildOfView⟩
  case build =>
    rw [perform_build ho (ne_nil_of_systemReset hc hr hl)]
    exact ⟨buildOp_ok hr hl, fun _ _ _ _ hz hb hx => buildOp_error hr (buildFields_range hz hb hx)⟩
  case get =>
    have hspec := specOf_of_mem hc hr hd
    rw [perform_get ho]
    exact ⟨getOp_reached hspec ((rowOf_rowLegal hc hr).positive d hd), getOp_notReached hspec⟩
  case set =>
    have hspec := specOf_of_mem hc hr hd
    rw [perform_set hc ho]
    exact ⟨setOp_range hspec,
      fun hx => setOp_reached hspec ((rowOf_rowLegal hc hr).positive d hd) (inRange_iff.mpr hx),
      fun hx => setOp_notReached hspec (inRange_iff.mpr hx)⟩
  case getOfSet =>
    rw [perform_set hc ho] at hy
    have hset := payoutOf_inv hy hq
    refine ⟨fun g hg => ?_, fun m g h hne hg hh => ?_⟩
    · rw [perform_get hg, getOp_of_setRow hc hset]
    · rw [perform_get hg, perform_get hh, getOp_of_setRow_other hc hset hne]
  case buildOfView =>
    obtain ⟨o, xs, ho, hb⟩ := exists_build_of_row_length hc hr hp
    rw [view_of_build hc ho hb rfl] at hy
    cases hy
    exact ⟨o, xs, ho, (Option.some.inj hf).symm, hb⟩

/-! The operations of each variant (R200 to R208): BUILD and VIEW by the kinds of its fields, GET and SET field by
field. -/

/-- Settles O26: the row is the channel alone. -/
theorem channelUnassignOperations : Obligations.ChannelUnassignOperations := by
  intro s hc
  obtain ⟨build, range, view, absent⟩ := oneByteRow hc (v := .channelUnassign) rfl
  exact ⟨build, range, view, absent, getsByte hc (fun _ => rfl) rfl, setsByte hc (fun _ _ => rfl) rfl⟩

/-- Settles O27: the row is the channel and two more bytes. -/
theorem channelAssignOperations : Obligations.ChannelAssignOperations := by
  intro s hc
  obtain ⟨build, range0, range1, range2, view, absent0, absent1, absent2⟩ := threeByteRow hc (v := .channelAssign) rfl
  exact ⟨build, range0, range1, range2, view, absent0, absent1, absent2,
    getsByte hc (fun _ => rfl) rfl, setsByte hc (fun _ _ => rfl) rfl,
    getsByte hc (fun _ => rfl) rfl, setsByte hc (fun _ _ => rfl) rfl,
    getsByte hc (fun _ => rfl) rfl, setsByte hc (fun _ _ => rfl) rfl⟩

/-- Settles O28: a two-byte field stands between the channel and the last two bytes. -/
theorem channelIDOperations : Obligations.ChannelIDOperations := by
  intro s hc
  have hr := rowOf_legal hc (v := .channelID) rfl
  refine ⟨fun a b c d => ?build, fun a b c d ha => buildOp_error hr (buildFields_head (byte_outOfRange ha)),
    fun a b c d ha hb => buildOp_error hr
      (buildFields_tail (byte_not_outOfRange ha) (buildFields_head (half_outOfRange hb))),
    fun a b c d h0 h1 h2 => buildOp_error hr (buildFields_tail (byte_not_outOfRange h0)
      (buildFields_tail (half_not_outOfRange h1) (buildFields_head (byte_outOfRange h2)))),
    fun a b c d h0 h1 h2 h3 => buildOp_error hr (buildFields_tail (byte_not_outOfRange h0)
      (buildFields_tail (half_not_outOfRange h1) (buildFields_tail (byte_not_outOfRange h2)
        (buildFields_head (byte_outOfRange h3))))),
    fun a lo hi c d rest => ?view,
    fun p h => viewOp_notReached hc hr (.head _) (Nat.zero_le _) ⟨h, nofun⟩,
    fun p h1 h => viewOp_notReached hc hr (.tail _ (.head _)) h1 ⟨h, nofun⟩,
    fun p h3 h => viewOp_notReached hc hr (.tail _ (.tail _ (.head _))) h3 ⟨h, nofun⟩,
    fun p h4 h => viewOp_notReached hc hr (.tail _ (.tail _ (.tail _ (.head _)))) h4 ⟨h, nofun⟩,
    getsByte hc (fun _ => rfl) rfl, setsByte hc (fun _ _ => rfl) rfl,
    getsHalf hc (fun _ => rfl) rfl, setsHalf hc (fun _ _ => rfl) rfl,
    getsByte hc (fun _ => rfl) rfl, setsByte hc (fun _ _ => rfl) rfl,
    getsByte hc (fun _ => rfl) rfl, setsByte hc (fun _ _ => rfl) rfl⟩
  case build =>
    change buildOp .channelID _ s = _
    simpa using buildOp_ok hr (xs := [.num a.toNat, .num b.toNat, .num c.toNat, .num d.toNat]) rfl
      (by simp [← inRange_iff])
  case view =>
    change viewOp .channelID _ s = _
    simpa [fieldBytes_append, -fieldBytes_half] using viewOp_fieldBytes hc hr
      (xs := [.num a.toNat, .num (hi ++ lo).toNat, .num c.toNat, .num d.toNat]) le_rfl (by simp) rest

/-- Settles O29: the channel and a two-byte field. -/
theorem channelPeriodOperations : Obligations.ChannelPeriodOperations := by
  intro s hc
  have hr := rowOf_legal hc (v := .channelPeriod) rfl
  refine ⟨fun a b => ?build, fun a b ha => buildOp_error hr (buildFields_head (byte_outOfRange ha)),
    fun a b ha hb => buildOp_error hr
      (buildFields_tail (byte_not_outOfRange ha) (buildFields_head (half_outOfRange hb))),
    fun a lo hi rest => ?view,
    fun p h => viewOp_notReached hc hr (.head _) (Nat.zero_le _) ⟨h, nofun⟩,
    fun p h1 h => viewOp_notReached hc hr (.tail _ (.head _)) h1 ⟨h, nofun⟩,
    getsByte hc (fun _ => rfl) rfl, setsByte hc (fun _ _ => rfl) rfl,
    getsHalf hc (fun _ => rfl) rfl, setsHalf hc (fun _ _ => rfl) rfl⟩
  case build =>
    change buildOp .channelPeriod _ s = _
    simpa using buildOp_ok hr (xs := [.num a.toNat, .num b.toNat]) rfl (by simp [← inRange_iff])
  case view =>
    change viewOp .channelPeriod _ s = _
    simpa [fieldBytes_append, -fieldBytes_half] using
      viewOp_fieldBytes hc hr (xs := [.num a.toNat, .num (hi ++ lo).toNat]) le_rfl (by simp) rest

/-- Settles O30: the channel and one more byte. -/
theorem channelSearchTimeoutOperations : Obligations.ChannelSearchTimeoutOperations := by
  intro s hc
  obtain ⟨build, range0, range1, view, absent0, absent1⟩ := twoByteRow hc (v := .channelSearchTimeout) rfl
  exact ⟨build, range0, range1, view, absent0, absent1, getsByte hc (fun _ => rfl) rfl,
    setsByte hc (fun _ _ => rfl) rfl, getsByte hc (fun _ => rfl) rfl, setsByte hc (fun _ _ => rfl) rfl⟩

/-- Settles O31: the channel and one more byte. -/
theorem channelFrequencyOperations : Obligations.ChannelFrequencyOperations := by
  intro s hc
  obtain ⟨build, range0, range1, view, absent0, absent1⟩ := twoByteRow hc (v := .channelFrequency) rfl
  exact ⟨build, range0, range1, view, absent0, absent1, getsByte hc (fun _ => rfl) rfl,
    setsByte hc (fun _ _ => rfl) rfl, getsByte hc (fun _ => rfl) rfl, setsByte hc (fun _ _ => rfl) rfl⟩

/-- Settles O32: the channel and one more byte. -/
theorem channelTXPowerOperations : Obligations.ChannelTXPowerOperations := by
  intro s hc
  obtain ⟨build, range0, range1, view, absent0, absent1⟩ := twoByteRow hc (v := .channelTXPower) rfl
  exact ⟨build, range0, range1, view, absent0, absent1, getsByte hc (fun _ => rfl) rfl,
    setsByte hc (fun _ _ => rfl) rfl, getsByte hc (fun _ => rfl) rfl, setsByte hc (fun _ _ => rfl) rfl⟩

/-- Settles O33: a byte and a string of eight bytes; the byte is no channel, so its SET is no CHSET. -/
theorem networkKeyOperations : Obligations.NetworkKeyOperations := by
  intro s hc
  obtain ⟨build, range0, range1, view, absent0, absent1⟩ := byteStrRow hc (v := .networkKey) rfl
  exact ⟨build, range0, range1, view, absent0, absent1, getsByte hc (fun _ => rfl) rfl,
    setsByte hc (fun _ _ => rfl) rfl, getsStr hc (fun _ => rfl) rfl, setsStr hc (fun _ _ => rfl) rfl⟩

/-- Settles O34: two bytes, of which the first is no channel. -/
theorem txPowerOperations : Obligations.TXPowerOperations := by
  intro s hc
  obtain ⟨build, range0, range1, view, absent0, absent1⟩ := twoByteRow hc (v := .txPower) rfl
  exact ⟨build, range0, range1, view, absent0, absent1, getsByte hc (fun _ => rfl) rfl,
    setsByte hc (fun _ _ => rfl) rfl, getsByte hc (fun _ => rfl) rfl, setsByte hc (fun _ _ => rfl) rfl⟩

end Sys2Proof.Proofs.VariantsConfig

/-! PROOF. The family 44_variants_control_data.md: the operations of each control and data variant (R220 to R226), by
the shape of its row. -/

namespace Sys2Proof.Proofs.VariantsControlData
open Machine Safety RowAccess

/-- Settles O35: the row is one reserved byte, of which BUILD without an operand is the BUILD of the configured fill;
VIEW does not read the payload. -/
theorem systemResetOperations : Obligations.SystemResetOperations := by
  intro s hc
  obtain ⟨build, range, -, -⟩ := oneByteRow hc (v := .systemReset) rfl
  exact ⟨build, build s.cfg.sysresetFill, range, fun _ => rfl, getsByte hc (fun _ => rfl) rfl⟩

/-- Settles O36: the row is the channel alone. -/
theorem channelOpenOperations : Obligations.ChannelOpenOperations := by
  intro s hc
  obtain ⟨build, range, view, absent⟩ := oneByteRow hc (v := .channelOpen) rfl
  exact ⟨build, range, view, absent, getsByte hc (fun _ => rfl) rfl, setsByte hc (fun _ _ => rfl) rfl⟩

/-- Settles O37: the row is the channel alone. -/
theorem channelCloseOperations : Obligations.ChannelCloseOperations := by
  intro s hc
  obtain ⟨build, range, view, absent⟩ := oneByteRow hc (v := .channelClose) rfl
  exact ⟨build, range, view, absent, getsByte hc (fun _ => rfl) rfl, setsByte hc (fun _ _ => rfl) rfl⟩

/-- Settles O38: the channel and one more byte. -/
theorem channelRequestOperations : Obligations.ChannelRequestOperations := by
  intro s hc
  obtain ⟨build, range0, range1, view, absent0, absent1⟩ := twoByteRow hc (v := .channelRequest) rfl
  exact ⟨build, range0, range1, view, absent0, absent1, getsByte hc (fun _ => rfl) rfl,
    setsByte hc (fun _ _ => rfl) rfl, getsByte hc (fun _ => rfl) rfl, setsByte hc (fun _ _ => rfl) rfl⟩

/-- Settles O39: the channel and a string of seven bytes. -/
theorem broadcastDataOperations : Obligations.BroadcastDataOperations := by
  intro s hc
  obtain ⟨build, range0, range1, view, absent0, absent1⟩ := byteStrRow hc (v := .broadcastData) rfl
  exact ⟨build, range0, range1, view, absent0, absent1, getsByte hc (fun _ => rfl) rfl,
    setsByte hc (fun _ _ => rfl) rfl, getsStr hc (fun _ => rfl) rfl, setsStr hc (fun _ _ => rfl) rfl⟩

/-- Settles O40: the channel and a string of seven bytes. -/
theorem acknowledgedDataOperations : Obligations.AcknowledgedDataOperations := by
  intro s hc
  obtain ⟨build, range0, range1, view, absent0, absent1⟩ := byteStrRow hc (v := .acknowledgedData) rfl
  exact ⟨build, range0, range1, view, absent0, absent1, getsByte hc (fun _ => rfl) rfl,
    setsByte hc (fun _ _ => rfl) rfl, getsStr hc (fun _ => rfl) rfl, setsStr hc (fun _ _ => rfl) rfl⟩

/-- Settles O41: the channel and a string of seven bytes. -/
theorem burstDataOperations : Obligations.BurstDataOperations := by
  intro s hc
  obtain ⟨build, range0, range1, view, absent0, absent1⟩ := byteStrRow hc (v := .burstData) rfl
  exact ⟨build, range0, range1, view, absent0, absent1, getsByte hc (fun _ => rfl) rfl,
    setsByte hc (fun _ _ => rfl) rfl, getsStr hc (fun _ => rfl) rfl, setsStr hc (fun _ _ => rfl) rfl⟩

end Sys2Proof.Proofs.VariantsControlData

/-! PROOF. The family 45_variants_event_response.md: the operations of each event and response variant (R240 to R246), by
the shape of its row; Capabilities alone has an optional byte (R245). -/

namespace Sys2Proof.Proofs.VariantsEventResponse
open Machine Safety StateInvariant RowAccess

variable {s : State}

/-- Settles O42: the channel and two more bytes. -/
theorem channelEventOperations : Obligations.ChannelEventOperations := by
  intro s hc
  obtain ⟨build, range0, range1, range2, view, absent0, absent1, absent2⟩ := threeByteRow hc (v := .channelEvent) rfl
  exact ⟨build, range0, range1, range2, view, absent0, absent1, absent2,
    getsByte hc (fun _ => rfl) rfl, setsByte hc (fun _ _ => rfl) rfl,
    getsByte hc (fun _ => rfl) rfl, setsByte hc (fun _ _ => rfl) rfl,
    getsByte hc (fun _ => rfl) rfl, setsByte hc (fun _ _ => rfl) rfl⟩

/-- Settles O43: the channel and one more byte. -/
theorem channelStatusOperations : Obligations.ChannelStatusOperations := by
  intro s hc
  obtain ⟨build, range0, range1, view, absent0, absent1⟩ := twoByteRow hc (v := .channelStatus) rfl
  exact ⟨build, range0, range1, view, absent0, absent1, getsByte hc (fun _ => rfl) rfl,
    setsByte hc (fun _ _ => rfl) rfl, getsByte hc (fun _ => rfl) rfl, setsByte hc (fun _ _ => rfl) rfl⟩

/-- BUILD and VIEW of a row of one string. -/
theorem oneStrRow (hc : ConfigLegal s.cfg) {v : Variant} {id : BitVec 5} {sc : Scope} {len k : Nat} {l : FieldName}
    (hd : rowOf defaultConfig v = some ⟨id, sc, len, [⟨l, 0, .str k, false⟩]⟩) :
    (∀ a : Bytes, a.length = k → buildOp v [.str a] s = .next (okPayout s a)) ∧
    (∀ a : Bytes, a.length ≠ k →
      buildOp v [.str a] s = .next (answers s .malformed (.fieldRange (fieldIn v l)))) ∧
    (∀ a rest : Bytes, a.length = k → viewOp v (a ++ rest) s = .next (okFields s [(fieldIn v l, .str a)])) ∧
    (∀ p : Payload, p.length < k → viewOp v p s = .fault (.fieldAbsent (fieldIn v l))) := by
  have hr := rowOf_legal hc hd
  refine ⟨fun a ha => ?build, fun a ha => buildOp_error hr (buildFields_head (str_outOfRange ha)),
    fun a rest ha => ?view,
    fun p h => viewOp_notReached hc hr (.head _) (Nat.zero_le _) ⟨h.trans_eq (Nat.zero_add k).symm, nofun⟩⟩
  case build => simpa using buildOp_ok hr (xs := [.str a]) rfl (by simp [← inRange_iff, inRange_str_iff, ha])
  case view => simpa using viewOp_fieldBytes hc hr (xs := [.str a]) le_rfl (by simp [inRange_str_iff, ha]) rest

/-- Settles O44: the row is a string of nine bytes. -/
theorem versionOperations : Obligations.VersionOperations := by
  intro s hc
  obtain ⟨build, range, view, absent⟩ := oneStrRow hc (v := .version) rfl
  exact ⟨build, range, view, absent, getsStr hc (fun _ => rfl) rfl, setsStr hc (fun _ _ => rfl) rfl⟩

/-- Settles O45: the row is one byte. -/
theorem startupOperations : Obligations.StartupOperations := by
  intro s hc
  obtain ⟨build, range, view, absent⟩ := oneByteRow hc (v := .startup) rfl
  exact ⟨build, range, view, absent, getsByte hc (fun _ => rfl) rfl, setsByte hc (fun _ _ => rfl) rfl⟩

/-- Settles O47: the row is a string of four bytes. -/
theorem serialNumberOperations : Obligations.SerialNumberOperations := by
  intro s hc
  obtain ⟨build, range, view, absent⟩ := oneStrRow hc (v := .serialNumber) rfl
  exact ⟨build, range, view, absent, getsStr hc (fun _ => rfl) rfl, setsStr hc (fun _ _ => rfl) rfl⟩

/-! Capabilities: four bytes and an optional fifth one (R245). -/

/-- The optional byte. -/
def advOptions2Spec : FieldSpec := ⟨.advOptions2, 4, .byte, true⟩

/-- The fields of Capabilities in offset order (30_encoding.md R106). -/
def capabilitiesFields : List FieldSpec :=
  [⟨.maxChannels, 0, .byte, false⟩, ⟨.maxNetworks, 1, .byte, false⟩, ⟨.stdOptions, 2, .byte, false⟩,
    ⟨.advOptions, 3, .byte, false⟩, advOptions2Spec]

/-- An error behind a byte within its range is the error of the BUILD. -/
theorem buildFields_byte_tail {v : Variant} {n : FieldName} {off : Nat} {opt : Bool} {ds : List FieldSpec} {a : Int}
    {xs : List FieldVal} {e : Stop} (ha : 0 ≤ a ∧ a ≤ 255) (h : buildFields v ds xs = .error e) :
    buildFields v (⟨n, off, .byte, opt⟩ :: ds) (.num a :: xs) = .error e :=
  buildFields_tail (byte_not_outOfRange ha) h

theorem payoutOf_ok (s : State) (p : Payload) : payoutOf s (.ok p) = .next (okPayout s p) := rfl

theorem advOptions2_notReached {p : Payload} (h : p.length < 4) : NotReached advOptions2Spec p :=
  ⟨h.trans (by decide), fun _ => h.ne⟩

section Capabilities
variable (hc : ConfigLegal s.cfg)

/-- The optional byte is one more value of the BUILD, where it is given. -/
theorem exec_build_capabilities (a b c d : Int) (e : Option Int) :
    exec (.capabilities (.build a b c d e)) s =
      buildOp .capabilities (.num a :: .num b :: .num c :: .num d :: (e.map FieldVal.num).toList) s := by
  cases e <;> rfl

include hc

theorem rowOf_capabilities : rowOf s.cfg .capabilities = some ⟨20#5, .nonChannel, 4, capabilitiesFields⟩ :=
  rowOf_legal hc rfl

theorem specOf_advOptions2 : specOf s.cfg .capabilities .advOptions2 = some advOptions2Spec :=
  specOf_of_default hc rfl

/-- BUILD of four bytes, or of five. -/
theorem exec_build_capabilities_ok (a b c d : Byte) (e : Option Byte) :
    exec (.capabilities (.build a.toNat b.toNat c.toNat d.toNat (e.map fun e => (e.toNat : Int)))) s =
      .next (okPayout s (a :: b :: c :: d :: e.toList)) := by
  rw [exec_build_capabilities, buildOp_of_row (rowOf_capabilities hc)]
  cases e with
  | none =>
    rw [buildFields_ok (by simp [capabilitiesFields, advOptions2Spec]) (by simp [capabilitiesFields])]
    simp [capabilitiesFields, payoutOf_ok]
  | some e =>
    rw [buildFields_ok (by simp [capabilitiesFields]) (by simp [capabilitiesFields, advOptions2Spec])]
    simp [capabilitiesFields, advOptions2Spec, payoutOf_ok]

/-- A BUILD ends in the error of its fields. -/
theorem exec_build_capabilities_error {a b c d : Int} {e : Option Int} {st : Status} {i : Info}
    (h : buildFields .capabilities capabilitiesFields
      (.num a :: .num b :: .num c :: .num d :: (e.map FieldVal.num).toList) = .error (.raise st i)) :
    exec (.capabilities (.build a b c d e)) s = .next (answers s st i) := by
  rw [exec_build_capabilities, buildOp_error (rowOf_capabilities hc) h]

/-- VIEW answers the fields of the row and whether the payload reaches the optional one. -/
theorem exec_view_capabilities (p : Payload) :
    exec (.capabilities (.view p)) s = fieldsOf s ((viewFields .capabilities p capabilitiesFields).map fun fs =>
      fs ++ [(fieldIn .capabilities .adv2Present, .flag (decide (5 ≤ p.length)))]) := by
  rw [← ChannelLayer.viewRow_of_row (rowOf_capabilities hc)]
  rfl

theorem exec_view_capabilities_five (a b c d e : Byte) (rest : Bytes) :
    exec (.capabilities (.view (a :: b :: c :: d :: e :: rest))) s =
      .next (okFields s [(fieldIn .capabilities .maxChannels, .num a.toNat),
        (fieldIn .capabilities .maxNetworks, .num b.toNat), (fieldIn .capabilities .stdOptions, .num c.toNat),
        (fieldIn .capabilities .advOptions, .num d.toNat), (fieldIn .capabilities .advOptions2, .num e.toNat),
        (fieldIn .capabilities .adv2Present, .flag true)]) := by
  have hview := viewFields_fieldBytes (v := .capabilities) (ds := capabilitiesFields) (pre := [])
    (xs := [.num a.toNat, .num b.toNat, .num c.toNat, .num d.toNat, .num e.toNat]) rfl (by decide) le_rfl
    (by simp [capabilitiesFields, advOptions2Spec]) rest
  have hbytes : [] ++ ((capabilitiesFields.zip [.num a.toNat, .num b.toNat, .num c.toNat, .num d.toNat,
      .num e.toNat]).flatMap fun z => fieldBytes z.1.kind z.2) ++ rest = a :: b :: c :: d :: e :: rest := by
    simp [capabilitiesFields, advOptions2Spec]
  rw [hbytes] at hview
  rw [exec_view_capabilities hc, hview, decide_eq_true (by simp only [List.length_cons]; omega)]
  rfl

theorem exec_view_capabilities_absent {d : FieldSpec} (hd : d ∈ capabilitiesFields) {p : Payload}
    (hlo : d.offset ≤ p.length) (h : NotReached d p) :
    exec (.capabilities (.view p)) s = .fault (.fieldAbsent (fieldIn .capabilities d.name)) := by
  rw [exec_view_capabilities hc, viewFields_notReached (o := 0) rfl (by decide) hd hlo h]
  rfl

/-- GET of the optional byte is 0 on a payload that ends just before it. -/
theorem exec_getAdvOptions2_four {p : Payload} (h : p.length = 4) :
    exec (.capabilities (.getAdvOptions2 p)) s = .next (okFields s [(fieldIn .capabilities .advOptions2, .num 0)]) := by
  change getOp .capabilities .advOptions2 p s = _
  rw [getOp_of_spec (specOf_advOptions2 hc), getBySpec_default rfl h]
  rfl

/-- SET appends the optional byte to a payload that ends just before it. -/
theorem exec_setAdvOptions2_four {p : Payload} (h : p.length = 4) (v : Byte) :
    exec (.capabilities (.setAdvOptions2 p v.toNat)) s = .next (okPayout s (p ++ [v])) := by
  change setOp .capabilities .advOptions2 p _ s = _
  rw [setOp_of_spec (specOf_advOptions2 hc), setBySpec_append (inRange_of_byte v) rfl h]
  exact congrArg (fun bytes => Host.Outcome.next (okPayout s (p ++ bytes))) (fieldBytes_byte v)

/-- SET replaces the optional byte of a payload that reaches it. -/
theorem exec_setAdvOptions2_five (a b c d e v : Byte) (rest : Bytes) :
    exec (.capabilities (.setAdvOptions2 (a :: b :: c :: d :: e :: rest) v.toNat)) s =
      .next (okPayout s (a :: b :: c :: d :: v :: rest)) := by
  change setOp .capabilities .advOptions2 _ _ s = _
  have hreach : 5 ≤ (a :: b :: c :: d :: e :: rest).length := Nat.le_add_left 5 rest.length
  rw [setOp_reached (specOf_advOptions2 hc) (by decide) (inRange_of_byte v) hreach]
  simp [advOptions2Spec, kindWidth]

end Capabilities

/-- Settles O46: the first four fields are as in any row of bytes; the optional byte may be missing from BUILD's values
and from the payload. -/
theorem capabilitiesOperations : Obligations.CapabilitiesOperations := by
  intro s hc
  have hspec := specOf_advOptions2 hc
  exact ⟨fun a b c d e => ⟨exec_build_capabilities_ok hc a b c d none, exec_build_capabilities_ok hc a b c d (some e)⟩,
    fun a b c d e => ⟨fun hx => exec_build_capabilities_error hc (buildFields_head (byte_outOfRange hx)),
      fun h0 hx => exec_build_capabilities_error hc
        (buildFields_byte_tail h0 (buildFields_head (byte_outOfRange hx))),
      fun h0 h1 hx => exec_build_capabilities_error hc
        (buildFields_byte_tail h0 (buildFields_byte_tail h1 (buildFields_head (byte_outOfRange hx)))),
      fun h0 h1 h2 hx => exec_build_capabilities_error hc (buildFields_byte_tail h0 (buildFields_byte_tail h1
        (buildFields_byte_tail h2 (buildFields_head (byte_outOfRange hx))))),
      fun g h0 h1 h2 h3 hx => exec_build_capabilities_error hc (buildFields_byte_tail h0 (buildFields_byte_tail h1
        (buildFields_byte_tail h2 (buildFields_byte_tail h3 (buildFields_head (byte_outOfRange hx))))))⟩,
    fun a b c d => (exec_view_capabilities hc _).trans rfl,
    exec_view_capabilities_five hc,
    exec_view_capabilities_absent hc (.head _) le_rfl ⟨by decide, nofun⟩,
    fun a => exec_view_capabilities_absent hc (.tail _ (.head _)) le_rfl ⟨Nat.lt_succ_self 1, nofun⟩,
    fun a b => exec_view_capabilities_absent hc (.tail _ (.tail _ (.head _))) le_rfl ⟨Nat.lt_succ_self 2, nofun⟩,
    fun a b c => exec_view_capabilities_absent hc (.tail _ (.tail _ (.tail _ (.head _)))) le_rfl
      ⟨Nat.lt_succ_self 3, nofun⟩,
    getsByte hc (fun _ => rfl) rfl, setsByte hc (fun _ _ => rfl) rfl,
    getsByte hc (fun _ => rfl) rfl, setsByte hc (fun _ _ => rfl) rfl,
    getsByte hc (fun _ => rfl) rfl, setsByte hc (fun _ _ => rfl) rfl,
    getsByte hc (fun _ => rfl) rfl, setsByte hc (fun _ _ => rfl) rfl,
    fun a b c d => exec_getAdvOptions2_four hc rfl,
    fun a b c d e rest => getOp_reached hspec (by decide) (Nat.le_add_left 5 rest.length),
    fun p h => getOp_notReached hspec (advOptions2_notReached h),
    fun a b c d v => exec_setAdvOptions2_four hc rfl v,
    exec_setAdvOptions2_five hc,
    fun p v h => setOp_notReached hspec (inRange_of_byte v) (advOptions2_notReached h),
    fun p v h => setOp_range hspec (byte_outOfRange h)⟩

end Sys2Proof.Proofs.VariantsEventResponse

/-! PROOF. The family 60_exceptions.md: what an error writes (R268, R270), the complete list of causes (R263), and which
outcomes are faults (R284). All three rest on one analysis of how an operation can end. -/

namespace Sys2Proof.Proofs.Exceptions
open Machine Safety Codec TypeDispatch ChannelLayer RowAccess

variable {s : State} {c : Config} {v : Variant} {o : Operation}

/-! How an operation ends, given the errors `R` it can raise and the faults `F` it can end in. -/

section Endings
variable {R R' : Info → Prop} {F F' : Fault → Prop}

/-- An operation stops with an error of `R`, of the class its INFO belongs to (60_exceptions.md R262), or a fault of
`F`. -/
inductive Stops (R : Info → Prop) (F : Fault → Prop) : Stop → Prop where
  | raise (i : Info) : R i → Stops R F (.raise (infoClass i) i)
  | fault {f : Fault} : F f → Stops R F (.fault f)

/-- An operation answers OK and no INFO, an error of `R` in STATUS and INFO alone, or ends in a fault of `F`. -/
inductive Ending (R : Info → Prop) (F : Fault → Prop) (s : State) : Host.Outcome State Fault Refusal → Prop where
  | ok {r : Results} : r.status = some .ok → r.info = none → Ending R F s (.next { s with res := r })
  | raise (i : Info) : R i → Ending R F s (.next (answers s (infoClass i) i))
  | fault {f : Fault} : F f → Ending R F s (.fault f)

theorem Ending.mono {x : Host.Outcome State Fault Refusal} (h : Ending R F s x) (hR : ∀ i, R i → R' i)
    (hF : ∀ f, F f → F' f) : Ending R' F' s x := by
  cases h with
  | ok hs hi => exact .ok hs hi
  | raise i h => exact .raise i (hR i h)
  | fault h => exact .fault (hF _ h)

theorem Ending.of_stops {e : Stop} (h : Stops R F e) : Ending R F s (finish s (.error e)) := by
  cases h with
  | raise i h => exact .raise i h
  | fault h => exact .fault h

theorem Ending.payoutOf {e : Except Stop Payload} (h : ∀ x, e = .error x → Stops R F x) :
    Ending R F s (payoutOf s e) := by
  cases e with
  | ok p => exact .ok rfl rfl
  | error x => exact .of_stops (h x rfl)

theorem Ending.fieldsOf {e : Except Stop (List (Field × FieldVal))} (h : ∀ x, e = .error x → Stops R F x) :
    Ending R F s (fieldsOf s e) := by
  cases e with
  | ok fs => exact .ok rfl rfl
  | error x => exact .of_stops (h x rfl)

/-- Mapping the value leaves the error as it is. -/
theorem stops_map {α β : Type} {g : α → β} {e : Except Stop α} (h : ∀ x, e = .error x → Stops R F x) :
    ∀ x, e.map g = .error x → Stops R F x := by
  cases e with
  | ok a => nofun
  | error y => intro x hx; cases hx; exact h y rfl

end Endings

/-! How BUILD, VIEW, GET and SET of a variant stop (43_variants_config.md R197 to R199). -/

/-- The errors an operation on the configured row of a variant can raise. -/
def RowRaises (c : Config) (v : Variant) (op : FieldOp) (i : Info) : Prop :=
  ∃ r, rowOf c v = some r ∧ rowRaises v r.fields i op

/-- The faults an operation on the configured row of a variant can end in. -/
def RowFaults (c : Config) (v : Variant) (op : FieldOp) (f : Fault) : Prop :=
  ∃ r, rowOf c v = some r ∧ rowFaults v r.fields f op

/-- The configuration lays out what the operation reads, but for the BUILD of SystemReset without an operand, which takes
the configured fill (44_variants_control_data.md R220). -/
def Readable (c : Config) (v : Variant) (op : FieldOp) : Prop :=
  (v = .systemReset → op ≠ .build []) → Accessible c v op

/-- How an operation on a variant stops; which fault it is, is said where the operation is readable. -/
abbrev RowStops (c : Config) (v : Variant) (op : FieldOp) : Stop → Prop :=
  Stops (RowRaises c v op) fun f => Readable c v op → RowFaults c v op f

theorem buildRow_stops {xs : List FieldVal} (hxs : v = .systemReset → xs ≠ []) {e : Stop}
    (h : buildRow c v xs = .error e) : RowStops c v (.build xs) e := by
  have hop : v = .systemReset → FieldOp.build xs ≠ .build [] := fun hv he => hxs hv (FieldOp.build.inj he)
  cases hr : rowOf c v with
  | none =>
    simp only [buildRow, hr] at h
    cases h
    refine .fault fun ha => ?_
    obtain ⟨r, hr', -⟩ := ha hop
    cases hr.symm.trans hr'
  | some r =>
    rw [buildRow_of_row hr] at h
    obtain ⟨z, hz, rfl, hx⟩ | ⟨d, hd, ho, rfl⟩ := buildFields_error h
    · exact .raise (.fieldRange _) ⟨r, hr, z, hz, rfl, inRange_false_iff.mp hx⟩
    · refine .fault fun ha => ?_
      obtain ⟨r', hr', hopt⟩ := ha hop
      cases hr.symm.trans hr'
      rw [hopt d hd] at ho
      cases ho

theorem viewRow_stops (hv : v ≠ .systemReset) {p : Payload} {e : Stop} (h : viewRow c v p = .error e) :
    RowStops c v (.view p) e := by
  cases hr : rowOf c v with
  | none =>
    simp only [viewRow, hr] at h
    cases h
    refine .fault fun ha => ?_
    obtain ⟨r, hr'⟩ := ha nofun
    cases hr.symm.trans hr'
  | some r =>
    rw [viewRow_of_row hr] at h
    obtain ⟨d, hd, rfl, hn⟩ := viewFields_error h
    exact .fault fun _ => ⟨r, hr, hv, d, hd, rfl, hn⟩

theorem getRow_stops {n : FieldName} {p : Payload} {e : Stop} (h : getRow c v n p = .error e) :
    RowStops c v (.get n p) e := by
  cases hd : specOf c v n with
  | none =>
    simp only [getRow, hd] at h
    cases h
    refine .fault fun ha => ?_
    obtain ⟨d, hd'⟩ := ha nofun
    cases hd.symm.trans hd'
  | some d =>
    simp only [getRow, hd] at h
    obtain ⟨r, hr, hmem, hname⟩ := specOf_mem hd
    obtain ⟨-, -, h'⟩ | ⟨hn, h'⟩ | ⟨_, _, _, -, -, -, h'⟩ := getBySpec_cases ⟨.variant v, n⟩ d p <;>
      rw [h'] at h <;> cases h
    exact .fault fun _ => ⟨r, hr, rfl, d, hmem, hname, hn⟩

theorem setRow_stops {n : FieldName} {p : Payload} {x : FieldVal} {e : Stop} (h : setRow c v n p x = .error e) :
    RowStops c v (.set n p x) e := by
  cases hd : specOf c v n with
  | none =>
    simp only [setRow, hd] at h
    cases h
    refine .fault fun ha => ?_
    obtain ⟨d, hd'⟩ := ha nofun
    cases hd.symm.trans hd'
  | some d =>
    simp only [setRow, hd] at h
    obtain ⟨r, hr, hmem, hname⟩ := specOf_mem hd
    obtain ⟨hx, h'⟩ | ⟨-, -, -, h'⟩ | ⟨hn, h'⟩ | ⟨-, _, _, _, -, -, -, h'⟩ :=
      setBySpec_cases ⟨.variant v, n⟩ d p x <;> rw [h'] at h <;> cases h
    · exact .raise (.fieldRange _) ⟨r, hr, rfl, d, hmem, hname, inRange_false_iff.mp hx⟩
    · exact .fault fun _ => ⟨r, hr, rfl, d, hmem, hname, hn⟩

/-- BUILD of SystemReset with the configured fill, which is a byte, answers it (44_variants_control_data.md R220). -/
theorem buildOp_fill (hc : ConfigLegal s.cfg) :
    buildOp .systemReset [.num (numOf s.cfg.sysresetFill)] s = .next (okPayout s [s.cfg.sysresetFill]) := by
  obtain ⟨hbuild, -⟩ := oneByteRow hc (v := .systemReset) rfl
  exact hbuild s.cfg.sysresetFill

/-- How an operation on a variant ends. -/
theorem perform_row_ending (hc : ConfigLegal s.cfg) {op : FieldOp} (h : rowOp o = some (v, op)) :
    Ending (RowRaises s.cfg v op) (fun f => Readable s.cfg v op → RowFaults s.cfg v op f) s (perform o s) := by
  cases op with
  | get n p => rw [perform_get h]; exact .fieldsOf (stops_map fun _ => getRow_stops)
  | set n p x => rw [perform_set hc h]; exact .payoutOf fun _ => setRow_stops
  | build xs =>
    have hm := perform_row h
    generalize perform o = m at hm
    cases hm with
    | build _ hxs => exact .payoutOf fun _ => buildRow_stops hxs
    | buildDefault hv => subst hv; simp only [buildOp_fill hc]; exact .ok rfl rfl
  | view p =>
    have hm := perform_row h
    generalize perform o = m at hm
    cases hm with
    | view _ _ hv => exact .fieldsOf fun _ => viewRow_stops hv
    | viewNothing _ _ => exact .ok rfl rfl
    | viewCapabilities _ hv => exact .fieldsOf (stops_map fun _ => viewRow_stops (hv ▸ nofun))

/-! How the operations of the codec, of type dispatch and of the channel layer stop. -/

theorem encodeFrame_error (hc : ConfigLegal c) {t : Int} {p : Payload} {e : Stop} (h : encodeFrame c t p = .error e) :
    ∃ i, e = .raise (infoClass i) i ∧ MayRaise c (.instr (.encode t p)) i := by
  obtain ⟨hp, h'⟩ | ⟨-, ht, h'⟩ | ⟨_, -, -, h'⟩ := encodeFrame_cases hc t p <;> rw [h'] at h <;> cases h
  · exact ⟨_, rfl, .inl ⟨rfl, hp⟩⟩
  · exact ⟨_, rfl, .inr ⟨rfl, ht⟩⟩

/-- Where the exclusive-or over a frame is not zero, its checksum is not that of the bytes before it
(40_codec_ops.md R142). -/
theorem checksum_ne {sync len t : Byte} {rest : Bytes} (hl : len.toNat < rest.length)
    (hx : xor8 (sync :: len :: t :: rest.take (len.toNat + 1)) ≠ 0#8) :
    ∃ k, rest[len.toNat]? = some k ∧ (sync :: len :: t :: rest.take len.toNat).foldr (· ^^^ ·) 0#8 ≠ k := by
  have hget := List.getElem?_eq_getElem hl
  refine ⟨_, hget, fun hk => hx ?_⟩
  rw [← xor8_eq_foldr] at hk
  rw [List.take_add_one, hget, Option.toList_some, ← List.cons_append, ← List.cons_append, ← List.cons_append,
    xor8_append, hk, xor8_cons, xor8_nil, BitVec.xor_zero, BitVec.xor_self]

/-- DECODE faults on no buffer, and the bytes that cause its error are in the buffer (40_codec_ops.md R137 to R143). -/
theorem decodeFrame_error (hc : ConfigLegal c) {buf : Bytes} {e : Stop} (h : decodeFrame c buf = .error e) :
    ∃ i, e = .raise (infoClass i) i ∧ decodeRaises c buf i := by
  by_cases hb : buf.length < 5
  · rw [decodeFrame_short hc hb] at h
    cases h
    exact ⟨.header, rfl, hb⟩
  · obtain ⟨sync, len, t, rest, rfl, hr⟩ := exists_header (not_lt.mp hb)
    rw [decodeFrame_cons hc hr] at h
    split_ifs at h with hsync hlen hbody hsum <;> cases h
    · exact ⟨.syncMismatch, rfl, sync, rfl, hsync⟩
    · exact ⟨.lenRange len.toNat, rfl, len, rfl, rfl, hlen⟩
    · exact ⟨.body (len.toNat + 4), rfl, len, rfl, rfl, by simp only [List.length_cons]; omega⟩
    · obtain ⟨k, hk, hne⟩ := checksum_ne (by omega) hsum
      refine ⟨.checksumMismatch, rfl, len, k, rfl, hk, ?_⟩
      rwa [Nat.add_comm 3]

/-- The type of a decoded message is byte 2 of the buffer (30_encoding.md R90). -/
theorem decodeFrame_type (hc : ConfigLegal c) {buf : Bytes} {d : Decoded} (h : decodeFrame c buf = .ok d) :
    buf[2]? = some d.type := by
  obtain ⟨-, h'⟩ | h' | ⟨_, -, -, h'⟩ | ⟨_, -, -, -, h'⟩ | h' | ⟨t, p, r, -, rfl, -, h'⟩ :=
    decodeFrame_cases hc buf <;> rw [h'] at h <;> cases h
  rw [frameOf_cons]
  rfl

/-- LOOKUP's error is of a type code with no entry (41_dispatch.md R160). -/
theorem lookupType_error {t : Byte} {e : Stop} (h : lookupType c t = .error e) :
    e = .raise .unknownType (.unknownType t) ∧ ∀ v : BitVec 5, (⟨t, v⟩ : RegEntry) ∉ c.registry := by
  unfold lookupType at h
  split at h
  · cases h
  · rename_i hnone; cases h; exact ⟨rfl, registryEntry_none.mp hnone⟩

theorem channelPayload_error (hc : ConfigLegal c) (t : Int) {chan : Int} {extra : Bytes} {e : Stop}
    (h : channelPayload c chan extra = .error e) :
    ∃ i, e = .raise (infoClass i) i ∧ MayRaise c (.instr (.chbuild t chan extra)) i := by
  rw [channelPayload, legal_maxPayload hc] at h
  split_ifs at h with hchan hlen <;> cases h
  · exact ⟨_, rfl, .inl ⟨rfl, hchan⟩⟩
  · exact ⟨_, rfl, .inr ⟨rfl, by omega⟩⟩

/-- CHSET ends as the SET of its byte does, and only the empty payload does not reach it. -/
theorem setChannelOf_stops {p : Payload} {chan : Int} {e : Stop} (h : setChannelOf .channelLayer p chan = .error e) :
    Stops (MayRaise c (.instr (.chset p chan))) (MayFault c (.instr (.chset p chan))) e := by
  rw [setChannelOf] at h
  obtain ⟨hx, h'⟩ | ⟨-, -, -, h'⟩ | ⟨⟨hn, -⟩, h'⟩ | ⟨-, _, _, _, -, -, -, h'⟩ :=
    setBySpec_cases ⟨.channelLayer, .channel⟩ channelSpec p (.num chan) <;> rw [h'] at h <;> cases h
  · exact .raise (.fieldRange _) ⟨rfl, inRange_false_iff.mp hx⟩
  · exact .fault ⟨List.length_eq_zero_iff.mp (Nat.lt_one_iff.mp hn), rfl⟩

/-! How any operation ends. -/

/-- An operation ends with one of its causes (60_exceptions.md R263); which fault it is, is said where it is complete. -/
abbrev EndsByCause (o : Operation) (s : State) : Prop :=
  Ending (MayRaise s.cfg o) (fun f => o.complete s.cfg = true → MayFault s.cfg o f) s (perform o s)

theorem mayRaise_of_row {op : FieldOp} (h : rowOp o = some (v, op)) {i : Info} (hi : RowRaises c v op i) :
    MayRaise c o i := by
  obtain ⟨r, hr, hi⟩ := hi
  unfold MayRaise
  split
  case h_9 => exact ⟨v, op, r, h, hr, hi⟩
  all_goals cases h

theorem mayFault_of_row {op : FieldOp} (h : rowOp o = some (v, op)) {f : Fault} (hf : RowFaults c v op f) :
    MayFault c o f := by
  obtain ⟨r, hr, hf⟩ := hf
  unfold MayFault
  split
  case h_3 => exact ⟨v, op, r, h, hr, hf⟩
  all_goals cases h

theorem endsByCause_row (hc : ConfigLegal s.cfg) {op : FieldOp} (h : rowOp o = some (v, op)) : EndsByCause o s :=
  (perform_row_ending hc h).mono (fun _ => mayRaise_of_row h)
    fun _ hf ho => mayFault_of_row h (hf (accessible_of_complete hc h ho))

theorem endsByCause_encode (hc : ConfigLegal s.cfg) (t : Int) (p : Payload) :
    EndsByCause (.instr (.encode t p)) s := by
  cases hf : encodeFrame s.cfg t p with
  | error e =>
    obtain ⟨i, rfl, hi⟩ := encodeFrame_error hc hf
    rw [EndsByCause, perform, exec_encode_raise hf]
    exact .raise i hi
  | ok f =>
    simp only [EndsByCause, perform, exec, execEncode, hf]
    exact .ok rfl rfl

theorem endsByCause_decode (hc : ConfigLegal s.cfg) (buf : Bytes) : EndsByCause (.instr (.decode buf)) s := by
  cases hd : decodeFrame s.cfg buf with
  | error e =>
    obtain ⟨i, rfl, hi⟩ := decodeFrame_error hc hd
    rw [EndsByCause, perform, exec_decode_raise hd]
    exact .raise i hi
  | ok d =>
    rw [EndsByCause, perform, exec_decode_ok hd]
    exact .ok rfl rfl

theorem endsByCause_resolve (hc : ConfigLegal s.cfg) (buf : Bytes) : EndsByCause (.instr (.resolve buf)) s := by
  cases hd : decodeFrame s.cfg buf with
  | error e =>
    obtain ⟨i, rfl, hi⟩ := decodeFrame_error hc hd
    rw [EndsByCause, perform, exec_resolve_raise hd]
    exact .raise i (.inl hi)
  | ok d =>
    cases hl : lookupType s.cfg d.type with
    | error e =>
      obtain ⟨rfl, hnone⟩ := lookupType_error hl
      rw [EndsByCause, perform, exec_resolve_lookup_raise hd hl]
      exact .raise (.unknownType d.type)
        (.inr ⟨d.type, rfl, decodeFrame_type hc hd, ⟨d.payload, d.consumed, hd⟩, hnone⟩)
    | ok id =>
      rw [EndsByCause, perform, exec_resolve_ok hd hl]
      exact .ok rfl rfl

theorem endsByCause_lookup (t : Byte) : EndsByCause (.instr (.lookup t)) s := by
  cases hl : lookupType s.cfg t with
  | error e =>
    obtain ⟨rfl, hnone⟩ := lookupType_error hl
    rw [EndsByCause, perform, exec_lookup_raise hl]
    exact .raise (.unknownType t) ⟨rfl, hnone⟩
  | ok id =>
    rw [EndsByCause, perform, exec_lookup_ok hl]
    exact .ok rfl rfl

theorem endsByCause_chbuild (hc : ConfigLegal s.cfg) (t chan : Int) (extra : Bytes) :
    EndsByCause (.instr (.chbuild t chan extra)) s := by
  cases hp : channelPayload s.cfg chan extra with
  | error e =>
    obtain ⟨i, rfl, hi⟩ := channelPayload_error hc t hp
    rw [EndsByCause, perform, exec_chbuild_raise t hp]
    exact .raise i hi
  | ok p =>
    simp only [EndsByCause, perform, exec, execChbuild, hp]
    exact .ok rfl rfl

theorem endsByCause_chview (p : Payload) : EndsByCause (.instr (.chview p)) s := by
  cases p with
  | nil =>
    rw [EndsByCause, perform, exec_chview_nil]
    exact .fault fun _ => ⟨rfl, rfl⟩
  | cons chan extra =>
    rw [EndsByCause, perform, exec_chview_cons]
    exact .ok rfl rfl

theorem endsByCause_chset (p : Payload) (chan : Int) : EndsByCause (.instr (.chset p chan)) s :=
  (Ending.payoutOf fun _ => setChannelOf_stops).mono (fun _ => id) fun _ hf _ => hf

/-- Every operation ends with one of its causes, but CKSUM, which writes the byte it returns and no more
(40_codec_ops.md R130). -/
theorem cksum_or_endsByCause (hc : ConfigLegal s.cfg) (o : Operation) :
    (∃ b, o = .instr (.cksum b)) ∨ (∀ b, o ≠ .instr (.cksum b)) ∧ EndsByCause o s := by
  cases hv : rowOp o with
  | some z => exact .inr ⟨fun b hb => (by subst hb; cases hv), endsByCause_row (v := z.1) (op := z.2) hc hv⟩
  | none =>
    cases o with
    | added k op => cases hv
    | instr i =>
      cases i with
      | cksum b => exact .inl ⟨b, rfl⟩
      | encode t p => exact .inr ⟨nofun, endsByCause_encode hc t p⟩
      | decode buf => exact .inr ⟨nofun, endsByCause_decode hc buf⟩
      | resolve buf => exact .inr ⟨nofun, endsByCause_resolve hc buf⟩
      | lookup t => exact .inr ⟨nofun, endsByCause_lookup t⟩
      | chbuild t chan extra => exact .inr ⟨nofun, endsByCause_chbuild hc t chan extra⟩
      | chview p => exact .inr ⟨nofun, endsByCause_chview p⟩
      | chset p chan => exact .inr ⟨nofun, endsByCause_chset p chan⟩
      | _ => cases hv

/-! What an operation leaves in STATUS and INFO. -/

theorem infoClass_ne_ok (i : Info) : infoClass i ≠ .ok := by cases i <;> nofun

/-- An operation that answers a next state has written no outcome and is CKSUM, or has written OK, or an error class with
an INFO that is one of its causes, and nothing beside the two. -/
theorem perform_next_cases (hc : ConfigLegal s.cfg) {x : State} (h : perform o s = .next x) :
    ((∃ b, o = .instr (.cksum b)) ∧ x.res.status = none ∧ x.res.info = none) ∨
    (∀ b, o ≠ .instr (.cksum b)) ∧
      ((x.res.status = some .ok ∧ x.res.info = none) ∨
        ∃ i, MayRaise s.cfg o i ∧ x.res = { status := some (infoClass i), info := some i }) := by
  obtain ⟨b, rfl⟩ | ⟨hne, hend⟩ := cksum_or_endsByCause hc o
  · rw [perform, exec_cksum] at h
    cases h
    exact .inl ⟨⟨b, rfl⟩, rfl, rfl⟩
  · rw [EndsByCause, h] at hend
    cases hend with
    | ok hs hi => exact .inr ⟨hne, .inl ⟨hs, hi⟩⟩
    | raise i hi => exact .inr ⟨hne, .inr ⟨i, hi, rfl⟩⟩

/-- A complete operation faults by one of its causes. -/
theorem perform_fault_mayFault (hc : ConfigLegal s.cfg) (ho : o.complete s.cfg = true) {f : Fault}
    (h : perform o s = .fault f) : MayFault s.cfg o f := by
  obtain ⟨b, rfl⟩ | ⟨-, hend⟩ := cksum_or_endsByCause hc o
  · cases h
  · rw [EndsByCause, h] at hend
    cases hend with
    | fault hf => exact hf ho

/-- The only fault among the causes is FIELD_ABSENT (60_exceptions.md R265, R284). -/
theorem mayFault_fieldAbsent {f : Fault} (h : MayFault c o f) : ∃ g, f = .fieldAbsent g := by
  unfold MayFault at h
  split at h
  · exact ⟨_, h.2⟩
  · exact ⟨_, h.2⟩
  · obtain ⟨v, op, r, -, -, hf⟩ := h
    cases op with
    | build xs => cases hf
    | view p => obtain ⟨-, d, -, rfl, -⟩ := hf; exact ⟨_, rfl⟩
    | get n p => exact ⟨_, hf.1⟩
    | set n p x => exact ⟨_, hf.1⟩

/-- An instruction with no cause to fault answers a next state. -/
theorem exec_answers (hc : ConfigLegal s.cfg) {i : Instr} (h : ∀ f, ¬ MayFault s.cfg (.instr i) f) :
    ∃ x, exec i s = .next x := by
  cases hx : exec i s with
  | next x => exact ⟨x, rfl⟩
  | fault f => exact absurd (perform_fault_mayFault (o := .instr i) hc rfl hx) (h f)
  | refused r => exact absurd hx exec_not_refused

/-! The statements. -/

/-- Settles O59: an INFO is written by an error alone, and both errors and faults have their causes. -/
theorem causesByOperation : Obligations.CausesByOperation := by
  refine fun o s hc ho => ⟨fun x info hx hinfo => ?_, fun f hf => perform_fault_mayFault hc ho hf⟩
  obtain ⟨-, -, hi⟩ | ⟨-, ⟨-, hi⟩ | ⟨i, hcause, hres⟩⟩ := perform_next_cases hc hx
  · rw [hi] at hinfo; cases hinfo
  · rw [hi] at hinfo; cases hinfo
  · rw [hres] at hinfo; cases hinfo; exact hcause

/-- Settles O60: the causes of faults are FIELD_ABSENT, and the six instructions that access no field of a payload have
none. -/
theorem onlyFieldAccessFaults : Obligations.OnlyFieldAccessFaults := by
  refine fun s hc => ⟨fun o f ho hf => mayFault_fieldAbsent (perform_fault_mayFault hc ho hf),
    fun o r => perform_not_refused, fun t chan p buf u i hi => exec_answers hc ?_⟩
  rintro f hf
  fin_cases hi <;> obtain ⟨v, op, r, hrow, -⟩ := hf <;> cases hrow

/-- What the operation leaves in STATUS, INFO and the other result ports (60_exceptions.md R268, R270). -/
theorem perform_error_ports (hc : ConfigLegal s.cfg) {x : State} (h : perform o s = .next x) :
    (x.res.status = none ↔ ∃ b : Bytes, o = .instr (.cksum b)) ∧
    (x.res.status = none ∨ x.res.status = some .ok → x.res.info = none) ∧
    ∀ e : Status, x.res.status = some e → e ≠ .ok →
      ∃ info : Info, x.res = { status := some e, info := some info } := by
  obtain ⟨hb, hs, hi⟩ | ⟨hne, ⟨hs, hi⟩ | ⟨i, -, hres⟩⟩ := perform_next_cases hc h
  · refine ⟨⟨fun _ => hb, fun _ => hs⟩, fun _ => hi, fun e he => ?_⟩
    rw [hs] at he; cases he
  · refine ⟨⟨fun h0 => ?_, fun ⟨b, hb⟩ => absurd hb (hne b)⟩, fun _ => hi, fun e he h0 => ?_⟩
    · rw [hs] at h0; cases h0
    · rw [hs] at he; exact absurd (Option.some.inj he).symm h0
  · rw [hres]
    refine ⟨⟨nofun, fun ⟨b, hb⟩ => absurd hb (hne b)⟩, ?_, fun e he _ => ⟨i, ?_⟩⟩
    · rintro (h0 | h0)
      · cases h0
      · exact absurd (Option.some.inj h0) (infoClass_ne_ok i)
    · cases he; rfl

/-- Settles O58: the end of the transaction writes STATUS only where the operation, which then is CKSUM, wrote none. -/
theorem errorWritesStatusAndInfoOnly : Obligations.ErrorWritesStatusAndInfoOnly := by
  refine ⟨fun o s x hc hx => perform_error_ports hc hx, fun s t hc hq h => ?_⟩
  obtain ⟨hq', -⟩ | ⟨r, rest, o, u, -, -, hu, rfl⟩ := step_next h
  · exact absurd hq' hq
  · obtain ⟨-, hnone, herror⟩ := perform_error_ports (s := { s with requests := rest }) hc hu
    cases hs : u.res.status with
    | none =>
      refine ⟨.ok, by rw [showOutcome_status, hs]; rfl, fun h0 => absurd rfl h0, fun _ => ?_⟩
      rw [showOutcome_eq]
      exact hnone (.inl hs)
    | some e =>
      rw [showOutcome_of_status u hs]
      exact ⟨e, hs, herror e hs, fun he => hnone (.inr (he ▸ hs))⟩

end Sys2Proof.Proofs.Exceptions

/-! PROOF. The family 70_reset_and_hazards.md: the bound on waiting (R307), the frame without a payload (R300), and the
payload of Capabilities, which no SET shortens (R309). -/

namespace Sys2Proof.Proofs.ResetAndHazards
open Machine Safety Encoding Codec TypeDispatch RowAccess VariantsConfig VariantsEventResponse

variable {s : State}

/-! DECODE. -/

/-- Settles O14: DECODE waits for a header of 5 bytes, or for a body that ends by byte 13. -/
theorem thirteenBytesNeverIncomplete : Obligations.ThirteenBytesNeverIncomplete := by
  intro s hc buf hb
  obtain ⟨hheader, -⟩ | hsync | ⟨_, -, -, hlen⟩ | ⟨n, -, hn, hbody, -⟩ | hsum | ⟨t, p, r, -, -, -, hok⟩ :=
    decodeFrame_cases hc buf
  · omega
  · exact ⟨_, exec_decode_raise hsync, .inl rfl⟩
  · exact ⟨_, exec_decode_raise hlen, .inr (.inl rfl)⟩
  · omega
  · exact ⟨_, exec_decode_raise hsum, .inl rfl⟩
  · exact ⟨_, exec_decode_ok hok, .inr (.inr rfl)⟩

/-- Settles O15: the frame of an empty payload is one byte short of the 5 that DECODE asks for, whichever byte that is. -/
theorem zeroPayloadFrameNeedsAFifthByte : Obligations.ZeroPayloadFrameNeedsAFifthByte := by
  refine ⟨by decide, fun s hc t => ?_⟩
  have hframe : (frameBytes s.cfg.sync t []).length = 4 := frameBytes_length s.cfg.sync t []
  have hshort : (frameBytes s.cfg.sync t []).length < 5 := hframe.trans_lt (by decide)
  exact ⟨_, _, exec_encode_frame hc t (Nat.zero_le 9), rfl, hframe, exec_decode_short hc hshort,
    exec_resolve_raise (decodeFrame_short hc hshort),
    fun b => exec_decode_frame hc (p := []) (r := [b]) (Nat.zero_le 9) le_rfl⟩

/-! SET of Capabilities. -/

/-- After its SET a field is within the payload. -/
theorem setBySpec_reaches {f : Field} {d : FieldSpec} {p q : Payload} {x : FieldVal}
    (h : setBySpec f d p x = .ok q) : d.offset + kindWidth d.kind ≤ q.length := by
  obtain ⟨-, h'⟩ | ⟨hx, -, hp, h'⟩ | ⟨-, h'⟩ | ⟨hx, pre, mid, post, -, hpre, -, h'⟩ := setBySpec_cases f d p x <;>
    rw [h'] at h <;> cases h
  case inr.inl => rw [List.length_append, fieldBytes_length hx, hp]
  case inr.inr.inr => rw [List.length_append, List.length_append, fieldBytes_length hx, hpre]; omega

/-- A SET that answers a payload answers that of the field's layout. -/
theorem setBySpec_of_setOp {v : Variant} {n : FieldName} {d : FieldSpec} {p q : Payload} {x : FieldVal} {y : State}
    (h : setOp v n p x s = .next y) (hq : y.res.payout = some q) (hd : specOf s.cfg v n = some d) :
    setBySpec (fieldIn v n) d p x = .ok q :=
  payoutOf_inv (setOp_of_spec hd p x ▸ h) hq

/-- The SET of a field that is no optional byte keeps the payload's length. -/
theorem setOp_keeps_length {v : Variant} {n : FieldName} {d : FieldSpec} {p q : Payload} {x : FieldVal} {y : State}
    (h : setOp v n p x s = .next y) (hq : y.res.payout = some q) (hd : specOf s.cfg v n = some d)
    (ho : d.optional = false) : q.length = p.length := by
  obtain hlen | ⟨hopt, -, -⟩ := setBySpec_length (setBySpec_of_setOp h hq hd)
  · exact hlen
  · rw [ho] at hopt; cases hopt

/-- Settles O49: the first four fields are never optional, and adv-options-2, once set, is within the payload, which it
lengthens only where the payload ends just before it. -/
theorem capabilitiesAppendOnly : Obligations.CapabilitiesAppendOnly := by
  refine fun s hc p q v y => ⟨?fixed, fun h hq => ?optional⟩
  case fixed =>
    rintro op (rfl | rfl | rfl | rfl) h hq
    · exact setOp_keeps_length (n := .maxChannels) h hq (specOf_of_default hc rfl) rfl
    · exact setOp_keeps_length (n := .maxNetworks) h hq (specOf_of_default hc rfl) rfl
    · exact setOp_keeps_length (n := .stdOptions) h hq (specOf_of_default hc rfl) rfl
    · exact setOp_keeps_length (n := .advOptions) h hq (specOf_of_default hc rfl) rfl
  case optional =>
    have hset := setBySpec_of_setOp (n := .advOptions2) h hq (specOf_advOptions2 hc)
    have hreach : 5 ≤ q.length := setBySpec_reaches hset
    have hlen : q.length = p.length ∨ (p.length = 4 ∧ q.length = p.length + 1) :=
      (setBySpec_length hset).imp_right And.right
    exact ⟨hreach, by omega, by omega⟩

end Sys2Proof.Proofs.ResetAndHazards
